-- ==== Sys2Proof/Word.lean ====
section
/-! DEFINITION. The word type, the register width `W` and arithmetic modulo `2^W` (spec 00 R2, R3, section 5.1). -/

namespace Sys2Proof

/-- One byte (20 R81). -/
abbrev Byte := BitVec 8

/-- A value of up to 64 bits. A register of `W` bits is a `Word` whose bits from `W` up are 0 (log 3). -/
abbrev Word := BitVec 64

/-- An interrupt level or mask: the three stored bits of IMR, EIM, ISR and UIM (10 R44, R59). -/
abbrev Level := BitVec 3

/-- The register width option `W`: "either 16, 32 or 64 bit" (00 R2). -/
inductive Width where
  | w16
  | w32
  | w64
deriving DecidableEq, Repr, Inhabited

/-- `W` in bits. -/
def Width.bits : Width → Nat
  | .w16 => 16
  | .w32 => 32
  | .w64 => 64

/-- `W / 8`, the native size in bytes (00 section 5.5). -/
def Width.bytes : Width → Nat
  | .w16 => 2
  | .w32 => 4
  | .w64 => 8

/-- The word whose low `W` bits are 1. -/
def Width.mask : Width → Word
  | .w16 => 0xFFFF
  | .w32 => 0xFFFFFFFF
  | .w64 => 0xFFFFFFFFFFFFFFFF

/-- The widths operations on A, X and Y can be done in: 8, 16, 32, 64, up to `W` (00 R3). -/
def Width.opWidths (w : Width) : List Nat := [8, 16, 32, 64].filter (· ≤ w.bits)

/-- The low `W` bits of a word, `trunc_W` of 00 section 5.1. -/
def trunc (w : Width) (v : Word) : Word := v &&& w.mask

/-- Sum modulo `2^W` (00 section 5.1). -/
def addW (w : Width) (a b : Word) : Word := trunc w (a + b)

/-- Difference modulo `2^W` (00 section 5.1). -/
def subW (w : Width) (a b : Word) : Word := trunc w (a - b)

/-- The value has no bit set from `W` up. -/
def fitsW (w : Width) (v : Word) : Bool := trunc w v == v

end Sys2Proof
end

