-- ==== Sys2Proof/Config.lean ====
section
/-! DEFINITION. The configuration: the parameters the spec decides, as constants; the parameters it leaves open, as
the record `Part` that State carries (every statement then holds for every value of them); and the free values, opaque
constants without a body (spec 00 section 4, 92 section 6). -/

namespace Sys2Proof

/-! ## Decided parameters -/

/-- The order of the bytes of a wider value in memory (20 R83). -/
inductive ByteOrder where
  | little
  | big
deriving DecidableEq, Repr

/-- The stack discipline (20 R88); the spec gives a meaning to one. -/
inductive StackKind where
  | descendingEmpty
deriving DecidableEq, Repr

/-- What a frame holds, in the order it is pushed (60 R176); the spec gives a meaning to one. -/
inductive FrameLayout where
  | returnAddressThenEsrThenSr
deriving DecidableEq, Repr

/-- The mode an entry puts the processor in (60 R180); the spec gives a meaning to one. -/
inductive EntryMode where
  | hypervisor
deriving DecidableEq, Repr

/-- Which of several active lines ISR shows (60 R162); `highest` is the overruled reading of 90 C2. -/
inductive IsrSelect where
  | lowest
  | highest
deriving DecidableEq, Repr

/-- Decided little-endian (20 R83, decision D3; log 23). -/
def Config.byteOrder : ByteOrder := .little

/-- Decided descending, the pointer naming the next free byte (20 R88, decision D5; log 23). -/
def Config.stack : StackKind := .descendingEmpty

/-- Decided: return address, ESR copy, SR copy (60 R176, decision D6; log 23). -/
def Config.frameLayout : FrameLayout := .returnAddressThenEsrThenSr

/-- Decided: every entry goes to hypervisor mode (60 R180, decision D16; log 23). -/
def Config.entryMode : EntryMode := .hypervisor

/-- Decided: the smallest active number (60 R162, decision D9; log 23). -/
def Config.isrSelect : IsrSelect := .lowest

/-! ## Open parameters -/

/-- The three kinds of event with a vector table of their own (60 R160). -/
inductive EventKind where
  | interrupt
  | trap
  | abort
deriving DecidableEq, Repr, Inhabited

/-- ACCEPT_AT_EQUAL, the case `L == EIM` (60 R168). -/
inductive AcceptAtEqual where
  | never
  | always
  | either
deriving DecidableEq, Repr

/-- UIM_AT_EQUAL, the case `L == UIM` (60 R166). -/
inductive UimAtEqual where
  | masked
  | passes
  | either
deriving DecidableEq, Repr

/-- UIM_COMBINE: UIM beside IMR and EIM, or in their place (60 R166). -/
inductive UimCombine where
  | and
  | replace
deriving DecidableEq, Repr

/-- VecTarget, the form of a vector table (60 R174). `table` is the suggested form, an address of `bytes` bytes every
`stride` bytes; `code` is a table of code to jump to; `free` assumes nothing but that `bytes` bytes of memory take part,
each read at a CPU address (log 10). -/
inductive VecFormat where
  | table (stride bytes : Nat)
  | code (stride : Nat)
  | free (bytes : Nat)
deriving DecidableEq, Repr

/-- ABORT_RA, the return address of an abort (60 R181). -/
inductive AbortRa where
  | pc
  | next
deriving DecidableEq, Repr, Inhabited

/-- CLEIM_USER, what CLEIM does in user mode (41 R150): nothing but advance, or an abort of some number (log 21). -/
inductive CleimUser where
  | nop
  | abort (number : Word)
deriving DecidableEq, Repr, Inhabited

/-- CONTAINER_NO_HIT and CONTAINER_MULTI_HIT (20 R95): `refuse` is the spec's rule until the parameter is given; `abort`
is the outcome it calls likely, an abort of some number. Neither translates the address (log 19). -/
inductive ContainerMiss where
  | refuse
  | abort (number : Word)
deriving DecidableEq, Repr

/-- IFETCH_COHERENT (20 R101): `coherent` fetches what memory holds; `refuseWritten` is the spec's rule until the
parameter is given, a fetch of an address the machine has written is refused (log 18). -/
inductive IFetch where
  | coherent
  | refuseWritten
deriving DecidableEq, Repr

/-- The registers by name (00 section 5.2, spec 10): the core registers, with `s` the stack pointer of the current mode
(10 R20, R27), the interrupt registers (10 R44), the mode control registers (10 R53) and the registers of each container
set (10 R60). -/
inductive Reg where
  | pc
  | a
  | x
  | y
  | e
  | b
  | s
  | su
  | sh
  | sr
  | esr
  | imr
  | eim
  | isr
  | iv
  | tv
  | av
  | tmv
  | umm
  | hmm
  | umc
  | uim
  | cmask (set : Nat)
  | ccmp (set : Nat)
  | cofs (set : Nat)
deriving DecidableEq, Repr

/-- OPC_TRAP together with TrapNumber, the place of TRAP's vector number: "an immediate operand, a register, or the
opcode" (40 R131, 30 R111). `free` has `bytes` operand bytes after the opcode and assumes nothing of how the number
follows from the bytes of the instruction and the registers (log 11). -/
inductive TrapEncoding where
  | immediate (opcode : List Byte) (bytes : Nat)
  | register (opcode : List Byte) (r : Reg)
  | inOpcode (rows : List (List Byte × Word))
  | free (opcode : List Byte) (bytes : Nat)
deriving DecidableEq, Repr

/-- The byte strings OPC_M of the six instructions; LEN_M is the length of the whole encoding (30 R111). -/
structure Encoding where
  brk : List Byte
  rti : List Byte
  rtu : List Byte
  cleim : List Byte
  sei : List Byte
  trap : TrapEncoding
deriving DecidableEq, Repr

/-- The open parameters: what the spec says "the model takes as an argument" (00 section 4, 92 section 6). NSETS is
the number of container sets in State. -/
structure Part where
  width : Width
  encoding : Encoding
  acceptAtEqual : AcceptAtEqual
  uimAtEqual : UimAtEqual
  uimCombine : UimCombine
  entrySetsI : Bool
  vecFormat : VecFormat
  brkVector : EventKind × Word
  brkRaOffset : Word
  abortNoPrivrti : Word
  abortRa : AbortRa
  cleimUser : CleimUser
  containerNoHit : ContainerMiss
  containerMultiHit : ContainerMiss
  ifetch : IFetch
  resetPc : Word
deriving DecidableEq, Repr

/-! ## Free values -/

/-- ACCEPT_AT_EQUAL = either, drawn anew at each boundary (60 R168, 93 U14; log 14). -/
opaque Config.freeAcceptAtEqual : Nat → Bool

/-- UIM_AT_EQUAL = either, drawn anew at each boundary (60 R166, 93 U14; log 14). -/
opaque Config.freeUimAtEqual : Nat → Bool

/-- NMI_ACCEPT = may, drawn anew at each boundary (60 R172, 93 U14; log 14). -/
opaque Config.freeNmiAccept : Nat → Bool

/-- VecTarget where no form is assumed, the memory it reads: the CPU address of the byte number `j` for a kind, a number
and a base register (60 R174, 20 R87; log 10). -/
opaque Config.freeVecPlace : EventKind → Word → Word → Nat → Word

/-- VecTarget where no form is assumed, its value: "a function from the kind, the number, the base register and memory to
a W bit address", of memory the bytes read (60 R174; log 10). -/
opaque Config.freeVecTarget : EventKind → Word → Word → List Byte → Word

/-- LEN of an instruction that could not be fetched, for the return address ABORT_RA = next of the abort of a fetch that
went as far as the bytes given (60 R181; log 19). -/
opaque Config.freeUnfetchedLength : List Byte → Nat

/-- TrapNumber where no place is assumed: "a function of the instruction bytes and the registers that returns a W bit
unsigned number" (40 R131; log 11). -/
opaque Config.freeTrapNumber : List Byte → List (Reg × Word) → Word

/-- The value read under the name of a register of a container set the machine does not have (00 R4; log 11). -/
opaque Config.freeAbsentRegister : Reg → Word

/-- The number of BRK_VECTOR on the part of State.reset (40 R130; log 8). -/
opaque Config.freeBrkVectorNumber : Word

/-- ABORT_NO_PRIVRTI on the part of State.reset (60 R185; log 9). -/
opaque Config.freeAbortNoPrivrti : Word

/-- ABORT_RA on the part of State.reset (60 R181; log 9). -/
opaque Config.freeAbortRa : AbortRa

/-- CLEIM_USER on the part of State.reset (41 R150; log 9). -/
opaque Config.freeCleimUser : CleimUser

/-! ## The part of State.reset -/

/-- The encodings of the part of State.reset. PRESUMED: BRK, RTI and SEI are the 6502's bytes, the spec's own defaults
(30 R112). DESIGN CHOICE: TRAP, RTU and CLEIM, open with no default, are the scaffolding bytes of 95 part 3 (log 12). -/
def Config.resetEncoding : Encoding where
  brk := [0x00]
  rti := [0x40]
  rtu := [0x12]
  cleim := [0x02]
  sei := [0x78]
  trap := .immediate [0x22] 1

/-- The part of State.reset: the spec's defaults where it gives one, opaque constants where the model can do without a
value, and otherwise a DESIGN CHOICE (logs 1, 5, 8, 9, 10, 12, 18, 19). No statement rests on these values. -/
def Config.resetPart : Part where
  width := .w64
  encoding := Config.resetEncoding
  acceptAtEqual := .either
  uimAtEqual := .either
  uimCombine := .and
  entrySetsI := false
  vecFormat := .free 8
  brkVector := (.interrupt, Config.freeBrkVectorNumber)
  brkRaOffset := 2
  abortNoPrivrti := Config.freeAbortNoPrivrti
  abortRa := Config.freeAbortRa
  cleimUser := Config.freeCleimUser
  containerNoHit := .refuse
  containerMultiHit := .refuse
  ifetch := .refuseWritten
  resetPc := 0

end Sys2Proof
end

