-- ==== Sys2Proof/Syntax.lean ====
section
/-! DEFINITION. The instructions: one constructor for each row of spec/opcode_table.json (30 R111, R115). -/

namespace Sys2Proof

/-- Where a decoded TRAP has its vector number: an immediate operand or the opcode (`imm`), a register (`reg`), or an
unstated function of the bytes of the instruction and the registers, with the operand bytes kept (`free`) (40 R131; log
11). -/
inductive TrapOperand where
  | imm (n : Word)
  | reg (r : Reg)
  | free (raw : List Byte)
deriving DecidableEq, Repr

/-- The six instructions the spec names, in the table's order. -/
inductive Instr where
  | brk
  | trap (operand : TrapOperand)
  | rti
  | rtu
  | cleim
  | sei
deriving DecidableEq, Repr

end Sys2Proof
end

