-- ==== Sys2Proof/WellFormed.lean ====
section
/-! DEFINITION. Which configurations of encodings, parts and instructions are well formed (log 13). -/

namespace Sys2Proof

/-- The opcode byte strings that select TRAP. -/
def TrapEncoding.opcodes : TrapEncoding → List (List Byte)
  | .immediate opcode _ => [opcode]
  | .register opcode _ => [opcode]
  | .inOpcode rows => rows.map Prod.fst
  | .free opcode _ => [opcode]

/-- Every configured opcode byte string, in the order of the opcode table. -/
def Encoding.opcodes (e : Encoding) : List (List Byte) :=
  [e.brk] ++ e.trap.opcodes ++ [e.rti, e.rtu, e.cleim, e.sei]

/-- Neither byte string is an initial segment of the other. -/
def apart (p q : List Byte) : Bool := !p.isPrefixOf q && !q.isPrefixOf p

/-- No byte string of the list is an initial segment of another: a configured byte string is matched whole (30 R114). -/
def prefixFree : List (List Byte) → Bool
  | [] => true
  | p :: ps => ps.all (apart p) && prefixFree ps

/-- The numbers a TRAP encoding can give are `W` bit numbers (40 R131), and an opcode gives one number. -/
def TrapEncoding.wf (w : Width) : TrapEncoding → Bool
  | .immediate _ bytes => decide (bytes ≤ w.bytes)
  | .register _ _ => true
  | .inOpcode rows => rows.all (fun row => fitsW w row.2) && decide (rows.map Prod.snd).Nodup
  | .free _ _ => true

/-- The six encodings are distinguishable: nonempty and prefix-free. -/
def Encoding.wf (w : Width) (e : Encoding) : Bool :=
  e.opcodes.all (fun opcode => !opcode.isEmpty) && prefixFree e.opcodes && e.trap.wf w

/-- A vector entry read from memory is at most an address of the part (60 R174). -/
def VecFormat.wf (w : Width) : VecFormat → Bool
  | .table _ bytes => decide (bytes ≤ w.bytes)
  | .code _ => true
  | .free _ => true

/-- The open parameters are ones a part can have. -/
def Part.wf (p : Part) : Bool := p.encoding.wf p.width && p.vecFormat.wf p.width

/-- TRAP's operand is of the form the encoding gives it, with a value it can hold. -/
def TrapOperand.wf (w : Width) (t : TrapEncoding) : TrapOperand → Bool
  | .imm n =>
    match t with
    | .immediate _ bytes => fitsW w n && decide (n.toNat < 256 ^ bytes)
    | .inOpcode rows => rows.any (fun row => row.2 == n)
    | .register _ _ => false
    | .free _ _ => false
  | .reg r =>
    match t with
    | .register _ r' => r == r'
    | .immediate _ _ => false
    | .inOpcode _ => false
    | .free _ _ => false
  | .free raw =>
    match t with
    | .free _ bytes => raw.length == bytes
    | .immediate _ _ => false
    | .register _ _ => false
    | .inOpcode _ => false

/-- An instruction of the part: TRAP's operand fits its encoding; the others have no operand (30 R111). -/
def Instr.wf (w : Width) (e : Encoding) : Instr → Bool
  | .brk => true
  | .trap operand => operand.wf w e.trap
  | .rti => true
  | .rtu => true
  | .cleim => true
  | .sei => true

end Sys2Proof
end

