-- ==== Sys2Proof/Decode.lean ====
section
/-! DEFINITION. The decoder, total on any bytes, and the encoder, both from the configured byte strings (30 R111 to
R114; opcode_table.json); and the byte helpers they share with memory (20 R83). -/

namespace Sys2Proof

/-! ## Bytes of a value -/

/-- The low `n` bytes of a value, least significant first. -/
def leBytes : Nat → Word → List Byte
  | 0, _ => []
  | n + 1, v => v.setWidth 8 :: leBytes n (v >>> 8)

/-- The value of bytes given least significant first. -/
def leValue : List Byte → Word
  | [] => 0
  | b :: bs => b.setWidth 64 ||| (leValue bs <<< 8)

/-- The `n` bytes of a value in the order of rising addresses (20 R83). -/
def toBytes (n : Nat) (v : Word) : List Byte :=
  match Config.byteOrder with
  | .little => leBytes n v
  | .big => (leBytes n v).reverse

/-- The value of bytes given in the order of rising addresses (20 R83). -/
def fromBytes (bs : List Byte) : Word :=
  match Config.byteOrder with
  | .little => leValue bs
  | .big => leValue bs.reverse

/-! ## The decoder -/

/-- What the decoder says of a sequence of bytes: an instruction and the bytes after it; the beginning of a configured
byte string, with the rest missing; or bytes that begin no configured encoding (30 R113). -/
inductive Scan where
  | found (i : Instr) (rest : List Byte)
  | incomplete
  | notInSpec
deriving DecidableEq, Repr

/-- The first of two scans, unless it found nothing and the second says more. -/
def Scan.orElse : Scan → Scan → Scan
  | .found i rest, _ => .found i rest
  | .incomplete, .found i rest => .found i rest
  | .incomplete, .incomplete => .incomplete
  | .incomplete, .notInSpec => .incomplete
  | .notInSpec, s => s

/-- Match a whole byte string and nothing shorter (30 R114); what follows it is decoded by `k`. -/
def scanOpcode : List Byte → (List Byte → Scan) → List Byte → Scan
  | [], k, bytes => k bytes
  | _ :: _, _, [] => .incomplete
  | o :: os, k, b :: bs => if o = b then scanOpcode os k bs else .notInSpec

/-- An instruction without operand bytes. -/
def scanFixed (opcode : List Byte) (i : Instr) (bytes : List Byte) : Scan := scanOpcode opcode (.found i) bytes

/-- `n` operand bytes, turned into an instruction by `f`. -/
def scanOperand (n : Nat) (f : List Byte → Instr) (bytes : List Byte) : Scan :=
  if bytes.length < n then .incomplete else .found (f (bytes.take n)) (bytes.drop n)

/-- The opcodes that give TRAP's number themselves (40 R131). -/
def scanTrapRows : List (List Byte × Word) → List Byte → Scan
  | [], _ => .notInSpec
  | (opcode, n) :: rows, bytes => (scanFixed opcode (.trap (.imm n)) bytes).orElse (scanTrapRows rows bytes)

/-- TRAP, with its number where the encoding has it (40 R131; log 11). -/
def scanTrap (t : TrapEncoding) (bytes : List Byte) : Scan :=
  match t with
  | .immediate opcode n => scanOpcode opcode (scanOperand n fun operand => .trap (.imm (fromBytes operand))) bytes
  | .register opcode r => scanFixed opcode (.trap (.reg r)) bytes
  | .inOpcode rows => scanTrapRows rows bytes
  | .free opcode n => scanOpcode opcode (scanOperand n fun operand => .trap (.free operand)) bytes

/-- The decoder. -/
def decode (e : Encoding) (bytes : List Byte) : Scan :=
  (scanFixed e.brk .brk bytes).orElse <|
  (scanTrap e.trap bytes).orElse <|
  (scanFixed e.rti .rti bytes).orElse <|
  (scanFixed e.rtu .rtu bytes).orElse <|
  (scanFixed e.cleim .cleim bytes).orElse <|
  scanFixed e.sei .sei bytes

/-! ## The encoder -/

/-- The opcode that gives TRAP the number `n`. -/
def trapRowOpcode : List (List Byte × Word) → Word → List Byte
  | [], _ => []
  | (opcode, m) :: rows, n => if m = n then opcode else trapRowOpcode rows n

/-- The bytes of TRAP after its opcode and before the next instruction, under `t`. -/
def encodeTrap (t : TrapEncoding) (operand : TrapOperand) : List Byte :=
  match t, operand with
  | .immediate opcode n, .imm v => opcode ++ toBytes n v
  | .immediate opcode _, .reg _ => opcode
  | .immediate opcode _, .free _ => opcode
  | .register opcode _, _ => opcode
  | .inOpcode rows, .imm v => trapRowOpcode rows v
  | .inOpcode _, .reg _ => []
  | .inOpcode _, .free _ => []
  | .free opcode _, .free raw => opcode ++ raw
  | .free opcode _, .imm _ => opcode
  | .free opcode _, .reg _ => opcode

/-- The encoder: the bytes of a well-formed instruction. -/
def encode (e : Encoding) : Instr → List Byte
  | .brk => e.brk
  | .trap operand => encodeTrap e.trap operand
  | .rti => e.rti
  | .rtu => e.rtu
  | .cleim => e.cleim
  | .sei => e.sei

/-- LEN_M, the length of the instruction in bytes (30 R111). -/
def instrLength (e : Encoding) (i : Instr) : Nat := (encode e i).length

/-- The length of the longest TRAP. -/
def TrapEncoding.maxLength : TrapEncoding → Nat
  | .immediate opcode n => opcode.length + n
  | .register opcode _ => opcode.length
  | .inOpcode rows => (rows.map fun row => row.1.length).foldr max 0
  | .free opcode n => opcode.length + n

/-- The length of the longest configured instruction. -/
def Encoding.maxLength (e : Encoding) : Nat :=
  [e.brk.length, e.rti.length, e.rtu.length, e.cleim.length, e.sei.length, e.trap.maxLength].foldr max 0

/-! ## Words numbered as the opcode table numbers them -/

/-- The low `n` bytes of a number, the least significant at the lowest address. -/
def natBytes : Nat → Nat → List Byte
  | 0, _ => []
  | n + 1, w => BitVec.ofNat 8 w :: natBytes n (w / 256)

/-- The bytes of an instruction whose low `nbits` bits are given and whose other bits are 0, up to the longest
configured instruction. -/
def tableBytes (e : Encoding) (nbits w : Nat) : List Byte := natBytes (max (nbits / 8) e.maxLength) (w % 2 ^ nbits)

/-- The instruction the decoder reads from a word of the opcode table, on the encodings of State.reset's part. -/
def decodeTableWord (nbits w : Nat) : Option Instr :=
  match decode Config.resetEncoding (tableBytes Config.resetEncoding nbits w) with
  | .found i _ => some i
  | .incomplete => none
  | .notInSpec => none

end Sys2Proof
end

