-- ==== Sys2Proof/Machine/State.lean ====
section
/-! DEFINITION. The state of the machine as plain data, the reasons a step can stop, and reset (spec 10, 70). -/

namespace Sys2Proof.Machine

/-! ## Parts of the state -/

/-- SR: the six stored bits. Bit 5 is constant 0 and bit 4 (B) exists only in stacked copies (10 R30 to R38). -/
structure StatusReg where
  n : Bool
  v : Bool
  d : Bool
  i : Bool
  z : Bool
  c : Bool
deriving DecidableEq, Repr

/-- ESR: the hypervisor mode bit H and the stack frame size SF; the other bits are constant 0 (10 R39 to R42). -/
structure ExtStatusReg where
  h : Bool
  sf : BitVec 2
deriving DecidableEq, Repr

/-- One container register set (10 R60 to R63). -/
structure ContainerSet where
  cmask : Word
  ccmp : Word
  cofs : Word
deriving DecidableEq, Repr

/-- The container register sets: none, or at least four (00 R4, 93 U9; log 2). -/
inductive ContainerUnit where
  | absent
  | present (set0 set1 set2 set3 : ContainerSet) (more : List ContainerSet)
deriving DecidableEq, Repr

/-- The maskable interrupt lines 1 to 7, each active or not (10 R64, 60 R161). -/
structure Lines where
  line1 : Bool
  line2 : Bool
  line3 : Bool
  line4 : Bool
  line5 : Bool
  line6 : Bool
  line7 : Bool
deriving DecidableEq, Repr

/-- No line active. -/
def Lines.idle : Lines := ⟨false, false, false, false, false, false, false⟩

/-- What the environment presents at one instruction boundary (10 R64; log 15). -/
structure Inputs where
  lines : Lines
  nmi : Bool
deriving DecidableEq, Repr

/-- Memory by physical address: addresses strictly rising, no entry equal to what an unlisted address reads as. -/
abbrev Memory := List Host.Cell

/-- What a byte of memory that nothing has written reads as. DESIGN CHOICE (log 7). -/
def Memory.unlisted : Byte := 0x00

/-! ## The state -/

/-- Everything the spec gives the machine, and after it the model's own fields. -/
structure State where
  /-- PC (10 R28): the address of the instruction being executed, or to be executed next. -/
  pc : Word
  /-- A (10 R21). -/
  a : Word
  /-- X (10 R22). -/
  x : Word
  /-- Y (10 R23). -/
  y : Word
  /-- E (10 R24). -/
  e : Word
  /-- B, the base offset register (10 R25). -/
  b : Word
  /-- S(U) (10 R26). -/
  su : Word
  /-- S(H) (10 R26). -/
  sh : Word
  /-- SR (10 R30). -/
  sr : StatusReg
  /-- ESR (10 R39). -/
  esr : ExtStatusReg
  /-- IMR (10 R45). -/
  imr : Level
  /-- EIM (10 R46). -/
  eim : Level
  /-- IV (10 R49). -/
  iv : Word
  /-- TV (10 R50). -/
  tv : Word
  /-- AV (10 R51). -/
  av : Word
  /-- TMV (10 R52). -/
  tmv : Word
  /-- UMM (10 R54). -/
  umm : Byte
  /-- HMM (10 R55). -/
  hmm : Byte
  /-- UMC (10 R56). -/
  umc : Byte
  /-- UIM (10 R59). -/
  uim : Level
  /-- CMASK, CCMP, COFS (10 R60). -/
  containers : ContainerUnit
  /-- `lines` (10 R64). -/
  lines : Lines
  /-- `nmi` (10 R64). -/
  nmi : Bool
  /-- Memory by physical address (20 R80, R81). -/
  mem : Memory
  /-- The model's own: the physical addresses the machine has stored to, strictly rising (20 R101; log 18). -/
  written : List Nat
  /-- The model's own: what the environment presents at the coming boundaries (10 R64; log 15). -/
  inputs : List Inputs
  /-- The model's own: the counter the free choices of a boundary are drawn with (93 U14; log 14). -/
  draws : Nat
  /-- The model's own: the open parameters; no step changes them (92 section 6; log 8). -/
  part : Part
deriving DecidableEq, Repr

/-! ## Reasons to stop -/

/-- Faults that stop the machine. There are none: "The source names no fault for any entry of part 1, so `fault` is
never the treatment" (93 section 1), every address exists and every register and byte of memory holds a value. -/
inductive Fault where
deriving DecidableEq, Repr

/-- Why a CPU address has no translation (20 R95). -/
inductive TranslationMiss where
  | noHit
  | multiHit
deriving DecidableEq, Repr

/-- Situations the spec gives no meaning and refuses by name. Every one is safe: nothing is claimed of what the
hardware does there. -/
inductive Refusal where
  /-- Raised by an arm of `exec` whose instruction has no meaning yet; safe. -/
  | notModelled (mnemonic : String)
  /-- Raised by the instruction fetch on bytes that are none of the six encodings (30 R113, 93 U12); safe. -/
  | instructionNotInSpec
  /-- Raised by the instruction fetch when no active container set matches and CONTAINER_NO_HIT is not given (20 R95, 93
  U7); safe. -/
  | containerNoHit
  /-- Raised by the instruction fetch when several active container sets match and CONTAINER_MULTI_HIT is not given (20
  R95, 93 U7); safe. -/
  | containerMultiHit
  /-- Raised by entry and return when a byte of the frame or of the vector has no translation (60 R184, 93 U11); safe. -/
  | faultDuringEntry (why : TranslationMiss)
  /-- Raised by entry and return when the return address size exceeds `W` (60 R179, 93 U4); safe. -/
  | frameWiderThanW
  /-- Raised by entry when the return address has bits above the frame's size (60 R179, 93 U13); safe. -/
  | returnAddressDoesNotFit
  /-- Raised by TRAP when its number is not below TMV (60 R182, 93 U6); safe. -/
  | trapNumberNotAllowed
  /-- Raised by entry when bits 7 to 0 of the vector base are not 0 (60 R174, 93 U2); safe. -/
  | vectorBaseLowBitsNonzero
  /-- Raised by the instruction fetch of a byte the machine has written, where IFETCH_COHERENT is not given (20 R101); safe. -/
  | fetchOfWrittenByte
deriving DecidableEq, Repr

/-! ## Reset -/

/-- The reset event (70 R210 to R213): the fields the source gives a reset value, EIM by decision D21, and PC from
RESET_PC. What every other register holds after reset is not in the source; here it is what the state held before. -/
def State.applyReset (s : State) : State :=
  { s with
    esr := ⟨true, 0b01⟩
    imr := 0
    eim := 0
    umc := s.umc &&& 0b11101100
    uim := 0b110
    pc := trunc s.part.width s.part.resetPc }

/-- Every register at zero, no container sets, quiet inputs, nothing in memory, on the part `p` (DESIGN CHOICE, logs 2,
4, 5, 7, 15). -/
def State.blank (p : Part) : State where
  pc := 0
  a := 0
  x := 0
  y := 0
  e := 0
  b := 0
  su := 0
  sh := 0
  sr := ⟨false, false, false, false, false, false⟩
  esr := ⟨false, 0⟩
  imr := 0
  eim := 0
  iv := 0
  tv := 0
  av := 0
  tmv := 0
  umm := 0
  hmm := 0
  umc := 0
  uim := 0
  containers := .absent
  lines := Lines.idle
  nmi := false
  mem := []
  written := []
  inputs := []
  draws := 0
  part := p

/-- The machine right after reset. -/
def State.reset : State := (State.blank Config.resetPart).applyReset

end Sys2Proof.Machine
end

