-- ==== Sys2Proof/Machine/Flags.lean ====
section
/-! DEFINITION. The status bytes: how SR, ESR and the three bit registers are packed into bytes and taken from them
(10 R30 to R47, R59). -/

namespace Sys2Proof.Machine

/-- A bit of a byte, at its weight. -/
def bitAt (n : Nat) (v : Bool) : Byte := if v then 1 <<< n else 0

/-- SR as a byte `N V 0 B D I Z C`, with `b` in the place of B (10 R30, R33, R34). -/
def StatusReg.toByte (r : StatusReg) (b : Bool) : Byte :=
  bitAt 7 r.n ||| bitAt 6 r.v ||| bitAt 4 b ||| bitAt 3 r.d ||| bitAt 2 r.i ||| bitAt 1 r.z ||| bitAt 0 r.c

/-- A read of SR outside a frame: bit 4 is 0 (10 R34, decision D35). -/
def StatusReg.read (r : StatusReg) : Byte := r.toByte false

/-- SR from a stacked copy; bits 5 and 4 are ignored (40 R134, 10 R33, R34). -/
def StatusReg.ofByte (v : Byte) : StatusReg where
  n := v.getLsbD 7
  v := v.getLsbD 6
  d := v.getLsbD 3
  i := v.getLsbD 2
  z := v.getLsbD 1
  c := v.getLsbD 0

/-- SR with I set (41 R151). -/
def StatusReg.setI (r : StatusReg) : StatusReg := { r with i := true }

/-- ESR as a byte `0 0 0 0 H 0 SF1 SF0` (10 R39, R42). -/
def ExtStatusReg.toByte (r : ExtStatusReg) : Byte := bitAt 3 r.h ||| r.sf.setWidth 8

/-- ESR from a stacked copy; bits 7 to 4 and 2 are ignored (40 R134, 10 R42). -/
def ExtStatusReg.ofByte (v : Byte) : ExtStatusReg where
  h := v.getLsbD 3
  sf := v.setWidth 2

/-- A three bit register read as its byte: bits 7 to 3 are 0 (10 R44, R59). -/
def levelByte (l : Level) : Byte := l.setWidth 8

/-- UMC.RSS, bit 4 (10 R57). -/
def State.rss (s : State) : Bool := s.umc.getLsbD 4

/-- UMC.UMW, bits 1 and 0: held as state, read by no rule (10 R58). -/
def State.umw (s : State) : BitVec 2 := s.umc.setWidth 2

/-- `RaBytes`, the size in bytes of a return address in a frame (60 R178). -/
def raBytes (w : Width) (sf : BitVec 2) : Nat :=
  if sf = 0b00 then w.bytes
  else if sf = 0b01 then 2
  else if sf = 0b10 then 4
  else 8

end Sys2Proof.Machine
end

