-- ==== Sys2Proof/Machine/Ops.lean ====
section
/-! DEFINITION. The named operations over memory and registers: memory, container translation, MemRead and MemWrite,
the stack, taking an exception (`enter`, `raiseAbort`) and the return from one (`returnFromFrame`). -/

namespace Sys2Proof.Machine

/-! ## Memory by physical address -/

/-- The byte at an address (20 R99). -/
def Memory.read : Memory → Nat → Byte
  | [], _ => Memory.unlisted
  | (k, x) :: m, a => if a = k then x else Memory.read m a

/-- `m` with an entry put before it, unless the value is what an unlisted address reads as. -/
def Memory.put (a : Nat) (v : Byte) (m : Memory) : Memory := if v = Memory.unlisted then m else (a, v) :: m

/-- Store a byte, keeping the canonical form (20 R99). -/
def Memory.write : Memory → Nat → Byte → Memory
  | [], a, v => Memory.put a v []
  | (k, x) :: m, a, v =>
    if a < k then Memory.put a v ((k, x) :: m)
    else if a = k then Memory.put a v m
    else (k, x) :: Memory.write m a v

/-- All addresses of `m` lie above `a`. -/
def Memory.above (a : Nat) (m : Memory) : Bool := m.all fun cell => decide (a < cell.1)

/-- The canonical form: addresses strictly rising, no entry equal to what an unlisted address reads as. -/
def Memory.wf : Memory → Bool
  | [] => true
  | (k, x) :: m => Memory.above k m && decide (x ≠ Memory.unlisted) && Memory.wf m

/-- Add an address to a strictly rising list (log 18). -/
def markAddress (a : Nat) : List Nat → List Nat
  | [] => [a]
  | k :: ks => if a < k then a :: k :: ks else if a = k then k :: ks else k :: markAddress a ks

/-! ## Registers -/

/-- `s` with PC replaced. -/
def State.setPc (s : State) (v : Word) : State := { s with pc := v }

/-- `s` with SR replaced. -/
def State.setSr (s : State) (v : StatusReg) : State := { s with sr := v }

/-- `s` with ESR replaced. -/
def State.setEsr (s : State) (v : ExtStatusReg) : State := { s with esr := v }

/-- `s` with EIM replaced. -/
def State.setEim (s : State) (v : Level) : State := { s with eim := v }

/-- S, the stack pointer of the current mode (10 R27). -/
def State.sp (s : State) : Word := if s.esr.h then s.sh else s.su

/-- `s` with the stack pointer of the current mode replaced (10 R27). -/
def State.setSp (s : State) (v : Word) : State := if s.esr.h then { s with sh := v } else { s with su := v }

/-- `s` with a byte stored at a physical address, and the address marked as written. -/
def State.storeByte (s : State) (pa : Nat) (v : Byte) : State :=
  { s with mem := s.mem.write pa v, written := markAddress pa s.written }

/-- `pc + LEN`, modulo `2^W` (10 R28). -/
def State.pcAfter (s : State) (len : Nat) : Word := addW s.part.width s.pc (BitVec.ofNat 64 len)

/-- LEN of an instruction on the part of `s` (30 R111). -/
def State.len (s : State) (i : Instr) : Nat := instrLength s.part.encoding i

/-! ## Container translation (20 section 4) -/

/-- The bits `W-1` to 8 of a word (00 R8). -/
def highBits (w : Width) (v : Word) : Word := v &&& (w.mask &&& ~~~0xFF)

/-- The container sets, in the spec's numbering (10 R60). -/
def ContainerUnit.sets : ContainerUnit → List ContainerSet
  | .absent => []
  | .present set0 set1 set2 set3 more => set0 :: set1 :: set2 :: set3 :: more

/-- NSETS (00 R4). -/
def ContainerUnit.nsets (u : ContainerUnit) : Nat := u.sets.length

/-- The set is active for the match code (20 R92). -/
def ContainerSet.active (c : ContainerSet) (mc : Byte) : Bool := (mc &&& c.cmask.setWidth 8) == c.ccmp.setWidth 8

/-- The set's address compare matches (20 R93). -/
def ContainerSet.matchesAddr (w : Width) (c : ContainerSet) (addr : Word) : Bool :=
  highBits w (addr &&& c.cmask) == highBits w c.ccmp

/-- The translated address (20 R94); the container control byte takes no part (20 R97). -/
def ContainerSet.physical (w : Width) (c : ContainerSet) (addr : Word) : Word :=
  highBits w ((addr &&& ~~~c.cmask) ||| c.cofs) ||| (addr &&& 0xFF)

/-- The sets that hit a CPU address (20 R96). -/
def ContainerUnit.hits (w : Width) (u : ContainerUnit) (mc : Byte) (addr : Word) : List ContainerSet :=
  u.sets.filter fun c => c.active mc && c.matchesAddr w addr

/-- `Translate` (20 R96). -/
def translateAddr (w : Width) (u : ContainerUnit) (mc : Byte) (addr : Word) : Except TranslationMiss Word :=
  match u with
  | .absent => .ok (trunc w addr)
  | .present _ _ _ _ _ =>
    match u.hits w mc (trunc w addr) with
    | [] => .error .noHit
    | [c] => .ok (c.physical w (trunc w addr))
    | _ :: _ :: _ => .error .multiHit

/-- The current match code: HMM in hypervisor mode, UMM in user mode (20 R91). -/
def State.matchCode (s : State) : Byte := if s.esr.h then s.hmm else s.umm

/-- The physical address of a CPU address in the current mode (20 R91, R96). -/
def State.physicalAddr (s : State) (addr : Word) : Except TranslationMiss Nat :=
  (translateAddr s.part.width s.containers s.matchCode addr).map BitVec.toNat

/-! ## MemRead and MemWrite (20 R83, R84, R86) -/

/-- `MemRead(addr, 1)`. -/
def State.readByte (s : State) (addr : Word) : Except TranslationMiss Byte := do
  let pa ← s.physicalAddr addr
  .ok (s.mem.read pa)

/-- `MemWrite(addr, 1, v)`. -/
def State.writeByte (s : State) (addr : Word) (v : Byte) : Except TranslationMiss State := do
  let pa ← s.physicalAddr addr
  .ok (s.storeByte pa v)

/-- The bytes at `n` consecutive addresses, the sums modulo `2^W`. -/
def State.readBytes (s : State) (addr : Word) : Nat → Except TranslationMiss (List Byte)
  | 0 => .ok []
  | n + 1 => do
    let v ← s.readByte addr
    let vs ← s.readBytes (addW s.part.width addr 1) n
    .ok (v :: vs)

/-- The bytes at the addresses of a list. -/
def State.readEach (s : State) : List Word → Except TranslationMiss (List Byte)
  | [] => .ok []
  | addr :: addrs => do
    let v ← s.readByte addr
    let vs ← s.readEach addrs
    .ok (v :: vs)

/-- Store bytes at consecutive addresses, the sums modulo `2^W`. -/
def State.writeBytes (s : State) (addr : Word) : List Byte → Except TranslationMiss State
  | [] => .ok s
  | v :: vs => do
    let s ← s.writeByte addr v
    s.writeBytes (addW s.part.width addr 1) vs

/-- `MemRead(addr, n)` (20 R83). -/
def State.memRead (s : State) (addr : Word) (n : Nat) : Except TranslationMiss Word := do
  let bytes ← s.readBytes addr n
  .ok (fromBytes bytes)

/-- `MemWrite(addr, n, v)` (20 R83). -/
def State.memWrite (s : State) (addr : Word) (n : Nat) (v : Word) : Except TranslationMiss State :=
  s.writeBytes addr (toBytes n v)

/-! ## The stack (20 R88 to R90) -/

/-- UMC.RSS is in force: user mode and RSS set (20 R90). -/
def State.restricted (s : State) : Bool := !s.esr.h && s.rss

/-- `zext_W(0x01 ++ v[7:0])` (20 R90). -/
def inPageOne (v : Word) : Word := 0x100 ||| (v &&& 0xFF)

/-- StackAddr (20 R90): under UMC.RSS the address is in page 0x01, and S(U) itself is not written (log 31). -/
def State.stackAddr (s : State) (sp : Word) : Word := if s.restricted then inPageOne sp else sp

/-- StackDec (20 R90). -/
def State.stackDec (s : State) (sp : Word) : Word :=
  if s.restricted then inPageOne (sp - 1) else subW s.part.width sp 1

/-- StackInc (20 R90). -/
def State.stackInc (s : State) (sp : Word) : Word :=
  if s.restricted then inPageOne (sp + 1) else addW s.part.width sp 1

/-- `Push8` (20 R88). -/
def State.push8 (s : State) (v : Byte) : Except TranslationMiss State :=
  match Config.stack with
  | .descendingEmpty => do
    let t ← s.writeByte (s.stackAddr s.sp) v
    .ok (t.setSp (s.stackDec s.sp))

/-- `PushN(v, n)`: the most significant of the `n` bytes first (20 R88). -/
def State.pushN (s : State) (v : Word) : Nat → Except TranslationMiss State
  | 0 => .ok s
  | n + 1 => do
    let t ← s.push8 ((v >>> (8 * n)).setWidth 8)
    t.pushN v n

/-- `Pull8` (20 R89). -/
def State.pull8 (s : State) : Except TranslationMiss (Byte × State) :=
  match Config.stack with
  | .descendingEmpty => do
    let t := s.setSp (s.stackInc s.sp)
    let v ← t.readByte (t.stackAddr t.sp)
    .ok (v, t)

/-- `PullN(n)`: the least significant byte first (20 R89). -/
def State.pullN (s : State) : Nat → Except TranslationMiss (Word × State)
  | 0 => .ok (0, s)
  | n + 1 => do
    let (v, t) ← s.pull8
    let (vs, u) ← t.pullN n
    .ok (v.setWidth 64 ||| (vs <<< 8), u)

/-! ## Taking an exception (60 section 4) -/

/-- What causes an entry (60 R186), with the level or the vector number. -/
inductive Cause where
  | interrupt (level : Level)
  | trap (n : Word)
  | brk
  | abort (n : Word)
deriving DecidableEq, Repr

/-- The vector table of a cause (60 R160; BRK: 40 R130). -/
def Cause.kind (p : Part) : Cause → EventKind
  | .interrupt _ => .interrupt
  | .trap _ => .trap
  | .brk => p.brkVector.1
  | .abort _ => .abort

/-- The vector number of a cause (60 R174, R186). -/
def Cause.number (p : Part) : Cause → Word
  | .interrupt level => level.setWidth 64
  | .trap n => n
  | .brk => p.brkVector.2
  | .abort n => n

/-- The B bit of the stacked SR: 1 for BRK alone (10 R34). -/
def Cause.bBit : Cause → Bool
  | .interrupt _ => false
  | .trap _ => false
  | .brk => true
  | .abort _ => false

/-- A miss during entry or return is refused under the name of 60 R184. -/
def duringEntry {α : Type} : Except TranslationMiss α → Except Refusal α
  | .ok v => .ok v
  | .error why => .error (.faultDuringEntry why)

/-- The base register of a vector table (60 R174). -/
def State.vectorBase (s : State) : EventKind → Word
  | .interrupt => s.iv
  | .trap => s.tv
  | .abort => s.av

/-- The place of vector `n` in the table at `base`, entries `stride` bytes apart, modulo `2^W` (60 R174). -/
def vectorPlace (w : Width) (base n : Word) (stride : Nat) : Word := addW w base (n * BitVec.ofNat 64 stride)

/-- `VecTarget(kind, n)`, read at CPU addresses in the mode `s` is in (60 R174, 20 R87; log 10); a base whose bits 7 to 0
are not 0 is refused. -/
def State.vecTarget (s : State) (kind : EventKind) (n : Word) : Except Refusal Word :=
  if (s.vectorBase kind).setWidth 8 ≠ (0 : Byte) then .error .vectorBaseLowBitsNonzero
  else
    match s.part.vecFormat with
    | .table stride bytes => do
      let v ← duringEntry (s.memRead (vectorPlace s.part.width (s.vectorBase kind) n stride) bytes)
      .ok (trunc s.part.width v)
    | .code stride => .ok (vectorPlace s.part.width (s.vectorBase kind) n stride)
    | .free bytes => do
      let vs ← duringEntry (s.readEach ((List.range bytes).map (Config.freeVecPlace kind n (s.vectorBase kind))))
      .ok (trunc s.part.width (Config.freeVecTarget kind n (s.vectorBase kind) vs))

/-- The mode an entry runs in (60 R180). -/
def State.enterMode (s : State) : State :=
  match Config.entryMode with
  | .hypervisor => s.setEsr { s.esr with h := true }

/-- Push the frame: the return address of `k` bytes, the ESR copy, the SR copy (60 R175, R176). -/
def State.pushFrame (s : State) (k : Nat) (ra : Word) (esrCopy srCopy : Byte) : Except TranslationMiss State :=
  match Config.frameLayout with
  | .returnAddressThenEsrThenSr => do
    let s ← s.pushN ra k
    let s ← s.push8 esrCopy
    s.push8 srCopy

/-- SR after entry (60 R177). -/
def State.entrySr (s : State) : StatusReg := if s.part.entrySetsI then s.sr.setI else s.sr

/-- EIM after entry: the level of an interrupt, unchanged by every other cause, BRK among them whatever its table
(60 R169, R175, 40 R130; log 17). -/
def State.entryEim (s : State) : Cause → Level
  | .interrupt level => level
  | .trap _ => s.eim
  | .brk => s.eim
  | .abort _ => s.eim

/-- The return address does not fit a frame of `k` bytes (60 R179). -/
def raTooWide (w : Width) (k : Nat) (ra : Word) : Bool := decide (8 * k < w.bits) && (trunc w ra >>> (8 * k) != 0)

/-- `Enter`: take an exception of cause `c` with the return address `ra` (60 R175). -/
def State.enter (s : State) (c : Cause) (ra : Word) : Except Refusal State :=
  let k := raBytes s.part.width s.esr.sf
  if s.part.width.bits < 8 * k then .error .frameWiderThanW
  else if raTooWide s.part.width k ra then .error .returnAddressDoesNotFit
  else do
    let t ← duringEntry (s.enterMode.pushFrame k ra s.esr.toByte (s.sr.toByte c.bBit))
    let u := (t.setSr s.entrySr).setEim (s.entryEim c)
    let target ← u.vecTarget (c.kind s.part) (c.number s.part)
    .ok (u.setPc target)

/-- The return address of an abort of an instruction of `len` bytes (60 R181). -/
def State.abortReturn (s : State) (len : Nat) : Word :=
  match s.part.abortRa with
  | .pc => s.pc
  | .next => s.pcAfter len

/-- `raise Abort`: entry from the state before the instruction, which has left no effect (60 R185; log 30). -/
def State.raiseAbort (s : State) (number : Word) (len : Nat) : Except Refusal State :=
  s.enter (.abort number) (s.abortReturn len)

/-! ## Return from an exception (40 R134) -/

/-- The two return instructions. -/
inductive ReturnKind where
  | rti
  | rtu
deriving DecidableEq, Repr

/-- EIM after a return: RTI in hypervisor mode sets it back to IMR (60 R170). -/
def State.returnEim (s : State) : ReturnKind → Level
  | .rti => if s.esr.h then s.imr else s.eim
  | .rtu => s.eim

/-- `ReturnFromFrame` of an instruction of `len` bytes (40 R134). -/
def State.returnFromFrame (s : State) (mn : ReturnKind) (len : Nat) : Except Refusal State :=
  match Config.frameLayout with
  | .returnAddressThenEsrThenSr => do
    let (srCopy, s1) ← duringEntry s.pull8
    let (esrCopy, s2) ← duringEntry s1.pull8
    if !s.esr.h && esrCopy.getLsbD 3 then s.raiseAbort s.part.abortNoPrivrti len
    else
      let k := raBytes s.part.width (ExtStatusReg.ofByte esrCopy).sf
      if s.part.width.bits < 8 * k then .error .frameWiderThanW
      else do
        let (ra, s3) ← duringEntry (s2.pullN k)
        .ok ((((s3.setSr (StatusReg.ofByte srCopy)).setEsr (ExtStatusReg.ofByte esrCopy)).setEim
          (s.returnEim mn)).setPc (trunc s.part.width ra))

/-! ## Outcomes -/

/-- The outcome of an operation that answers a state or a refusal. -/
def toOutcome : Except Refusal State → Host.Outcome State Fault Refusal
  | .ok s => .next s
  | .error r => .refused r

end Sys2Proof.Machine
end

