-- ==== Sys2Proof/Machine/MaskControl.lean ====
section
/-! DEFINITION. CLEIM, SEI (spec 41). -/

namespace Sys2Proof.Machine

/-- CLEIM: EIM set back to IMR in hypervisor mode; in user mode CLEIM_USER (41 R150, 60 R170; log 21). -/
def execCleim (s : State) : Host.Outcome State Fault Refusal :=
  if s.esr.h then .next ((s.setEim s.imr).setPc (s.pcAfter (s.len .cleim)))
  else
    match s.part.cleimUser with
    | .nop => .next (s.setPc (s.pcAfter (s.len .cleim)))
    | .abort number => toOutcome (s.raiseAbort number (s.len .cleim))

/-- SEI: I is set in either mode (41 R151). -/
def execSei (s : State) : Host.Outcome State Fault Refusal :=
  .next ((s.setSr s.sr.setI).setPc (s.pcAfter (s.len .sei)))

end Sys2Proof.Machine
end

