-- ==== Sys2Proof/Machine/Interrupts.lean ====
section
/-! DEFINITION. Interrupt status, masks and acceptance at an instruction boundary (60 sections 2 and 3). -/

namespace Sys2Proof.Machine

/-- The active levels in rising order (10 R64). -/
def Lines.levels (l : Lines) : List Level :=
  [(1, l.line1), (2, l.line2), (3, l.line3), (4, l.line4), (5, l.line5), (6, l.line6), (7, l.line7)].filterMap
    fun (level, on) => if on then some level else none

/-- ISR: the smallest active level, 0 when no line is active; masks take no part (60 R162). -/
def State.isr (s : State) : Level :=
  match Config.isrSelect with
  | .lowest => s.lines.levels.head?.getD 0
  | .highest => s.lines.levels.getLast?.getD 0

/-- IMR enables the level (60 R163). -/
def State.imrEnables (s : State) (level : Level) : Bool := level.ule s.imr

/-- The case `L == EIM` (60 R168). -/
def State.acceptsAtEqual (s : State) : Bool :=
  match s.part.acceptAtEqual with
  | .never => false
  | .always => true
  | .either => Config.freeAcceptAtEqual s.draws

/-- The level test of IMR and EIM (60 R167, R168). -/
def State.levelTest (s : State) (level : Level) : Bool :=
  s.imrEnables level && (level.ult s.eim || (level == s.eim && s.acceptsAtEqual))

/-- The case `L == UIM` (60 R166). -/
def State.uimPassesAtEqual (s : State) : Bool :=
  match s.part.uimAtEqual with
  | .masked => false
  | .passes => true
  | .either => Config.freeUimAtEqual s.draws

/-- UIM lets the level through (60 R166). -/
def State.uimPasses (s : State) (level : Level) : Bool :=
  level.ult s.uim || (level == s.uim && s.uimPassesAtEqual)

/-- Acceptance of a maskable level in user mode with I set (60 R165, R166; log 22). -/
def State.userMaskedTest (s : State) (level : Level) : Bool :=
  match s.part.uimCombine with
  | .and => s.uimPasses level && s.levelTest level
  | .replace => s.uimPasses level

/-- A maskable level is initiated: the mode gate (60 R164, R165) and the level test (60 R167). -/
def State.initiates (s : State) (level : Level) : Bool :=
  match s.sr.i, s.esr.h with
  | false, _ => s.levelTest level
  | true, true => false
  | true, false => s.userMaskedTest level

/-- The level ISR shows, if it is initiated; ISR = 0 means no interrupt (60 R162, R167). -/
def State.maskableEntry (s : State) : Option Level :=
  if s.isr = 0 then none else if s.initiates s.isr then some s.isr else none

/-- NMI is entered at this boundary: `nmi` is active and the draw says so (60 R172; log 16). -/
def State.nmiEntry (s : State) : Bool := s.nmi && Config.freeNmiAccept s.draws

/-- The interrupt initiated at this boundary, if any; the lower level number wins (60 R173, R187; log 16). -/
def State.interruptEntry (s : State) : Option Level := if s.nmiEntry then some 0 else s.maskableEntry

/-- The environment's turn at a boundary: the next element of its schedule becomes the state of the lines, which hold
when the schedule is empty (10 R64; log 15). -/
def State.sampleInputs (s : State) : State :=
  match s.inputs with
  | [] => s
  | now :: later => { s with lines := now.lines, nmi := now.nmi, inputs := later }

/-- Move on to fresh free values (93 U14; log 14). -/
def State.countDraw (s : State) : State := { s with draws := s.draws + 1 }

end Sys2Proof.Machine
end

