-- ==== Sys2Proof/Machine/Operands.lean ====
section
/-! DEFINITION. Reading a register by name, and the one operand the named instructions have: TRAP's vector number, in
every form (40 R131; log 11). -/

namespace Sys2Proof.Machine

/-! ## Registers by name (00 section 5.2) -/

/-- A register of the container set numbered `i`, chosen by `f`; there is none for a number that is not below NSETS, and
the value is then free (10 R60, 00 R4; log 11). -/
def State.containerReg (s : State) (r : Reg) (i : Nat) (f : ContainerSet → Word) : Word :=
  match s.containers.sets[i]? with
  | some c => f c
  | none => Config.freeAbsentRegister r

/-- `x[r]`: the value of a register by name (00 section 5.2); one of 8 bits is zero-extended. DESIGN CHOICE, unsafe: S(U),
and S in user mode, read as the register holds it, also under UMC.RSS, where the spec leaves open whether the upper bits
read as 0x01 or keep their value (20 R90; log 31). -/
def State.register (s : State) : Reg → Word
  | .pc => s.pc
  | .a => s.a
  | .x => s.x
  | .y => s.y
  | .e => s.e
  | .b => s.b
  | .s => s.sp
  | .su => s.su
  | .sh => s.sh
  | .sr => s.sr.read.setWidth 64
  | .esr => s.esr.toByte.setWidth 64
  | .imr => (levelByte s.imr).setWidth 64
  | .eim => (levelByte s.eim).setWidth 64
  | .isr => (levelByte s.isr).setWidth 64
  | .iv => s.iv
  | .tv => s.tv
  | .av => s.av
  | .tmv => s.tmv
  | .umm => s.umm.setWidth 64
  | .hmm => s.hmm.setWidth 64
  | .umc => s.umc.setWidth 64
  | .uim => (levelByte s.uim).setWidth 64
  | .cmask i => s.containerReg (.cmask i) i ContainerSet.cmask
  | .ccmp i => s.containerReg (.ccmp i) i ContainerSet.ccmp
  | .cofs i => s.containerReg (.cofs i) i ContainerSet.cofs

/-- The registers outside the container sets, in the order of spec 10. -/
def fixedRegs : List Reg :=
  [.pc, .a, .x, .y, .e, .b, .s, .su, .sh, .sr, .esr] ++ [.imr, .eim, .isr, .iv, .tv, .av, .tmv] ++ [.umm, .hmm, .umc, .uim]

/-- The names of every register of a machine with `nsets` container sets. -/
def regNames (nsets : Nat) : List Reg :=
  fixedRegs ++ (List.range nsets).flatMap fun i => [.cmask i, .ccmp i, .cofs i]

/-- Every register of the machine, with its value. -/
def State.registers (s : State) : List (Reg × Word) := (regNames s.containers.nsets).map fun r => (r, s.register r)

/-! ## TRAP's number -/

/-- TrapNumber: the `W` bit number of a TRAP; where no place is assumed, "a function of the instruction bytes and the
registers" (40 R131). -/
def State.trapNumber (s : State) : TrapOperand → Word
  | .imm n => trunc s.part.width n
  | .reg r => trunc s.part.width (s.register r)
  | .free raw =>
    trunc s.part.width (Config.freeTrapNumber (encode s.part.encoding (.trap (.free raw))) s.registers)

/-- The TMV check: a number is allowed when it is below TMV, as unsigned `W` bit numbers (60 R182, 10 R52). -/
def State.trapAllowed (s : State) (n : Word) : Bool := n.ult s.tmv

end Sys2Proof.Machine
end

