-- ==== Sys2Proof/Machine/TrapReturn.lean ====
section
/-! DEFINITION. BRK, TRAP, RTI, RTU (spec 40). -/

namespace Sys2Proof.Machine

/-- BRK: entry with B = 1 in the stacked SR and the return address `pc + BRK_RA_OFFSET` (40 R130, 60 R181). -/
def execBrk (s : State) : Host.Outcome State Fault Refusal :=
  toOutcome (s.enter .brk (addW s.part.width s.pc s.part.brkRaOffset))

/-- TRAP: the TMV check, then entry with the return address `pc + LEN_TRAP` (40 R131, 60 R181, R182). -/
def execTrap (operand : TrapOperand) (s : State) : Host.Outcome State Fault Refusal :=
  if s.trapAllowed (s.trapNumber operand) then
    toOutcome (s.enter (.trap (s.trapNumber operand)) (s.pcAfter (s.len (.trap operand))))
  else .refused .trapNumberNotAllowed

/-- RTI: return from a stack frame, EIM set back to IMR in hypervisor mode (40 R132). -/
def execRti (s : State) : Host.Outcome State Fault Refusal := toOutcome (s.returnFromFrame .rti (s.len .rti))

/-- RTU: return from a stack frame, EIM left alone (40 R133, decision D32). -/
def execRtu (s : State) : Host.Outcome State Fault Refusal := toOutcome (s.returnFromFrame .rtu (s.len .rtu))

end Sys2Proof.Machine
end

