-- ==== Sys2Proof/Machine/Dispatch.lean ====
section
/-! DEFINITION. One arm for each constructor of Instr. -/

namespace Sys2Proof.Machine

def exec (i : Instr) (s : State) : Host.Outcome State Fault Refusal :=
  match i with
  | .brk => Sys2Proof.Machine.execBrk s
  | .trap operand => Sys2Proof.Machine.execTrap operand s
  | .rti => Sys2Proof.Machine.execRti s
  | .rtu => Sys2Proof.Machine.execRtu s
  | .cleim => Sys2Proof.Machine.execCleim s
  | .sei => Sys2Proof.Machine.execSei s

end Sys2Proof.Machine
end

