-- ==== Sys2Proof/Machine/Fetch.lean ====
section
/-! DEFINITION. Instruction fetch: bytes are read at PC through the translation of the current mode, one at a time and
no more than the instruction has (20 R101, 30 R114; 95 part 3; log 18). -/

namespace Sys2Proof.Machine

/-- Why a fetch brings no instruction: the bytes are none of the six encodings (30 R113); the byte after `got` has no
translation (20 R95); a byte may not be executed (20 R101). -/
inductive FetchStop where
  | notInSpec
  | miss (why : TranslationMiss) (got : List Byte)
  | written
deriving DecidableEq, Repr

/-- The byte at a physical address may be executed (20 R101). -/
def State.mayFetch (s : State) (pa : Nat) : Bool :=
  match s.part.ifetch with
  | .coherent => true
  | .refuseWritten => !s.written.contains pa

/-- Fetch the byte after the bytes `got`. -/
def State.fetchByte (s : State) (got : List Byte) : Except FetchStop Byte :=
  match s.physicalAddr (s.pcAfter got.length) with
  | .error why => .error (.miss why got)
  | .ok pa => if s.mayFetch pa then .ok (s.mem.read pa) else .error .written

/-- Go on fetching after the bytes `got` until the decoder answers; `fuel` bounds the length. -/
def State.fetchFrom (s : State) : Nat → List Byte → Except FetchStop Instr
  | 0, _ => .error .notInSpec
  | fuel + 1, got =>
    match decode s.part.encoding got with
    | .found i _ => .ok i
    | .notInSpec => .error .notInSpec
    | .incomplete => do
      let v ← s.fetchByte got
      s.fetchFrom fuel (got ++ [v])

/-- The instruction at PC. -/
def State.fetch (s : State) : Except FetchStop Instr := s.fetchFrom (s.part.encoding.maxLength + 1) []

/-- The parameter of 20 R95 for a miss. -/
def State.onMiss (s : State) : TranslationMiss → ContainerMiss
  | .noHit => s.part.containerNoHit
  | .multiHit => s.part.containerMultiHit

/-- A fetch without a translation is refused under the name of 20 R95. -/
def missRefusal : TranslationMiss → Refusal
  | .noHit => .containerNoHit
  | .multiHit => .containerMultiHit

/-- What a step does when its fetch stops: it is refused by name, or it takes the abort that CONTAINER_NO_HIT or
CONTAINER_MULTI_HIT gives, of an instruction whose length is not known (20 R95, 60 R181, R185; log 19). -/
def State.afterFetchStop (s : State) : FetchStop → Except Refusal State
  | .notInSpec => .error .instructionNotInSpec
  | .written => .error .fetchOfWrittenByte
  | .miss why got =>
    match s.onMiss why with
    | .refuse => .error (missRefusal why)
    | .abort number => s.raiseAbort number (Config.freeUnfetchedLength got)

/-- Put bytes at consecutive addresses from `addr` as a loader would: memory changes, and the addresses no longer count
as written by the machine (log 24). An address without a translation is left alone. -/
def State.loadBytes (s : State) (addr : Word) : List Byte → State
  | [] => s
  | v :: vs =>
    match s.physicalAddr addr with
    | .error _ => s.loadBytes (addW s.part.width addr 1) vs
    | .ok pa =>
      { s with mem := s.mem.write pa v, written := s.written.filter (· ≠ pa) }.loadBytes (addW s.part.width addr 1) vs

end Sys2Proof.Machine
end

