-- ==== Sys2Proof/Machine/Step.lean ====
section
/-! DEFINITION. One step: at the boundary the environment has its turn and the interrupt test runs; an interrupt that is
initiated is the step, otherwise the instruction at PC is, or what stops its fetch (60 R173, R187; logs 15, 25). -/

namespace Sys2Proof.Machine

/-- The boundary's interrupt test, on the lines just sampled and this boundary's draws (60 R173). -/
def State.boundaryInterrupt (s : State) : Option Level := s.sampleInputs.interruptEntry

/-- The state after the boundary: inputs sampled, draws counted. -/
def State.afterBoundary (s : State) : State := s.sampleInputs.countDraw

/-- One step. -/
def step (s : State) : Host.Outcome State Fault Refusal :=
  match s.boundaryInterrupt with
  | some level => toOutcome (s.afterBoundary.enter (.interrupt level) s.afterBoundary.pc)
  | none =>
    match s.afterBoundary.fetch with
    | .error stop => toOutcome (s.afterBoundary.afterFetchStop stop)
    | .ok i => exec i s.afterBoundary

/-- `s` with an instruction of the opcode table stored where the next step fetches, and the boundary before it quiet, so
that the very next step runs that instruction (log 24). -/
def State.withFetchWord (s : State) (nbits w : Nat) : State :=
  { s with lines := Lines.idle, nmi := false, inputs := [] }.loadBytes s.pc (tableBytes s.part.encoding nbits w)

end Sys2Proof.Machine
end

