-- ==== Sys2Proof/Safety.lean ====
section
/-! DEFINITION. The terms claims are stated in: the invariant of the machine, what an instruction leaves alone, when an
entry or a return can complete and what it then does. They are written from the rules, not from the operations. -/

namespace Sys2Proof.Machine

/-! ## The invariant -/

/-- Every register of `W` bits holds a value of `W` bits (10 R20, R49 to R52; log 3). -/
def State.registersFit (s : State) : Bool :=
  [s.pc, s.a, s.x, s.y, s.e, s.b, s.su, s.sh, s.iv, s.tv, s.av, s.tmv].all (fitsW s.part.width)

/-- Every container register holds a value of `W` bits (10 R60). -/
def State.containersFit (s : State) : Bool :=
  s.containers.sets.all fun c =>
    fitsW s.part.width c.cmask && fitsW s.part.width c.ccmp && fitsW s.part.width c.cofs

/-- Memory is in canonical form and lists addresses of `W` bits only (20 R80). -/
def State.memoryCanonical (s : State) : Bool :=
  s.mem.wf && s.mem.all fun cell => decide (cell.1 < 2 ^ s.part.width.bits)

/-- Strictly rising. -/
def rising : List Nat → Bool
  | [] => true
  | k :: ks => ks.all (fun j => decide (k < j)) && rising ks

/-- The addresses written are strictly rising and of `W` bits (20 R101; log 18). -/
def State.writtenCanonical (s : State) : Bool :=
  rising s.written && s.written.all fun a => decide (a < 2 ^ s.part.width.bits)

/-- The invariant: registers and container registers of `W` bits, canonical memory, a part that can exist. -/
def State.inv (s : State) : Bool :=
  s.registersFit && s.containersFit && s.memoryCanonical && s.writtenCanonical && s.part.wf

/-! ## Frames of registers -/

/-- The registers no instruction and no entry writes (60 R175, 10 R66): A, X, Y, E, B, IMR, IV, TV, AV, TMV, UMM, HMM,
UMC, UIM and the container registers; and the part. -/
structure ControlUnchanged (s t : State) : Prop where
  a : t.a = s.a
  x : t.x = s.x
  y : t.y = s.y
  e : t.e = s.e
  b : t.b = s.b
  imr : t.imr = s.imr
  iv : t.iv = s.iv
  tv : t.tv = s.tv
  av : t.av = s.av
  tmv : t.tmv = s.tmv
  umm : t.umm = s.umm
  hmm : t.hmm = s.hmm
  umc : t.umc = s.umc
  uim : t.uim = s.uim
  containers : t.containers = s.containers
  part : t.part = s.part

/-- The inputs of the environment and the boundary's counter are as before (10 R64: "no instruction of this spec
changes them"). -/
structure InputsUnchanged (s t : State) : Prop where
  lines : t.lines = s.lines
  nmi : t.nmi = s.nmi
  inputs : t.inputs = s.inputs
  draws : t.draws = s.draws

/-! ## Container sets (20 section 4) -/

/-- The set is active for the match code and matches the CPU address, bit by bit: the code against bits 7 to 0 of mask
and compare (20 R92), the address against bits `W-1` to 8 (20 R93). -/
def ContainerSet.Hit (w : Width) (c : ContainerSet) (mc : Byte) (addr : Word) : Prop :=
  (∀ k, k < 8 → (mc.getLsbD k && c.cmask.getLsbD k) = c.ccmp.getLsbD k) ∧
    ∀ k, 8 ≤ k → k < w.bits → (addr.getLsbD k && c.cmask.getLsbD k) = c.ccmp.getLsbD k

/-! ## The stack (20 R88, R90) -/

/-- The CPU address of the `j`-th byte pushed on the stack of the current mode, from 0. -/
def State.pushSlot (s : State) (j : Nat) : Word :=
  if s.restricted then inPageOne (s.sp - BitVec.ofNat 64 j) else subW s.part.width s.sp (BitVec.ofNat 64 j)

/-! ## Entry (60 section 4) -/

/-- The physical address of a CPU address in hypervisor mode. -/
def State.hypervisorAddr (s : State) (addr : Word) : Except TranslationMiss Nat :=
  (translateAddr s.part.width s.containers s.hmm addr).map BitVec.toNat

/-- The size of the return address an entry pushes: SF in force before the entry (60 R175, R178). -/
def State.entryBytes (s : State) : Nat := raBytes s.part.width s.esr.sf

/-- Where an entry pushes its byte number `j`, the first at S(H), each next one below it modulo `2^W` (20 R88, 60
R176). -/
def State.frameSlot (s : State) (j : Nat) : Word := subW s.part.width s.sh (BitVec.ofNat 64 j)

/-- The byte number `j` an entry pushes: the return address from its most significant byte down, the ESR copy, the SR
copy with B (60 R175, R176). -/
def State.frameByte (s : State) (c : Cause) (ra : Word) (j : Nat) : Byte :=
  if j < s.entryBytes then (ra >>> (8 * (s.entryBytes - 1 - j))).setWidth 8
  else if j = s.entryBytes then s.esr.toByte
  else s.sr.toByte (decide (c = .brk))

/-- Every byte of the frame has a translation. -/
def State.frameMapped (s : State) : Bool :=
  (List.range (s.entryBytes + 2)).all fun j => (s.hypervisorAddr (s.frameSlot j)).isOk

/-- The place of the cause's vector (60 R174), where the vectors are `stride` bytes apart. -/
def State.vectorAt (s : State) (c : Cause) (stride : Nat) : Word :=
  vectorPlace s.part.width (s.vectorBase (c.kind s.part)) (c.number s.part) stride

/-- Every byte of the cause's vector that is read has a translation. -/
def State.vectorMapped (s : State) (c : Cause) : Bool :=
  match s.part.vecFormat with
  | .table stride bytes =>
    (List.range bytes).all fun j => (s.hypervisorAddr (addW s.part.width (s.vectorAt c stride) (BitVec.ofNat 64 j))).isOk
  | .code _ => true
  | .free bytes =>
    (List.range bytes).all fun j =>
      (s.hypervisorAddr
        (Config.freeVecPlace (c.kind s.part) (c.number s.part) (s.vectorBase (c.kind s.part)) j)).isOk

/-- The return address fits a frame of `k` bytes (60 R179). -/
def raFits (w : Width) (k : Nat) (ra : Word) : Bool := decide (ra.toNat % 2 ^ w.bits < 2 ^ (8 * k))

/-- The conditions under which an entry of cause `c` with return address `ra` is not refused: the frame is no wider than
`W` and holds the address (60 R179), its bytes and the vector's are mapped (60 R184), the vector base is a multiple of
256 (60 R174). -/
def State.entryReady (s : State) (c : Cause) (ra : Word) : Bool :=
  decide (8 * s.entryBytes ≤ s.part.width.bits) && raFits s.part.width s.entryBytes ra && s.frameMapped &&
    decide ((s.vectorBase (c.kind s.part)).toNat % 256 = 0) && s.vectorMapped c

/-- PC after an entry from `s` to `t` is `VecTarget` of the cause, its bytes read at CPU addresses in `t`, which is in
hypervisor mode (60 R174, 20 R87). -/
def VectorTaken (s : State) (c : Cause) (t : State) : Prop :=
  match s.part.vecFormat with
  | .table stride bytes => ∃ v, t.memRead (s.vectorAt c stride) bytes = .ok v ∧ t.pc = trunc s.part.width v
  | .code stride => t.pc = s.vectorAt c stride
  | .free bytes =>
    ∃ vs : List Byte, vs.length = bytes ∧
      (∀ j v, vs[j]? = some v → t.readByte
        (Config.freeVecPlace (c.kind s.part) (c.number s.part) (s.vectorBase (c.kind s.part)) j) = .ok v) ∧
      t.pc = trunc s.part.width
        (Config.freeVecTarget (c.kind s.part) (c.number s.part) (s.vectorBase (c.kind s.part)) vs)

/-- What an entry of cause `c` with return address `ra` does (60 R175, R176, R180). -/
structure EntryEffect (s : State) (c : Cause) (ra : Word) (t : State) : Prop where
  /-- H is set, SF is left as it was. -/
  esr : t.esr = ⟨true, s.esr.sf⟩
  /-- The frame is `k + 2` bytes on S(H). -/
  sh : t.sh = subW s.part.width s.sh (BitVec.ofNat 64 (s.entryBytes + 2))
  su : t.su = s.su
  /-- Only ENTRY_SETS_I changes SR (60 R177). -/
  sr : t.sr = if s.part.entrySetsI then { s.sr with i := true } else s.sr
  /-- EIM is the level of an interrupt (60 R169). -/
  eim : t.eim = match c with | .interrupt level => level | .trap _ => s.eim | .brk => s.eim | .abort _ => s.eim
  pc : VectorTaken s c t
  /-- A byte of the frame is in its place, unless a byte pushed later is translated to the same place. -/
  frame : ∀ j p, j < s.entryBytes + 2 → s.hypervisorAddr (s.frameSlot j) = .ok p →
    (∀ i, j < i → i < s.entryBytes + 2 → s.hypervisorAddr (s.frameSlot i) ≠ .ok p) →
    t.mem.read p = s.frameByte c ra j
  /-- Every byte of memory outside the frame is as before. -/
  memory : ∀ p, (∀ j, j < s.entryBytes + 2 → s.hypervisorAddr (s.frameSlot j) ≠ .ok p) → t.mem.read p = s.mem.read p
  /-- The places of the frame, and no others, are added to the record of stores (20 R101). -/
  written : ∀ p, p ∈ t.written ↔ p ∈ s.written ∨ ∃ j, j < s.entryBytes + 2 ∧ s.hypervisorAddr (s.frameSlot j) = .ok p
  control : ControlUnchanged s t
  inputs : InputsUnchanged s t

/-! ## Return (40 R134) -/

/-- The CPU address of the `j`-th byte a return pulls (from 1), on the stack of the current mode (20 R89, R90). -/
def State.pullSlot (s : State) (j : Nat) : Word :=
  if !s.esr.h && s.umc.getLsbD 4 then 0x100 ||| ((s.su + BitVec.ofNat 64 j) &&& 0xFF)
  else addW s.part.width (if s.esr.h then s.sh else s.su) (BitVec.ofNat 64 j)

/-- The `j`-th byte a return pulls. -/
def State.pulled (s : State) (j : Nat) : Byte :=
  match s.readByte (s.pullSlot j) with
  | .ok v => v
  | .error _ => 0

/-- The stacked SF (40 R134). -/
def State.stackedSf (s : State) : BitVec 2 := (s.pulled 2).setWidth 2

/-- The size of the return address a return pulls: the stacked SF (40 R134). -/
def State.returnBytes (s : State) : Nat := raBytes s.part.width s.stackedSf

/-- Both status copies have a translation. -/
def State.copiesMapped (s : State) : Bool :=
  (s.readByte (s.pullSlot 1)).isOk && (s.readByte (s.pullSlot 2)).isOk

/-- The return address bytes have a translation. -/
def State.returnMapped (s : State) : Bool :=
  (List.range s.returnBytes).all fun j => (s.readByte (s.pullSlot (j + 3))).isOk

/-- A return meets the PRIVRTI condition: user mode and a stacked H of 1 (40 R134). -/
def State.privilegeViolation (s : State) : Bool := !s.esr.h && (s.pulled 2).getLsbD 3

/-- The conditions under which a return completes without an abort: its bytes are mapped, the stacked H is allowed, and
the return address is no wider than `W` (40 R134, 60 R179, R184). -/
def State.returnReady (s : State) : Bool :=
  s.copiesMapped && !s.privilegeViolation && decide (8 * s.returnBytes ≤ s.part.width.bits) && s.returnMapped

/-- What a return without an abort does, EIM apart (40 R134). -/
structure ReturnEffect (s t : State) : Prop where
  n : t.sr.n = (s.pulled 1).getLsbD 7
  v : t.sr.v = (s.pulled 1).getLsbD 6
  d : t.sr.d = (s.pulled 1).getLsbD 3
  i : t.sr.i = (s.pulled 1).getLsbD 2
  z : t.sr.z = (s.pulled 1).getLsbD 1
  c : t.sr.c = (s.pulled 1).getLsbD 0
  h : t.esr.h = (s.pulled 2).getLsbD 3
  sf : t.esr.sf = s.stackedSf
  /-- The return address, least significant byte first, zero-extended. -/
  pc : ∀ j, j < 8 → (t.pc >>> (8 * j)).setWidth 8 = if j < s.returnBytes then s.pulled (j + 3) else (0 : Byte)
  /-- The stack pointer of the mode the return executes in moves past the frame; the other does not move. -/
  sh : t.sh = if s.esr.h then s.pullSlot (s.returnBytes + 2) else s.sh
  su : t.su = if s.esr.h then s.su else s.pullSlot (s.returnBytes + 2)
  mem : t.mem = s.mem
  written : t.written = s.written
  control : ControlUnchanged s t
  inputs : InputsUnchanged s t

/-! ## Interrupt acceptance (60 section 3) -/

/-- The mode gate lets the level through: I is clear, or in user mode UIM lets it through and is applied as well as IMR
and EIM (60 R164 to R166). -/
def State.gateOpen (s : State) (level : Level) : Bool :=
  !s.sr.i || (!s.esr.h && decide (s.part.uimCombine = .and) && s.uimPasses level)

/-- A level's line is active (10 R64, 60 R161). -/
def State.lineActive (s : State) (level : Level) : Bool :=
  (level == 1 && s.lines.line1) || (level == 2 && s.lines.line2) || (level == 3 && s.lines.line3) ||
    (level == 4 && s.lines.line4) || (level == 5 && s.lines.line5) || (level == 6 && s.lines.line6) ||
    (level == 7 && s.lines.line7)

/-! ## Instruction fetch -/

/-- The bytes at PC are `bytes`, each translated in the current mode and allowed to be executed (20 R101; log 18). -/
def State.bytesAtPc (s : State) (bytes : List Byte) : Prop :=
  ∀ j v, bytes[j]? = some v → ∃ p, s.physicalAddr (s.pcAfter j) = .ok p ∧ s.mayFetch p = true ∧ s.mem.read p = v

end Sys2Proof.Machine
end

