-- ==== Sys2Proof/Certificates/Slice0/Obligations.lean ====
section
/-! DEFINITION. The statements about the model, from the numbered rules of spec/. Every statement about a state holds for
every value of the open parameters in `part`; a value of State.reset's part is used only where a statement says so. -/

open Sys2Proof Sys2Proof.Machine

/-! ## Reset and the invariant -/

/-- 70 R210: what reset sets, and the bytes the registers then read as. -/
def Obligations.ResetSetsTheSourceValues : Prop :=
  ∀ s : State,
    s.applyReset.esr.h = true ∧ s.applyReset.esr.sf = 0b01 ∧ s.applyReset.imr = 0 ∧ s.applyReset.rss = false ∧
      s.applyReset.umw = 0b00 ∧ s.applyReset.uim = 0b110 ∧ s.applyReset.esr.toByte = 0x09 ∧
      levelByte s.applyReset.imr = 0x00 ∧ levelByte s.applyReset.uim = 0x06 ∧
      s.applyReset.sr.read.getLsbD 5 = false ∧
      (∀ k, 3 ≤ k → (levelByte s.applyReset.eim).getLsbD k = false ∧ (levelByte s.applyReset.isr).getLsbD k = false)

/-- The model's own choice beside 70 R210 (logs 4, 5, and the spec's decision D21): reset puts RESET_PC in PC and 0 in EIM
and leaves every register without a reset value, and everything outside the processor, as it was. State.reset is the
result of a reset. -/
def Obligations.ResetLeavesTheRest : Prop :=
  (∀ s : State,
    s.applyReset.pc.toNat = s.part.resetPc.toNat % 2 ^ s.part.width.bits ∧ s.applyReset.eim = 0 ∧
      s.applyReset.umc &&& 0xEC = s.umc &&& 0xEC ∧
      s.applyReset =
        { s with
          pc := s.applyReset.pc, esr := s.applyReset.esr, imr := s.applyReset.imr, eim := s.applyReset.eim,
          umc := s.applyReset.umc, uim := s.applyReset.uim }) ∧
    ∃ s : State, State.reset = s.applyReset ∧ s.mem = [] ∧ s.part = Config.resetPart

/-- The state after reset meets the invariant (logs 3, 4, 7: it is the model's invariant and the model's reset values). -/
def Obligations.ResetMeetsTheInvariant : Prop := State.reset.inv = true

/-- Every step keeps the invariant: registers and container registers of `W` bits (10 R20, R49 to R52, R60), memory in
canonical form with addresses of `W` bits (20 R80), a part that can exist. -/
def Obligations.StepKeepsTheInvariant : Prop :=
  ∀ s t : State, s.inv = true → step s = .next t → t.inv = true

/-! ## Encodings -/

/-- Decoding an encoded well-formed instruction gives it back, with every operand and whatever follows it. -/
def Obligations.DecodeInvertsEncode : Prop :=
  ∀ (w : Width) (e : Encoding) (i : Instr) (rest : List Byte),
    e.wf w = true → i.wf w e = true → decode e (encode e i ++ rest) = .found i rest

/-- What the decoder finds is a well-formed instruction, and the bytes are its encoding and the rest. -/
def Obligations.EncodeInvertsDecode : Prop :=
  ∀ (w : Width) (e : Encoding) (i : Instr) (bytes rest : List Byte),
    e.wf w = true → decode e bytes = .found i rest → bytes = encode e i ++ rest ∧ i.wf w e = true

/-- The decoder matches a whole encoding and nothing shorter: every proper initial segment of one is incomplete. -/
def Obligations.ProperSegmentsAreIncomplete : Prop :=
  ∀ (w : Width) (e : Encoding) (i : Instr) (n : Nat),
    e.wf w = true → i.wf w e = true → n < (encode e i).length → decode e ((encode e i).take n) = .incomplete

/-- The default bytes of BRK, RTI and SEI, as the opcode table writes them, decode to them; the scaffolding bytes of 95
part 3 decode to TRAP, RTU and CLEIM on the encodings of State.reset's part (PRESUMED and DESIGN CHOICE, log 12). -/
def Obligations.TableWordsDecode : Prop :=
  decodeTableWord 8 0b00000000 = some .brk ∧ decodeTableWord 8 0b01000000 = some .rti ∧
    decodeTableWord 8 0b01111000 = some .sei ∧ decodeTableWord 8 0b00000010 = some .cleim ∧
    decodeTableWord 8 0b00010010 = some .rtu ∧ decodeTableWord 16 0b0000000100100010 = some (.trap (.imm 1)) ∧
    decodeTableWord 8 0b11111111 = none

/-! ## The step -/

/-- At a boundary the environment's next inputs become the state of the lines, and nothing else changes but the counter
of the draws; without a next element the lines hold (the model's choice, logs 14, 15). -/
def Obligations.BoundarySamplesTheInputs : Prop :=
  ∀ s : State,
    (s.inputs = [] → s.afterBoundary = { s with draws := s.draws + 1 }) ∧
      ∀ (now : Inputs) (later : List Inputs), s.inputs = now :: later →
        s.afterBoundary = { s with lines := now.lines, nmi := now.nmi, inputs := later, draws := s.draws + 1 }

/-- Where no interrupt is initiated at the boundary, a step runs the instruction whose encoding lies at PC (fetch: log
18). -/
def Obligations.StepRunsTheDecodedInstruction : Prop :=
  ∀ (s : State) (i : Instr),
    s.boundaryInterrupt = none → s.part.encoding.wf s.part.width = true →
      i.wf s.part.width s.part.encoding = true → s.afterBoundary.bytesAtPc (encode s.part.encoding i) →
      step s = exec i s.afterBoundary

/-- Bytes that are none of the configured encodings are refused by name: not a fault, not a trap, not skipped. -/
def Obligations.StepRefusesBytesNotInSpec : Prop :=
  ∀ (s : State) (bytes : List Byte),
    s.boundaryInterrupt = none → s.afterBoundary.bytesAtPc bytes →
      (∀ n, n < bytes.length → decode s.part.encoding (bytes.take n) = .incomplete) →
      decode s.part.encoding bytes = .notInSpec → step s = .refused .instructionNotInSpec

/-- A fetch is refused by name where a byte it needs, the first or one after the bytes `got` that do not yet make an
instruction, has no translation or several and the parameter for that is not given, or has been written by the machine
on a part that does not give IFETCH_COHERENT. -/
def Obligations.StepRefusesUnfetchableBytes : Prop :=
  ∀ (s : State) (got : List Byte), s.boundaryInterrupt = none → s.part.encoding.wf s.part.width = true →
    s.afterBoundary.bytesAtPc got →
    (∀ n, 0 < n → n ≤ got.length → decode s.part.encoding (got.take n) = .incomplete) →
      (s.afterBoundary.physicalAddr (s.pcAfter got.length) = .error .noHit → s.part.containerNoHit = .refuse →
        step s = .refused .containerNoHit) ∧
      (s.afterBoundary.physicalAddr (s.pcAfter got.length) = .error .multiHit → s.part.containerMultiHit = .refuse →
        step s = .refused .containerMultiHit) ∧
      ∀ p, s.afterBoundary.physicalAddr (s.pcAfter got.length) = .ok p → s.part.ifetch = .refuseWritten →
        p ∈ s.written → step s = .refused .fetchOfWrittenByte

/-- An interrupt initiated at the boundary is entered: the return address is the address of the instruction that would
have run next, and EIM becomes the level (the time of recognition is the spec's decision D15). -/
def Obligations.StepEntersTheInitiatedInterrupt : Prop :=
  ∀ (s : State) (level : Level),
    s.boundaryInterrupt = some level → s.mem.wf = true → s.afterBoundary.entryReady (.interrupt level) s.pc = true →
      ∃ t, step s = .next t ∧ EntryEffect s.afterBoundary (.interrupt level) s.pc t ∧ t.eim = level

/-! ## Status bytes -/

/-- 10 R30, R39: the place of every field of SR and of ESR, with the constant zeros. -/
def Obligations.StatusByteLayouts : Prop :=
  (∀ (r : StatusReg) (b : Bool),
    (r.toByte b).getLsbD 7 = r.n ∧ (r.toByte b).getLsbD 6 = r.v ∧ (r.toByte b).getLsbD 5 = false ∧
      (r.toByte b).getLsbD 4 = b ∧ (r.toByte b).getLsbD 3 = r.d ∧ (r.toByte b).getLsbD 2 = r.i ∧
      (r.toByte b).getLsbD 1 = r.z ∧ (r.toByte b).getLsbD 0 = r.c) ∧
    ∀ r : ExtStatusReg,
      r.toByte.getLsbD 7 = false ∧ r.toByte.getLsbD 6 = false ∧ r.toByte.getLsbD 5 = false ∧
        r.toByte.getLsbD 4 = false ∧ r.toByte.getLsbD 3 = r.h ∧ r.toByte.getLsbD 2 = false ∧
        r.toByte.getLsbD 1 = r.sf.getLsbD 1 ∧ r.toByte.getLsbD 0 = r.sf.getLsbD 0

/-- The fields come back from the bytes; the bits shown as 0, and B, are ignored on the way (the spec's decisions D35 and
D36). -/
def Obligations.StatusBytesAreTakenBack : Prop :=
  (∀ (r : StatusReg) (b : Bool), StatusReg.ofByte (r.toByte b) = r) ∧
    (∀ r : ExtStatusReg, ExtStatusReg.ofByte r.toByte = r) ∧
    ∀ v : Byte, StatusReg.ofByte v = StatusReg.ofByte (v &&& 0xCF) ∧ ExtStatusReg.ofByte v = ExtStatusReg.ofByte (v &&& 0x0B)

/-- The size of a return address for each SF and each `W`. -/
def Obligations.ReturnAddressSizes : Prop :=
  ∀ w : Width, 8 * raBytes w 0b00 = w.bits ∧ raBytes w 0b01 = 2 ∧ raBytes w 0b10 = 4 ∧ raBytes w 0b11 = 8

/-! ## Container translation and memory -/

/-- 20 R92, R93: a set is active by its low bytes and the match code, and matches by its high bits and the CPU address;
a compare bit where the mask has none never compares equal, and a zero mask with a zero compare value always does. -/
def Obligations.ActiveAndMatchingSets : Prop :=
  ∀ (w : Width) (c : ContainerSet) (mc : Byte) (addr : Word),
    (c.active mc = true ↔ ∀ k, k < 8 → (mc.getLsbD k && c.cmask.getLsbD k) = c.ccmp.getLsbD k) ∧
      (c.matchesAddr w addr = true ↔
        ∀ k, 8 ≤ k → k < w.bits → (addr.getLsbD k && c.cmask.getLsbD k) = c.ccmp.getLsbD k) ∧
      (∀ k, k < 8 → c.ccmp.getLsbD k = true → c.cmask.getLsbD k = false → c.active mc = false) ∧
      ((∀ k, k < 8 → c.cmask.getLsbD k = false ∧ c.ccmp.getLsbD k = false) → c.active mc = true) ∧
      (∀ k, 8 ≤ k → k < w.bits → c.ccmp.getLsbD k = true → c.cmask.getLsbD k = false → c.matchesAddr w addr = false) ∧
      ((∀ k, 8 ≤ k → k < w.bits → c.cmask.getLsbD k = false ∧ c.ccmp.getLsbD k = false) → c.matchesAddr w addr = true)

/-- 20 R94: the one set that is active and matches gives the translated address, bit by bit, the offset merged by OR, so
that addresses that differ only in bits the offset sets are translated to one. -/
def Obligations.TheMatchingSetTranslates : Prop :=
  (∀ (w : Width) (u : ContainerUnit) (mc : Byte) (addr : Word) (before after : List ContainerSet) (c : ContainerSet),
    u.sets = before ++ c :: after → c.Hit w mc addr → (∀ d ∈ before ++ after, ¬d.Hit w mc addr) →
      ∃ pa, translateAddr w u mc addr = .ok pa ∧
        ∀ k, pa.getLsbD k =
          if k < 8 then addr.getLsbD k
          else decide (k < w.bits) && (addr.getLsbD k && !c.cmask.getLsbD k || c.cofs.getLsbD k)) ∧
    ∀ (w : Width) (c : ContainerSet) (addr other : Word),
      (∀ k, addr.getLsbD k ≠ other.getLsbD k → 8 ≤ k ∧ c.cmask.getLsbD k = false ∧ c.cofs.getLsbD k = true) →
        c.physical w addr = c.physical w other

/-- No set that hits, or more than one, is refused; without sets the address is used as it stands (the spec's decision
D24). -/
def Obligations.NoHitAndSeveralHitsMiss : Prop :=
  ∀ (w : Width) (u : ContainerUnit) (mc : Byte) (addr : Word),
    (u.nsets = 0 → ∃ pa, translateAddr w u mc addr = .ok pa ∧ pa.toNat = addr.toNat % 2 ^ w.bits) ∧
      (u.nsets ≠ 0 → (∀ d ∈ u.sets, ¬d.Hit w mc addr) → translateAddr w u mc addr = .error .noHit) ∧
      (∀ (before between after : List ContainerSet) (c d : ContainerSet),
        u.sets = before ++ c :: between ++ d :: after → c.Hit w mc addr → d.Hit w mc addr →
          translateAddr w u mc addr = .error .multiHit) ∧
      (u.nsets = 0 ∨ 4 ≤ u.nsets)

/-- The low 8 bits of an address pass unchanged, and the container control byte takes no part in the translation. -/
def Obligations.PageOffsetPassesAndControlIsIgnored : Prop :=
  (∀ (w : Width) (u : ContainerUnit) (mc : Byte) (addr pa : Word),
    translateAddr w u mc addr = .ok pa → pa.toNat % 256 = addr.toNat % 256) ∧
    ∀ (w : Width) (u v : ContainerUnit) (mc : Byte) (addr : Word),
      List.Forall₂ (fun c d : ContainerSet => c.cmask = d.cmask ∧ c.ccmp = d.ccmp ∧ c.cofs >>> 8 = d.cofs >>> 8)
          u.sets v.sets →
        translateAddr w u mc addr = translateAddr w v mc addr

/-- A byte read after it is written is the byte written; a byte at another physical address is as before; two CPU
addresses with one physical address name one byte (the spec's decision D22). -/
def Obligations.ByteReadAfterWrite : Prop :=
  ∀ (s t : State) (addr : Word) (v : Byte), s.mem.wf = true → s.writeByte addr v = .ok t →
    t.mem.wf = true ∧
      ∀ other, t.readByte other = if s.physicalAddr other = s.physicalAddr addr then .ok v else s.readByte other

/-- `MemRead` is little-endian and reads the bytes a byte access reads (the spec's decision D3, log 23). -/
def Obligations.MemReadIsLittleEndian : Prop :=
  ∀ (s : State) (addr : Word) (n : Nat) (v : Word), n ≤ 8 → s.memRead addr n = .ok v →
    v.toNat < 2 ^ (8 * n) ∧
      ∀ k, k < n → s.readByte (addW s.part.width addr (BitVec.ofNat 64 k)) = .ok ((v >>> (8 * k)).setWidth 8)

/-- `MemWrite` is little-endian and changes no other byte (the spec's decision D3, log 23); the places stored to, and no
others, are added to the record of stores (log 18). -/
def Obligations.MemWriteIsLittleEndian : Prop :=
  ∀ (s t : State) (addr : Word) (n : Nat) (v : Word), s.mem.wf = true → s.memWrite addr n v = .ok t →
    (∀ k p, k < n → s.physicalAddr (addW s.part.width addr (BitVec.ofNat 64 k)) = .ok p →
      (∀ i, k < i → i < n → s.physicalAddr (addW s.part.width addr (BitVec.ofNat 64 i)) ≠ .ok p) →
      t.mem.read p = (v >>> (8 * k)).setWidth 8) ∧
      (∀ p, (∀ k, k < n → s.physicalAddr (addW s.part.width addr (BitVec.ofNat 64 k)) ≠ .ok p) →
        t.mem.read p = s.mem.read p) ∧
      (∀ p, p ∈ t.written ↔
        p ∈ s.written ∨ ∃ k, k < n ∧ s.physicalAddr (addW s.part.width addr (BitVec.ofNat 64 k)) = .ok p) ∧
      t = { s with mem := t.mem, written := t.written }

/-! ## The stack -/

/-- `Push8` in each mode (the spec's decisions D5 and D28): where the byte goes, what the pointers become, that no other
byte changes, and that its place, and no other, is added to the record of stores (log 18). -/
def Obligations.PushStoresAndSteps : Prop :=
  ∀ (s : State) (v : Byte) (p : Nat), s.mem.wf = true → s.physicalAddr (s.stackAddr s.sp) = .ok p →
    (s.stackAddr s.sp).toNat =
        (if s.esr.h then s.sh.toNat else if s.umc.getLsbD 4 then 0x100 + s.su.toNat % 256 else s.su.toNat) ∧
      ∃ t, s.push8 v = .ok t ∧ (∀ q, t.mem.read q = if q = p then v else s.mem.read q) ∧
        (∀ q, q ∈ t.written ↔ q = p ∨ q ∈ s.written) ∧
        t = { s with su := t.su, sh := t.sh, mem := t.mem, written := t.written } ∧
        t.sh.toNat =
          (if s.esr.h then (s.sh.toNat + 2 ^ s.part.width.bits - 1) % 2 ^ s.part.width.bits else s.sh.toNat) ∧
        t.su.toNat =
          (if s.esr.h then s.su.toNat
          else if s.umc.getLsbD 4 then 0x100 + (s.su.toNat + 255) % 256
          else (s.su.toNat + 2 ^ s.part.width.bits - 1) % 2 ^ s.part.width.bits)

/-- `Pull8` in each mode (the spec's decisions D5 and D28): where the byte comes from, what the pointers become, and that
memory does not change. -/
def Obligations.PullReadsAndSteps : Prop :=
  ∀ (s : State) (v : Byte), s.readByte (s.pullSlot 1) = .ok v →
    (s.pullSlot 1).toNat =
        (if s.esr.h then (s.sh.toNat + 1) % 2 ^ s.part.width.bits
        else if s.umc.getLsbD 4 then 0x100 + (s.su.toNat + 1) % 256
        else (s.su.toNat + 1) % 2 ^ s.part.width.bits) ∧
      s.pull8 = .ok (v, if s.esr.h then { s with sh := s.pullSlot 1 } else { s with su := s.pullSlot 1 })

/-- `PullN(n)` after `PushN(v, n)` returns `v` and leaves S as it was before the push, where the slots have distinct
physical addresses and S is an address the stack can name (the spec's decision D5). -/
def Obligations.PullAfterPushReturnsTheValue : Prop :=
  ∀ (s t : State) (v : Word) (n : Nat), n ≤ 8 → s.mem.wf = true → fitsW s.part.width s.sp = true →
    (s.restricted = true → s.sp.toNat / 256 = 1) →
    (∀ i j, i < j → j < n → s.physicalAddr (s.pushSlot i) ≠ s.physicalAddr (s.pushSlot j)) →
    s.pushN v n = .ok t →
      ∃ x u, t.pullN n = .ok (x, u) ∧ x.toNat = v.toNat % 2 ^ (8 * n) ∧ u = t.setSp s.sp

/-! ## Entry -/

/-- Where an entry is refused, and by which name (60 R179 and decision D7, R184, R174). -/
def Obligations.EntryRefusals : Prop :=
  ∀ (s : State) (c : Cause) (ra : Word),
    (s.part.width.bits < 8 * s.entryBytes → s.enter c ra = .error .frameWiderThanW) ∧
      (8 * s.entryBytes ≤ s.part.width.bits → raFits s.part.width s.entryBytes ra = false →
        s.enter c ra = .error .returnAddressDoesNotFit) ∧
      (8 * s.entryBytes ≤ s.part.width.bits → raFits s.part.width s.entryBytes ra = true → s.frameMapped = false →
        ∃ why, s.enter c ra = .error (.faultDuringEntry why)) ∧
      (8 * s.entryBytes ≤ s.part.width.bits → raFits s.part.width s.entryBytes ra = true → s.frameMapped = true →
        (s.vectorBase (c.kind s.part)).toNat % 256 ≠ 0 → s.enter c ra = .error .vectorBaseLowBitsNonzero) ∧
      (8 * s.entryBytes ≤ s.part.width.bits → raFits s.part.width s.entryBytes ra = true → s.frameMapped = true →
        (s.vectorBase (c.kind s.part)).toNat % 256 = 0 → s.vectorMapped c = false →
        ∃ why, s.enter c ra = .error (.faultDuringEntry why))

/-- An entry leaves memory canonical, so that the next one finds it so. -/
def Obligations.EntryKeepsMemoryCanonical : Prop :=
  ∀ (s t : State) (c : Cause) (ra : Word), s.memoryCanonical = true → s.enter c ra = .ok t → t.memoryCanonical = true

/-! ## BRK, TRAP -/

/-- BRK enters with B set in the stacked SR, through BRK_VECTOR, the return address `pc + BRK_RA_OFFSET`; EIM does not
change whatever the table (decision D18, log 17). -/
def Obligations.BrkEnters : Prop :=
  ∀ s : State, s.mem.wf = true →
    s.entryReady .brk (addW s.part.width s.pc s.part.brkRaOffset) = true →
      ∃ t, exec .brk s = .next t ∧ EntryEffect s .brk (addW s.part.width s.pc s.part.brkRaOffset) t ∧ t.eim = s.eim

/-- TRAP with a number below TMV enters through the trap table, the return address `pc + LEN_TRAP`, in both modes and in
every form of the operand (decisions D18, D19). -/
def Obligations.TrapEnters : Prop :=
  ∀ (s : State) (operand : TrapOperand), s.mem.wf = true → s.trapNumber operand < s.tmv →
    s.entryReady (.trap (s.trapNumber operand)) (s.pcAfter (s.len (.trap operand))) = true →
      ∃ t, exec (.trap operand) s = .next t ∧
        EntryEffect s (.trap (s.trapNumber operand)) (s.pcAfter (s.len (.trap operand))) t ∧
        (s.pcAfter (s.len (.trap operand))).toNat =
          (s.pc.toNat + (encode s.part.encoding (.trap operand)).length) % 2 ^ s.part.width.bits

/-- TRAP with a number that is not below TMV is refused; a TMV of 0 allows none (decision D19). -/
def Obligations.TrapNumberNotAllowedIsRefused : Prop :=
  ∀ (s : State) (operand : TrapOperand),
    (s.tmv ≤ s.trapNumber operand → exec (.trap operand) s = .refused .trapNumberNotAllowed) ∧
      (s.tmv = 0 → exec (.trap operand) s = .refused .trapNumberNotAllowed)

/-- TRAP's number in each form, as a `W` bit number: the immediate; the register, for every register of spec 10, those of
the container sets among them; or a free value, which depends on nothing but the bytes of the instruction, the registers
and the part (log 11). That S(U) reads as it is held also under UMC.RSS is the model's choice (log 31). -/
def Obligations.TrapNumberIsTheOperand : Prop :=
  ∀ s : State,
    (∀ n : Word, (s.trapNumber (.imm n)).toNat = n.toNat % 2 ^ s.part.width.bits) ∧
      (s.registersFit = true →
        s.trapNumber (.reg .pc) = s.pc ∧ s.trapNumber (.reg .a) = s.a ∧ s.trapNumber (.reg .x) = s.x ∧
          s.trapNumber (.reg .y) = s.y ∧ s.trapNumber (.reg .e) = s.e ∧ s.trapNumber (.reg .b) = s.b ∧
          s.trapNumber (.reg .s) = (if s.esr.h then s.sh else s.su) ∧ s.trapNumber (.reg .su) = s.su ∧
          s.trapNumber (.reg .sh) = s.sh ∧ s.trapNumber (.reg .iv) = s.iv ∧ s.trapNumber (.reg .tv) = s.tv ∧
          s.trapNumber (.reg .av) = s.av ∧ s.trapNumber (.reg .tmv) = s.tmv) ∧
      ((s.trapNumber (.reg .sr)).toNat = (s.sr.toByte false).toNat ∧
        (s.trapNumber (.reg .esr)).toNat = s.esr.toByte.toNat ∧ (s.trapNumber (.reg .imr)).toNat = s.imr.toNat ∧
        (s.trapNumber (.reg .eim)).toNat = s.eim.toNat ∧ (s.trapNumber (.reg .isr)).toNat = s.isr.toNat ∧
        (s.trapNumber (.reg .umm)).toNat = s.umm.toNat ∧ (s.trapNumber (.reg .hmm)).toNat = s.hmm.toNat ∧
        (s.trapNumber (.reg .umc)).toNat = s.umc.toNat ∧ (s.trapNumber (.reg .uim)).toNat = s.uim.toNat) ∧
      (s.containersFit = true → ∀ (i : Nat) (c : ContainerSet), s.containers.sets[i]? = some c →
        s.trapNumber (.reg (.cmask i)) = c.cmask ∧ s.trapNumber (.reg (.ccmp i)) = c.ccmp ∧
          s.trapNumber (.reg (.cofs i)) = c.cofs) ∧
      (∀ operand, (s.trapNumber operand).toNat < 2 ^ s.part.width.bits) ∧
      ∀ (raw : List Byte) (mem : Memory) (written : List Nat) (lines : Lines) (nmi : Bool) (inputs : List Inputs)
        (draws : Nat), ({ s with lines := lines } : State).isr = s.isr →
        ({ s with mem := mem, written := written, lines := lines, nmi := nmi, inputs := inputs, draws := draws } :
          State).trapNumber (.free raw) = s.trapNumber (.free raw)

/-! ## RTI, RTU -/

/-- RTI returns from the frame on the stack of its mode; in hypervisor mode it sets EIM back to IMR, in user mode it does
not write EIM (decisions D6, D34). -/
def Obligations.RtiReturns : Prop :=
  ∀ s : State, s.returnReady = true →
    ∃ t, exec .rti s = .next t ∧ ReturnEffect s t ∧ t.eim = if s.esr.h then s.imr else s.eim

/-- RTU returns as RTI does and never writes EIM (decision D32). -/
def Obligations.RtuReturns : Prop :=
  ∀ s : State, s.returnReady = true → ∃ t, exec .rtu s = .next t ∧ ReturnEffect s t ∧ t.eim = s.eim

/-- RTI and RTU in user mode with a stacked H of 1 take the PRIVRTI abort, which leaves no effect of the instruction: the
entry starts from the state before it (decision D20). -/
def Obligations.PrivrtiAborts : Prop :=
  ∀ (s : State) (i : Instr) (ra : Word), i = .rti ∨ i = .rtu → s.mem.wf = true → s.copiesMapped = true →
    s.esr.h = false → (s.pulled 2).getLsbD 3 = true →
    (s.part.abortRa = .pc → ra = s.pc) →
    (s.part.abortRa = .next → ra = addW s.part.width s.pc (BitVec.ofNat 64 (encode s.part.encoding i).length)) →
    s.entryReady (.abort s.part.abortNoPrivrti) ra = true →
      ∃ t, exec i s = .next t ∧ EntryEffect s (.abort s.part.abortNoPrivrti) ra t

/-- A stacked SF that names a size larger than `W/8` bytes is refused, and so is a frame with a byte that is not mapped
(60 R179, R184). -/
def Obligations.ReturnRefusals : Prop :=
  ∀ (s : State) (i : Instr), i = .rti ∨ i = .rtu →
    (s.copiesMapped = false → ∃ why, exec i s = .refused (.faultDuringEntry why)) ∧
      (s.copiesMapped = true → s.privilegeViolation = false → s.part.width.bits < 8 * s.returnBytes →
        exec i s = .refused .frameWiderThanW) ∧
      (s.copiesMapped = true → s.privilegeViolation = false → 8 * s.returnBytes ≤ s.part.width.bits →
        s.returnMapped = false → ∃ why, exec i s = .refused (.faultDuringEntry why))

/-- 10 R48: no interrupt register is in the frame. Two states that differ in IMR, EIM, ISR, IV, TV, AV and TMV alone
push the same frame; a return gives IMR, IV, TV, AV and TMV back as they were and never takes EIM from the stack. -/
def Obligations.InterruptRegistersAreNotInTheFrame : Prop :=
  (∀ (s t u : State) (c : Cause) (ra : Word) (imr eim : Level) (lines : Lines) (iv tv av tmv : Word),
    s.enter c ra = .ok t →
      ({ s with imr := imr, eim := eim, lines := lines, iv := iv, tv := tv, av := av, tmv := tmv } : State).enter c ra =
        .ok u →
      u.mem = t.mem) ∧
    ∀ (s t : State) (i : Instr), i = .rti ∨ i = .rtu → exec i s = .next t →
      t.imr = s.imr ∧ t.isr = s.isr ∧ t.iv = s.iv ∧ t.tv = s.tv ∧ t.av = s.av ∧ t.tmv = s.tmv ∧
        (t.eim = s.eim ∨ t.eim = s.imr)

/-- RTI undoes an entry: from any state in hypervisor mode that has the entry's S(H), memory and translation, whatever a
handler did to the other registers, RTI gives back the status, the mode, the stack pointer and, zero-extended, the
return address; EIM becomes IMR, not what it was before the entry (60 R171). -/
def Obligations.RtiUndoesAnEntry : Prop :=
  ∀ (s t u : State) (c : Cause) (ra : Word), s.mem.wf = true → fitsW s.part.width s.sh = true →
    (∀ i j, i < j → j < s.entryBytes + 2 → s.hypervisorAddr (s.frameSlot i) ≠ s.hypervisorAddr (s.frameSlot j)) →
    s.enter c ra = .ok t →
    u.esr.h = true → u.sh = t.sh → u.mem = t.mem → u.containers = t.containers → u.hmm = t.hmm → u.part = t.part →
      ∃ v, exec .rti u = .next v ∧ v.sr = s.sr ∧ v.esr = s.esr ∧ v.sh = s.sh ∧ v.su = u.su ∧
        v.pc.toNat = ra.toNat % 2 ^ s.part.width.bits ∧ v.eim = u.imr ∧ v.mem = u.mem

/-! ## CLEIM, SEI -/

/-- CLEIM in hypervisor mode sets EIM back to IMR and changes nothing else but PC (decision D31). -/
def Obligations.CleimInHypervisorMode : Prop :=
  ∀ s : State, s.esr.h = true →
    exec .cleim s = .next { s with eim := s.imr, pc := s.pcAfter (s.len .cleim) } ∧
      (s.pcAfter (s.len .cleim)).toNat = (s.pc.toNat + s.part.encoding.cleim.length) % 2 ^ s.part.width.bits

/-- CLEIM in user mode does not write EIM: it advances PC alone, or takes an abort, as CLEIM_USER says (decision D31, log
21). -/
def Obligations.CleimInUserMode : Prop :=
  ∀ s : State, s.esr.h = false →
    (s.part.cleimUser = .nop → exec .cleim s = .next { s with pc := s.pcAfter (s.len .cleim) }) ∧
      ∀ (n ra : Word), s.part.cleimUser = .abort n → s.mem.wf = true →
        (s.part.abortRa = .pc → ra = s.pc) → (s.part.abortRa = .next → ra = s.pcAfter (s.len .cleim)) →
        s.entryReady (.abort n) ra = true →
          ∃ t, exec .cleim s = .next t ∧ EntryEffect s (.abort n) ra t ∧ t.eim = s.eim

/-- 41 R151: SEI sets SR.I to 1 in either mode, and changes nothing else but PC; at the next boundary, in hypervisor
mode every maskable interrupt is held back, in user mode the mask UIM applies, and NMI is held back in neither. -/
def Obligations.SeiSetsTheInterruptBit : Prop :=
  ∀ s : State,
    exec .sei s = .next { s with sr := { s.sr with i := true }, pc := s.pcAfter (s.len .sei) } ∧
      (s.pcAfter (s.len .sei)).toNat = (s.pc.toNat + s.part.encoding.sei.length) % 2 ^ s.part.width.bits ∧
      ∀ t, exec .sei s = .next t → ∀ (lines : Lines) (nmi : Bool) (u : State), u = { t with lines := lines, nmi := nmi } →
        (s.esr.h = true → u.maskableEntry = none) ∧
          (s.esr.h = false → u.uim < u.isr → u.maskableEntry = none) ∧
          (s.esr.h = false → u.isr ≠ 0 → u.isr < u.uim → u.isr ≤ u.imr → u.isr < u.eim →
            u.maskableEntry = some u.isr) ∧
          u.nmiEntry = ({ s with lines := lines, nmi := nmi } : State).nmiEntry

/-! ## Interrupt status, masks and acceptance -/

/-- ISR shows the smallest active level, 0 when no line is active, whatever the masks and NMI (the spec's decision D9). -/
def Obligations.IsrShowsTheSmallestActiveLevel : Prop :=
  ∀ s : State,
    (s.isr = 0 ↔ ∀ level, s.lineActive level = false) ∧ (s.isr ≠ 0 → s.lineActive s.isr = true) ∧
      (∀ level, s.lineActive level = true → s.isr ≤ level) ∧
      ∀ (imr eim uim : Level) (sr : StatusReg) (nmi : Bool),
        ({ s with imr := imr, eim := eim, uim := uim, sr := sr, nmi := nmi } : State).isr = s.isr

/-- IMR enables a level by number. A level it disables is not initiated, save where the part has UIM take the place of IMR
in user mode with I set (60 R163; the exception is UIM_COMBINE of R166, decision D12). NMI does not depend on IMR. -/
def Obligations.ImrEnablesByLevel : Prop :=
  ∀ s : State,
    (∀ level, s.imrEnables level = true ↔ level ≤ s.imr) ∧
      (s.imr = 0 → ∀ level, level ≠ 0 → s.imrEnables level = false) ∧ (s.imr = 7 → ∀ level, s.imrEnables level = true) ∧
      (∀ level, s.maskableEntry = some level →
        s.imrEnables level = true ∨ (s.esr.h = false ∧ s.sr.i = true ∧ s.part.uimCombine = .replace)) ∧
      ∀ imr : Level, ({ s with imr := imr } : State).nmiEntry = s.nmiEntry

/-- The level test of 60 R167, on the level ISR shows. A level it holds back is not initiated, save where the part has UIM
take the place of IMR and EIM in user mode with I set (60 R166, UIM_COMBINE = replace, the spec's decision D12, read as
log 22 says); a level it lets through is initiated if the mode gate is open, which in user mode with I set is asked under
UIM_COMBINE = and alone; no other level is ever initiated. -/
def Obligations.LevelTestDecides : Prop :=
  ∀ s : State,
    (s.isr = 0 → s.maskableEntry = none) ∧ (∀ level, s.maskableEntry = some level → level = s.isr) ∧
      (s.isr ≠ 0 → (s.esr.h = true ∨ s.sr.i = false ∨ s.part.uimCombine = .and) →
        (s.imr < s.isr → s.maskableEntry = none) ∧ (s.isr ≤ s.imr → s.eim < s.isr → s.maskableEntry = none)) ∧
      (s.isr ≠ 0 → s.isr ≤ s.imr → s.isr < s.eim → s.gateOpen s.isr = true → s.maskableEntry = some s.isr)

/-- The case of a level equal to EIM, under each value of ACCEPT_AT_EQUAL; under `either` the draw of the boundary decides,
which is a free value (decision D10, log 14). -/
def Obligations.LevelEqualToEim : Prop :=
  ∀ s : State, s.isr ≠ 0 → s.gateOpen s.isr = true → s.isr ≤ s.imr → s.isr = s.eim →
    (s.part.acceptAtEqual = .never → s.maskableEntry = none) ∧
      (s.part.acceptAtEqual = .always → s.maskableEntry = some s.isr) ∧
      (s.part.acceptAtEqual = .either →
        s.maskableEntry = if Config.freeAcceptAtEqual s.draws then some s.isr else none)

/-- In hypervisor mode with I set no maskable interrupt is initiated, and NMI is not held back by it (decision D13). -/
def Obligations.HypervisorInterruptBitHoldsBack : Prop :=
  ∀ s : State, s.esr.h = true → s.sr.i = true →
    s.maskableEntry = none ∧ s.interruptEntry = if s.nmiEntry then some 0 else none

/-- In user mode UIM acts when I is set and only then; what it masks, what it lets through, and the two open cases, under
each value of UIM_AT_EQUAL and of UIM_COMBINE; under `either` the draw of the boundary decides, which is a free value
(decision D12, logs 14, 22). -/
def Obligations.UserModeInterruptMask : Prop :=
  ∀ s : State, s.esr.h = false →
    (s.sr.i = false → ∀ uim : Level, ({ s with uim := uim } : State).maskableEntry = s.maskableEntry) ∧
      (s.sr.i = true →
        (s.uim < s.isr → s.maskableEntry = none) ∧
        (s.isr ≠ 0 → s.isr < s.uim → s.isr ≤ s.imr → s.isr < s.eim → s.maskableEntry = some s.isr) ∧
        (s.isr = s.uim → s.part.uimAtEqual = .masked → s.maskableEntry = none) ∧
        (s.isr ≠ 0 → s.isr = s.uim → s.part.uimAtEqual = .passes → s.isr ≤ s.imr → s.isr < s.eim →
          s.maskableEntry = some s.isr) ∧
        (s.isr ≠ 0 → s.isr = s.uim → s.part.uimAtEqual = .either → s.isr ≤ s.imr → s.isr < s.eim →
          s.maskableEntry = if Config.freeUimAtEqual s.draws then some s.isr else none) ∧
        (s.isr ≠ 0 → s.isr < s.uim → s.part.uimCombine = .replace → s.maskableEntry = some s.isr) ∧
        (s.isr ≠ 0 → s.isr = s.uim → s.part.uimCombine = .replace →
          (s.part.uimAtEqual = .passes → s.maskableEntry = some s.isr) ∧
          (s.part.uimAtEqual = .either →
            s.maskableEntry = if Config.freeUimAtEqual s.draws then some s.isr else none)) ∧
        (s.part.uimCombine = .and → (s.imr < s.isr ∨ s.eim < s.isr) → s.maskableEntry = none))

/-- NMI: not active, it plays no part; active, it is entered as level 0, before a maskable level and whatever the masks
hold, exactly where the boundary's draw says so, which is a free value (decision D14, logs 14, 16). -/
def Obligations.NmiEntryIsADraw : Prop :=
  ∀ s : State,
    (s.nmi = false → s.interruptEntry = s.maskableEntry) ∧
      (s.nmi = true →
        s.interruptEntry = (if Config.freeNmiAccept s.draws then some 0 else s.maskableEntry) ∧
          ∀ (imr eim uim : Level) (sr : StatusReg),
            (({ s with imr := imr, eim := eim, uim := uim, sr := sr } : State).interruptEntry = some 0 ↔
              Config.freeNmiAccept s.draws = true)) ∧
      s.maskableEntry ≠ some 0

/-! ## Whole-machine rules -/

/-- EIM is written by an interrupt's entry, with its level, and by RTI and CLEIM in hypervisor mode, with IMR; by nothing
else, the abort of a fetch among it (10 R46, 60 R169, R170). -/
def Obligations.EimIsWrittenBy : Prop :=
  ∀ s t : State, step s = .next t →
    (∀ level, s.boundaryInterrupt = some level → t.eim = level) ∧
      (s.boundaryInterrupt = none →
        (∀ i, s.afterBoundary.fetch = .ok i →
          t.eim = if s.esr.h = true ∧ (i = .rti ∨ i = .cleim) then s.imr else s.eim) ∧
        ∀ stop, s.afterBoundary.fetch = .error stop → t.eim = s.eim)

/-- No step writes A, X, Y, E, B, IMR, IV, TV, AV, TMV, UMM, HMM, UMC, UIM, the container registers or the part (10 R66, 60
R175). -/
def Obligations.NoStepWritesControlRegisters : Prop :=
  ∀ s t : State, step s = .next t → ControlUnchanged s t

/-- The mode changes to hypervisor mode by an entry alone, and to user mode by RTI and RTU alone, executed in hypervisor
mode (60 R190). -/
def Obligations.ModeChangesOnlyByEntryAndReturn : Prop :=
  ∀ (s t : State) (i : Instr), s.mem.wf = true → exec i s = .next t →
    (s.esr.h = false → t.esr.h = true → ∃ c ra, EntryEffect s c ra t) ∧
      (s.esr.h = true → t.esr.h = false → i = .rti ∨ i = .rtu)

/-- An instruction executed in user mode that stays there writes no memory and leaves S(H) and EIM alone (10 R27, 60 R170,
R190). -/
def Obligations.UserModeLeavesHypervisorStateAlone : Prop :=
  ∀ (s t : State) (i : Instr), s.esr.h = false → exec i s = .next t → t.esr.h = false →
    t.sh = s.sh ∧ t.eim = s.eim ∧ t.mem = s.mem ∧ ControlUnchanged s t ∧ InputsUnchanged s t

/-- A step changes no byte of memory but bytes of the frame of an entry, and after such a change the machine is in
hypervisor mode (20 R82). -/
def Obligations.OnlyFrameBytesChange : Prop :=
  ∀ (s t : State) (p : Nat), s.mem.wf = true → step s = .next t → t.mem.read p ≠ s.mem.read p →
    t.esr.h = true ∧ ∃ j, j < s.entryBytes + 2 ∧ s.hypervisorAddr (s.frameSlot j) = .ok p

/-- UMM, UMC and UIM act in user mode only: in hypervisor mode a step is the same whatever they hold (60 R191). The one
way they can matter there is as the place of a trap number, which the spec leaves open (40 R131, log 11): where the step
fetches a TRAP its number is to be the same, as it is for an immediate and for every other register. -/
def Obligations.HypervisorModeIgnoresUserModeRegisters : Prop :=
  (∀ (s : State) (umm umc : Byte) (uim : Level), s.esr.h = true →
    (∀ operand, s.afterBoundary.fetch = .ok (.trap operand) →
      ({ s.afterBoundary with umm := umm, umc := umc, uim := uim } : State).trapNumber operand =
        s.afterBoundary.trapNumber operand) →
    match step s with
    | .next t =>
      step { s with umm := umm, umc := umc, uim := uim } = .next { t with umm := umm, umc := umc, uim := uim }
    | .fault r => step { s with umm := umm, umc := umc, uim := uim } = .fault r
    | .refused r => step { s with umm := umm, umc := umc, uim := uim } = .refused r) ∧
    ∀ (s : State) (umm umc : Byte) (uim : Level) (operand : TrapOperand), (∀ raw, operand ≠ .free raw) →
      operand ≠ .reg .umm → operand ≠ .reg .umc → operand ≠ .reg .uim →
      ({ s with umm := umm, umc := umc, uim := uim } : State).trapNumber operand = s.trapNumber operand

/-! ## The abort of a miss, and the record of stores -/

/-- Where CONTAINER_NO_HIT or CONTAINER_MULTI_HIT gives an abort, a fetch that misses takes it, from the state after the
boundary, with the return address ABORT_RA says; the length of the instruction that could not be fetched is a free value
(the model's values of the parameters, log 19). -/
def Obligations.StepTakesTheAbortOfAMiss : Prop :=
  ∀ (s : State) (got : List Byte) (why : TranslationMiss) (n ra : Word),
    s.boundaryInterrupt = none → s.part.encoding.wf s.part.width = true → s.mem.wf = true →
    s.afterBoundary.bytesAtPc got →
    (∀ m, 0 < m → m ≤ got.length → decode s.part.encoding (got.take m) = .incomplete) →
    s.afterBoundary.physicalAddr (s.pcAfter got.length) = .error why →
    (why = .noHit → s.part.containerNoHit = .abort n) → (why = .multiHit → s.part.containerMultiHit = .abort n) →
    (s.part.abortRa = .pc → ra = s.pc) →
    (s.part.abortRa = .next → ra = s.pcAfter (Config.freeUnfetchedLength got)) →
    s.afterBoundary.entryReady (.abort n) ra = true →
      ∃ t, step s = .next t ∧ EntryEffect s.afterBoundary (.abort n) ra t ∧ t.eim = s.eim

/-- Every place whose byte a step changes is in the record of stores after it, and no step takes a place out (20 R101, log
18): on a part that does not give IFETCH_COHERENT, what the machine has stored is from then on not executed. -/
def Obligations.StoresAreRecorded : Prop :=
  ∀ (s t : State), s.mem.wf = true → step s = .next t →
    (∀ p, p ∈ s.written → p ∈ t.written) ∧ ∀ p, t.mem.read p ≠ s.mem.read p → p ∈ t.written
end

