-- ==== Sys2Proof/Laws/Word.lean ====
section
/-! SUPPORT. Truncation to `W` bits and sums modulo `2^W`. -/

namespace Sys2Proof

theorem trunc_toNat (w : Width) (v : Word) : (trunc w v).toNat = v.toNat % 2 ^ w.bits := by
  cases w
  · exact (BitVec.toNat_and ..).trans (Nat.and_two_pow_sub_one_eq_mod v.toNat 16)
  · exact (BitVec.toNat_and ..).trans (Nat.and_two_pow_sub_one_eq_mod v.toNat 32)
  · exact (BitVec.toNat_and ..).trans (Nat.and_two_pow_sub_one_eq_mod v.toNat 64)

@[simp] theorem trunc_trunc (w : Width) (v : Word) : trunc w (trunc w v) = trunc w v := by
  simp [trunc, BitVec.and_assoc]

theorem fitsW_iff (w : Width) (v : Word) : fitsW w v = true ↔ trunc w v = v := by simp [fitsW]

@[simp] theorem fitsW_trunc (w : Width) (v : Word) : fitsW w (trunc w v) = true := by simp [fitsW]

@[simp] theorem fitsW_addW (w : Width) (u v : Word) : fitsW w (addW w u v) = true := by simp [addW]

@[simp] theorem fitsW_subW (w : Width) (u v : Word) : fitsW w (subW w u v) = true := by simp [subW]

theorem Width.bits_le (w : Width) : w.bits ≤ 64 := by cases w <;> decide

theorem Width.bits_eq (w : Width) : w.bits = 8 * w.bytes := by cases w <;> rfl

theorem Width.two_pow_dvd (w : Width) : 2 ^ w.bits ∣ 2 ^ 64 := Nat.pow_dvd_pow 2 w.bits_le

theorem trunc_lt (w : Width) (v : Word) : (trunc w v).toNat < 2 ^ w.bits := by
  rw [trunc_toNat]; exact Nat.mod_lt _ (Nat.two_pow_pos _)

theorem fitsW_lt {w : Width} {v : Word} (h : fitsW w v = true) : v.toNat < 2 ^ w.bits := by
  rw [← (fitsW_iff w v).1 h]; exact trunc_lt w v

theorem fitsW_of_lt {w : Width} {v : Word} (h : v.toNat < 2 ^ w.bits) : fitsW w v = true := by
  rw [fitsW_iff]; apply BitVec.eq_of_toNat_eq; rw [trunc_toNat, Nat.mod_eq_of_lt h]

theorem addW_toNat (w : Width) (u v : Word) : (addW w u v).toNat = (u.toNat + v.toNat) % 2 ^ w.bits := by
  rw [addW, trunc_toNat, BitVec.toNat_add, Nat.mod_mod_of_dvd _ w.two_pow_dvd]

theorem trunc_congr {w : Width} {u v : Word} (h : u.toNat % 2 ^ w.bits = v.toNat % 2 ^ w.bits) : trunc w u = trunc w v := by
  apply BitVec.eq_of_toNat_eq; rw [trunc_toNat, trunc_toNat, h]

@[simp] theorem trunc_addW (w : Width) (u v : Word) : trunc w (addW w u v) = addW w u v := by simp [addW]

@[simp] theorem trunc_subW (w : Width) (u v : Word) : trunc w (subW w u v) = subW w u v := by simp [subW]

theorem getLsbD_mask (w : Width) (i : Nat) : w.mask.getLsbD i = decide (i < w.bits) := by
  by_cases h : i < 64
  · cases w <;> revert i <;> decide
  · have := w.bits_le
    rw [BitVec.getLsbD_of_ge _ _ (by omega)]; simp; omega

theorem getLsbD_trunc (w : Width) (v : Word) (i : Nat) : (trunc w v).getLsbD i = (decide (i < w.bits) && v.getLsbD i) := by
  rw [trunc, BitVec.getLsbD_and, getLsbD_mask, Bool.and_comm]

theorem trunc_add_trunc (w : Width) (u v : Word) : trunc w (trunc w u + v) = trunc w (u + v) := by
  apply trunc_congr
  rw [BitVec.toNat_add, BitVec.toNat_add, trunc_toNat, Nat.mod_mod_of_dvd _ w.two_pow_dvd,
    Nat.mod_mod_of_dvd _ w.two_pow_dvd, Nat.mod_add_mod]

theorem addW_addW (w : Width) (u v x : Word) : addW w (addW w u v) x = addW w u (v + x) := by
  simp only [addW, trunc_add_trunc, BitVec.add_assoc]

theorem subW_subW (w : Width) (u v x : Word) : subW w (subW w u v) x = subW w u (v + x) := by
  simp only [subW, BitVec.sub_eq_add_neg, trunc_add_trunc, BitVec.add_assoc, BitVec.neg_add]

theorem addW_subW (w : Width) (u v x : Word) : addW w (subW w u v) x = trunc w (u - v + x) := by
  simp only [subW, addW, BitVec.sub_eq_add_neg, trunc_add_trunc]

end Sys2Proof
end

