-- ==== Sys2Proof/Laws/Bytes.lean ====
section
/-! SUPPORT. Values and their bytes. -/

namespace Sys2Proof

@[simp] theorem leBytes_length (n : Nat) (v : Word) : (leBytes n v).length = n := by
  induction n generalizing v with
  | zero => rfl
  | succ n ih => simp [leBytes, ih]

@[simp] theorem toBytes_length (n : Nat) (v : Word) : (toBytes n v).length = n := leBytes_length n v

theorem leBytes_get (n : Nat) (v : Word) (j : Nat) (hj : j < n) :
    (leBytes n v)[j]? = some ((v >>> (8 * j)).setWidth 8) := by
  induction n generalizing v j with
  | zero => omega
  | succ n ih =>
    cases j with
    | zero => simp [leBytes]
    | succ j =>
      rw [leBytes, List.getElem?_cons_succ, ih _ j (by omega), ← BitVec.shiftRight_add]
      congr 3; omega

/-- Bit `b` of a value is bit `b % 8` of its byte number `b / 8`. -/
theorem leValue_bit (bs : List Byte) (b : Nat) :
    (leValue bs).getLsbD b = (decide (b < 64) && (bs[b / 8]?.getD 0).getLsbD (b % 8)) := by
  induction bs generalizing b with
  | nil => simp [leValue]
  | cons v bs ih =>
    simp only [leValue, BitVec.getLsbD_or, BitVec.getLsbD_setWidth, BitVec.getLsbD_shiftLeft, ih]
    by_cases h8 : b < 8
    · have h0 : b / 8 = 0 := by omega
      have h1 : b % 8 = b := by omega
      simp [h0, h1, h8]
    · have h0 : b / 8 = (b - 8) / 8 + 1 := by omega
      have h1 : b % 8 = (b - 8) % 8 := by omega
      have h2 : v.getLsbD b = false := BitVec.getLsbD_of_ge v b (by omega)
      rw [h0, h1, List.getElem?_cons_succ, h2]
      by_cases h64 : b < 64
      · have : b - 8 < 64 := by omega
        simp [h8, h64, this]
      · simp [h64]

theorem leValue_byte (bs : List Byte) (j : Nat) (hj : j < 8) :
    (leValue bs >>> (8 * j)).setWidth 8 = bs[j]?.getD 0 := by
  apply BitVec.eq_of_getLsbD_eq
  intro b hb
  rw [BitVec.getLsbD_setWidth, BitVec.getLsbD_ushiftRight, leValue_bit, show (8 * j + b) / 8 = j by omega,
    show (8 * j + b) % 8 = b by omega]
  simp [hb]; omega

theorem leValue_lt (bs : List Byte) : (leValue bs).toNat < 2 ^ (8 * bs.length) := by
  induction bs with
  | nil => simp [leValue]
  | cons v bs ih =>
    rw [leValue, BitVec.toNat_or, BitVec.toNat_setWidth, BitVec.toNat_shiftLeft, List.length_cons]
    apply Nat.or_lt_two_pow
    · have := v.isLt
      have h256 : 2 ^ 8 ≤ 2 ^ (8 * (bs.length + 1)) := Nat.pow_le_pow_right (by decide) (by omega)
      exact Nat.lt_of_le_of_lt (Nat.mod_le ..) (by omega)
    · refine Nat.lt_of_le_of_lt (Nat.mod_le ..) ?_
      rw [Nat.shiftLeft_eq, show 8 * (bs.length + 1) = 8 * bs.length + 8 by ring, Nat.pow_add]
      exact Nat.mul_lt_mul_of_pos_right ih (by decide)

/-- The bytes of a value put together again are the value, if it has no more bytes. -/
theorem leValue_leBytes (n : Nat) (v : Word) (h : v.toNat < 2 ^ (8 * n)) : leValue (leBytes n v) = v := by
  apply BitVec.eq_of_getLsbD_eq
  intro b hb
  rw [leValue_bit]
  by_cases hn : b / 8 < n
  · rw [leBytes_get n v _ hn]
    simp only [Option.getD_some, BitVec.getLsbD_setWidth, BitVec.getLsbD_ushiftRight]
    rw [show 8 * (b / 8) + b % 8 = b by omega]
    have : b % 8 < 8 := by omega
    simp [hb, this]
  · rw [List.getElem?_eq_none (by simpa using hn)]
    have : v.getLsbD b = false := by
      rw [← BitVec.testBit_toNat]
      apply Nat.testBit_lt_two_pow
      exact Nat.lt_of_lt_of_le h (Nat.pow_le_pow_right (by decide) (by omega))
    simp [this]

theorem leBytes_leValue (bs : List Byte) (h : bs.length ≤ 8) : leBytes bs.length (leValue bs) = bs := by
  apply List.ext_getElem?
  intro j
  by_cases hj : j < bs.length
  · rw [leBytes_get _ _ j hj, leValue_byte bs j (by omega), List.getElem?_eq_getElem hj]; rfl
  · rw [List.getElem?_eq_none (by simpa using hj), List.getElem?_eq_none (by omega)]

theorem fromBytes_toBytes (n : Nat) (v : Word) (h : v.toNat < 2 ^ (8 * n)) : fromBytes (toBytes n v) = v :=
  leValue_leBytes n v h

theorem toBytes_fromBytes (bs : List Byte) (h : bs.length ≤ 8) : toBytes bs.length (fromBytes bs) = bs :=
  leBytes_leValue bs h

theorem fromBytes_lt (bs : List Byte) : (fromBytes bs).toNat < 2 ^ (8 * bs.length) := leValue_lt bs

end Sys2Proof
end

