-- ==== Sys2Proof/Laws/Decode.lean ====
section
/-! SUPPORT. The decoder seen as a list of candidates, each an opcode byte string and a scan of what follows it. -/

namespace Sys2Proof

@[simp] theorem Scan.orElse_notInSpec (s : Scan) : s.orElse .notInSpec = s := by cases s <;> rfl

@[simp] theorem Scan.notInSpec_orElse (s : Scan) : Scan.notInSpec.orElse s = s := rfl

theorem Scan.orElse_assoc (s t u : Scan) : (s.orElse t).orElse u = s.orElse (t.orElse u) := by
  cases s <;> cases t <;> cases u <;> rfl

/-- A match of a whole byte string: what follows it is scanned. -/
theorem scanOpcode_append (o : List Byte) (k : List Byte → Scan) (r : List Byte) : scanOpcode o k (o ++ r) = k r := by
  induction o with
  | nil => rfl
  | cons b o ih => simp [scanOpcode, ih]

/-- Bytes that begin with a byte string apart from the opcode do not match it. -/
theorem scanOpcode_apart {o c : List Byte} (h : apart o c = true) (k : List Byte → Scan) (r : List Byte) :
    scanOpcode o k (c ++ r) = .notInSpec := by
  induction o generalizing c with
  | nil => simp [apart] at h
  | cons b o ih =>
    cases c with
    | nil => simp [apart] at h
    | cons d c =>
      simp only [List.cons_append, scanOpcode]
      by_cases hbd : b = d
      · subst hbd
        rw [if_pos rfl]
        exact ih (by simpa [apart] using h)
      · rw [if_neg hbd]

/-- A proper initial segment of a byte string is incomplete. -/
theorem scanOpcode_take (o : List Byte) (k : List Byte → Scan) {n : Nat} (h : n < o.length) :
    scanOpcode o k (o.take n) = .incomplete := by
  induction o generalizing n with
  | nil => simp at h
  | cons b o ih =>
    cases n with
    | zero => rfl
    | succ n => simp only [List.take_succ_cons, scanOpcode, if_true]; exact ih (by simpa using h)

/-- A match that finds an instruction begins with the byte string. -/
theorem scanOpcode_found {o bytes : List Byte} {k : List Byte → Scan} {i : Instr} {rest : List Byte}
    (h : scanOpcode o k bytes = .found i rest) : ∃ r, bytes = o ++ r ∧ k r = .found i rest := by
  induction o generalizing bytes with
  | nil => exact ⟨bytes, rfl, h⟩
  | cons b o ih =>
    cases bytes with
    | nil => simp [scanOpcode] at h
    | cons d bytes =>
      simp only [scanOpcode] at h
      by_cases hbd : b = d
      · subst hbd
        rw [if_pos rfl] at h
        obtain ⟨r, rfl, hr⟩ := ih h
        exact ⟨r, rfl, hr⟩
      · rw [if_neg hbd] at h; cases h

theorem apart_symm {o c : List Byte} (h : apart o c = true) : apart c o = true := by
  simp only [apart, Bool.and_eq_true] at *; exact ⟨h.2, h.1⟩

/-- A byte string apart from another does not match any of its initial segments. -/
theorem scanOpcode_take_apart {o c : List Byte} (h : apart o c = true) (k : List Byte → Scan) (n : Nat) :
    scanOpcode o k (c.take n) = .incomplete ∨ scanOpcode o k (c.take n) = .notInSpec := by
  cases hs : scanOpcode o k (c.take n) with
  | incomplete => exact .inl rfl
  | notInSpec => exact .inr rfl
  | found i rest =>
    obtain ⟨r, hr, _⟩ := scanOpcode_found hs
    have : o.isPrefixOf c = true := by
      rw [List.isPrefixOf_iff_prefix]
      exact (List.prefix_append o r).trans (hr ▸ List.take_prefix n c)
    simp [apart, this] at h

/-! ## Lists of candidates -/

/-- A candidate: an opcode byte string and the scan of what follows it. -/
abbrev Candidate := List Byte × (List Byte → Scan)

/-- The first candidate that matches. -/
def scanAll : List Candidate → List Byte → Scan
  | [], _ => .notInSpec
  | c :: cs, bytes => (scanOpcode c.1 c.2 bytes).orElse (scanAll cs bytes)

theorem scanAll_append (cs ds : List Candidate) (bytes : List Byte) :
    scanAll (cs ++ ds) bytes = (scanAll cs bytes).orElse (scanAll ds bytes) := by
  induction cs with
  | nil => rfl
  | cons c cs ih => simp [scanAll, ih, Scan.orElse_assoc]

theorem scanAll_apart {cs : List Candidate} {c r : List Byte} (h : (cs.map Prod.fst).all (apart c) = true) :
    scanAll cs (c ++ r) = .notInSpec := by
  induction cs with
  | nil => rfl
  | cons d cs ih =>
    simp only [List.map_cons, List.all_cons, Bool.and_eq_true] at h
    rw [scanAll, scanOpcode_apart (apart_symm h.1), ih h.2]; rfl

/-- Among candidates none of which begins another, the one whose byte string is there decides. -/
theorem scanAll_mem {cs : List Candidate} (hf : prefixFree (cs.map Prod.fst) = true) {c : Candidate} (hc : c ∈ cs)
    (r : List Byte) : scanAll cs (c.1 ++ r) = c.2 r := by
  induction cs with
  | nil => cases hc
  | cons d cs ih =>
    simp only [List.map_cons, prefixFree, Bool.and_eq_true] at hf
    rw [scanAll]
    rcases List.mem_cons.1 hc with rfl | hc
    · rw [scanOpcode_append, scanAll_apart hf.1, Scan.orElse_notInSpec]
    · have : apart d.1 c.1 = true := List.all_eq_true.1 hf.1 c.1 (List.mem_map_of_mem hc)
      rw [scanOpcode_apart this, ih hf.2 hc]; rfl

theorem scanAll_take_apart {cs : List Candidate} {c : List Byte} (h : (cs.map Prod.fst).all (apart c) = true) (n : Nat) :
    scanAll cs (c.take n) = .incomplete ∨ scanAll cs (c.take n) = .notInSpec := by
  induction cs with
  | nil => exact .inr rfl
  | cons d cs ih =>
    simp only [List.map_cons, List.all_cons, Bool.and_eq_true] at h
    rw [scanAll]
    rcases scanOpcode_take_apart (apart_symm h.1) d.2 n with h1 | h1 <;> rcases ih h.2 with h2 | h2 <;>
      rw [h1, h2] <;> simp [Scan.orElse]

/-- A proper initial segment of a candidate's byte string is incomplete. -/
theorem scanAll_take {cs : List Candidate} (hf : prefixFree (cs.map Prod.fst) = true) {c : Candidate} (hc : c ∈ cs)
    {n : Nat} (hn : n < c.1.length) : scanAll cs (c.1.take n) = .incomplete := by
  induction cs with
  | nil => cases hc
  | cons d cs ih =>
    simp only [List.map_cons, prefixFree, Bool.and_eq_true] at hf
    rw [scanAll]
    rcases List.mem_cons.1 hc with rfl | hc
    · rw [scanOpcode_take _ _ hn]
      rcases scanAll_take_apart hf.1 n with h | h <;> rw [h] <;> rfl
    · have : apart d.1 c.1 = true := List.all_eq_true.1 hf.1 c.1 (List.mem_map_of_mem hc)
      rcases scanOpcode_take_apart this d.2 n with h | h <;> rw [h, ih hf.2 hc] <;> rfl

/-- What is found comes from a candidate. -/
theorem scanAll_found {cs : List Candidate} {bytes : List Byte} {i : Instr} {rest : List Byte}
    (h : scanAll cs bytes = .found i rest) : ∃ c ∈ cs, ∃ r, bytes = c.1 ++ r ∧ c.2 r = .found i rest := by
  induction cs with
  | nil => cases h
  | cons d cs ih =>
    rw [scanAll] at h
    have later : scanAll cs bytes = .found i rest → ∃ c ∈ d :: cs, ∃ r, bytes = c.1 ++ r ∧ c.2 r = .found i rest := by
      intro h
      obtain ⟨c, hc, hr⟩ := ih h
      exact ⟨c, List.mem_cons_of_mem _ hc, hr⟩
    cases hs : scanOpcode d.1 d.2 bytes with
    | found j rest' =>
      rw [hs] at h
      cases h
      obtain ⟨r, h1, h2⟩ := scanOpcode_found hs
      exact ⟨d, List.mem_cons_self, r, h1, h2⟩
    | incomplete =>
      rw [hs] at h
      apply later
      revert h
      cases scanAll cs bytes <;> simp [Scan.orElse]
    | notInSpec => rw [hs] at h; exact later h

/-! ## The decoder's candidates -/

/-- The candidates of a TRAP encoding. -/
def TrapEncoding.candidates : TrapEncoding → List Candidate
  | .immediate opcode n => [(opcode, scanOperand n fun operand => .trap (.imm (fromBytes operand)))]
  | .register opcode r => [(opcode, .found (.trap (.reg r)))]
  | .inOpcode rows => rows.map fun row => (row.1, .found (.trap (.imm row.2)))
  | .free opcode n => [(opcode, scanOperand n fun operand => .trap (.free operand))]

/-- The candidates of the six encodings. -/
def Encoding.candidates (e : Encoding) : List Candidate :=
  [(e.brk, .found .brk)] ++ e.trap.candidates ++
    [(e.rti, .found .rti), (e.rtu, .found .rtu), (e.cleim, .found .cleim), (e.sei, .found .sei)]

theorem scanTrapRows_eq (rows : List (List Byte × Word)) (bytes : List Byte) :
    scanTrapRows rows bytes = scanAll (rows.map fun row => (row.1, .found (.trap (.imm row.2)))) bytes := by
  induction rows with
  | nil => rfl
  | cons row rows ih => simp [scanTrapRows, scanAll, ih, scanFixed]

theorem scanTrap_eq (t : TrapEncoding) (bytes : List Byte) : scanTrap t bytes = scanAll t.candidates bytes := by
  cases t with
  | immediate opcode n => simp [scanTrap, TrapEncoding.candidates, scanAll]
  | register opcode r => simp [scanTrap, TrapEncoding.candidates, scanAll, scanFixed]
  | inOpcode rows => exact scanTrapRows_eq rows bytes
  | free opcode n => simp [scanTrap, TrapEncoding.candidates, scanAll]

/-- The decoder is the first of its candidates that matches. -/
theorem decode_eq (e : Encoding) (bytes : List Byte) : decode e bytes = scanAll e.candidates bytes := by
  rw [Encoding.candidates, scanAll_append, scanAll_append, ← scanTrap_eq]
  simp [decode, scanAll, scanFixed, Scan.orElse_assoc]

theorem TrapEncoding.candidates_opcodes (t : TrapEncoding) : t.candidates.map Prod.fst = t.opcodes := by
  cases t <;> simp [TrapEncoding.candidates, TrapEncoding.opcodes]

theorem Encoding.candidates_opcodes (e : Encoding) : e.candidates.map Prod.fst = e.opcodes := by
  simp [Encoding.candidates, Encoding.opcodes, TrapEncoding.candidates_opcodes]

theorem Encoding.wf_prefixFree {w : Width} {e : Encoding} (h : e.wf w = true) :
    prefixFree (e.candidates.map Prod.fst) = true := by
  simp only [Encoding.wf, Bool.and_eq_true] at h
  rw [Encoding.candidates_opcodes]; exact h.1.2

/-- The opcode that gives a number is one of the rows, with that number. -/
theorem trapRowOpcode_mem {rows : List (List Byte × Word)} {n : Word} (h : n ∈ rows.map Prod.snd) :
    (trapRowOpcode rows n, n) ∈ rows := by
  induction rows with
  | nil => cases h
  | cons row rows ih =>
    obtain ⟨o, m⟩ := row
    unfold trapRowOpcode
    by_cases hm : m = n
    · subst hm; simp
    · rw [if_neg hm]
      refine List.mem_cons_of_mem _ (ih ?_)
      simpa [Ne.symm hm, eq_comm] using h

theorem trapRowOpcode_eq {rows : List (List Byte × Word)} {o : List Byte} {n : Word} (h : (o, n) ∈ rows)
    (hn : (rows.map Prod.snd).Nodup) : trapRowOpcode rows n = o := by
  induction rows with
  | nil => cases h
  | cons row rows ih =>
    obtain ⟨p, m⟩ := row
    unfold trapRowOpcode
    simp only [List.map_cons, List.nodup_cons] at hn
    rcases List.mem_cons.1 h with h1 | h1
    · cases h1; simp
    · have hm : m ≠ n := by
        intro hmn; subst hmn; exact hn.1 (List.mem_map_of_mem h1)
      rw [if_neg hm, ih h1 hn.2]

/-- The operand bytes of a TRAP after its opcode. -/
theorem scanOperand_append {n : Nat} {f : List Byte → Instr} {operand r : List Byte} (h : operand.length = n) :
    scanOperand n f (operand ++ r) = .found (f operand) r := by
  subst h; simp [scanOperand]

theorem scanOperand_short {n : Nat} {f : List Byte → Instr} {operand : List Byte} (h : operand.length < n) :
    scanOperand n f operand = .incomplete := if_pos h

theorem scanOperand_found {n : Nat} {f : List Byte → Instr} {bytes rest : List Byte} {i : Instr}
    (h : scanOperand n f bytes = .found i rest) :
    n ≤ bytes.length ∧ i = f (bytes.take n) ∧ rest = bytes.drop n := by
  unfold scanOperand at h
  split at h
  · cases h
  · cases h; exact ⟨by omega, rfl, rfl⟩

end Sys2Proof
end

