-- ==== Sys2Proof/Laws/State.lean ====
section
/-! SUPPORT. One lemma for each field of State under each update of it: what the update puts there, or that it leaves
the field alone. -/

namespace Sys2Proof.Machine

/-! ### PC -/

@[simp] theorem State.setPc_pc (s : State) (v : Word) : (s.setPc v).pc = v := rfl
@[simp] theorem State.setPc_a (s : State) (v : Word) : (s.setPc v).a = s.a := rfl
@[simp] theorem State.setPc_x (s : State) (v : Word) : (s.setPc v).x = s.x := rfl
@[simp] theorem State.setPc_y (s : State) (v : Word) : (s.setPc v).y = s.y := rfl
@[simp] theorem State.setPc_e (s : State) (v : Word) : (s.setPc v).e = s.e := rfl
@[simp] theorem State.setPc_b (s : State) (v : Word) : (s.setPc v).b = s.b := rfl
@[simp] theorem State.setPc_su (s : State) (v : Word) : (s.setPc v).su = s.su := rfl
@[simp] theorem State.setPc_sh (s : State) (v : Word) : (s.setPc v).sh = s.sh := rfl
@[simp] theorem State.setPc_sr (s : State) (v : Word) : (s.setPc v).sr = s.sr := rfl
@[simp] theorem State.setPc_esr (s : State) (v : Word) : (s.setPc v).esr = s.esr := rfl
@[simp] theorem State.setPc_imr (s : State) (v : Word) : (s.setPc v).imr = s.imr := rfl
@[simp] theorem State.setPc_eim (s : State) (v : Word) : (s.setPc v).eim = s.eim := rfl
@[simp] theorem State.setPc_iv (s : State) (v : Word) : (s.setPc v).iv = s.iv := rfl
@[simp] theorem State.setPc_tv (s : State) (v : Word) : (s.setPc v).tv = s.tv := rfl
@[simp] theorem State.setPc_av (s : State) (v : Word) : (s.setPc v).av = s.av := rfl
@[simp] theorem State.setPc_tmv (s : State) (v : Word) : (s.setPc v).tmv = s.tmv := rfl
@[simp] theorem State.setPc_umm (s : State) (v : Word) : (s.setPc v).umm = s.umm := rfl
@[simp] theorem State.setPc_hmm (s : State) (v : Word) : (s.setPc v).hmm = s.hmm := rfl
@[simp] theorem State.setPc_umc (s : State) (v : Word) : (s.setPc v).umc = s.umc := rfl
@[simp] theorem State.setPc_uim (s : State) (v : Word) : (s.setPc v).uim = s.uim := rfl
@[simp] theorem State.setPc_containers (s : State) (v : Word) : (s.setPc v).containers = s.containers := rfl
@[simp] theorem State.setPc_lines (s : State) (v : Word) : (s.setPc v).lines = s.lines := rfl
@[simp] theorem State.setPc_nmi (s : State) (v : Word) : (s.setPc v).nmi = s.nmi := rfl
@[simp] theorem State.setPc_mem (s : State) (v : Word) : (s.setPc v).mem = s.mem := rfl
@[simp] theorem State.setPc_written (s : State) (v : Word) : (s.setPc v).written = s.written := rfl
@[simp] theorem State.setPc_inputs (s : State) (v : Word) : (s.setPc v).inputs = s.inputs := rfl
@[simp] theorem State.setPc_draws (s : State) (v : Word) : (s.setPc v).draws = s.draws := rfl
@[simp] theorem State.setPc_part (s : State) (v : Word) : (s.setPc v).part = s.part := rfl

/-! ### SR -/

@[simp] theorem State.setSr_pc (s : State) (v : StatusReg) : (s.setSr v).pc = s.pc := rfl
@[simp] theorem State.setSr_a (s : State) (v : StatusReg) : (s.setSr v).a = s.a := rfl
@[simp] theorem State.setSr_x (s : State) (v : StatusReg) : (s.setSr v).x = s.x := rfl
@[simp] theorem State.setSr_y (s : State) (v : StatusReg) : (s.setSr v).y = s.y := rfl
@[simp] theorem State.setSr_e (s : State) (v : StatusReg) : (s.setSr v).e = s.e := rfl
@[simp] theorem State.setSr_b (s : State) (v : StatusReg) : (s.setSr v).b = s.b := rfl
@[simp] theorem State.setSr_su (s : State) (v : StatusReg) : (s.setSr v).su = s.su := rfl
@[simp] theorem State.setSr_sh (s : State) (v : StatusReg) : (s.setSr v).sh = s.sh := rfl
@[simp] theorem State.setSr_sr (s : State) (v : StatusReg) : (s.setSr v).sr = v := rfl
@[simp] theorem State.setSr_esr (s : State) (v : StatusReg) : (s.setSr v).esr = s.esr := rfl
@[simp] theorem State.setSr_imr (s : State) (v : StatusReg) : (s.setSr v).imr = s.imr := rfl
@[simp] theorem State.setSr_eim (s : State) (v : StatusReg) : (s.setSr v).eim = s.eim := rfl
@[simp] theorem State.setSr_iv (s : State) (v : StatusReg) : (s.setSr v).iv = s.iv := rfl
@[simp] theorem State.setSr_tv (s : State) (v : StatusReg) : (s.setSr v).tv = s.tv := rfl
@[simp] theorem State.setSr_av (s : State) (v : StatusReg) : (s.setSr v).av = s.av := rfl
@[simp] theorem State.setSr_tmv (s : State) (v : StatusReg) : (s.setSr v).tmv = s.tmv := rfl
@[simp] theorem State.setSr_umm (s : State) (v : StatusReg) : (s.setSr v).umm = s.umm := rfl
@[simp] theorem State.setSr_hmm (s : State) (v : StatusReg) : (s.setSr v).hmm = s.hmm := rfl
@[simp] theorem State.setSr_umc (s : State) (v : StatusReg) : (s.setSr v).umc = s.umc := rfl
@[simp] theorem State.setSr_uim (s : State) (v : StatusReg) : (s.setSr v).uim = s.uim := rfl
@[simp] theorem State.setSr_containers (s : State) (v : StatusReg) : (s.setSr v).containers = s.containers := rfl
@[simp] theorem State.setSr_lines (s : State) (v : StatusReg) : (s.setSr v).lines = s.lines := rfl
@[simp] theorem State.setSr_nmi (s : State) (v : StatusReg) : (s.setSr v).nmi = s.nmi := rfl
@[simp] theorem State.setSr_mem (s : State) (v : StatusReg) : (s.setSr v).mem = s.mem := rfl
@[simp] theorem State.setSr_written (s : State) (v : StatusReg) : (s.setSr v).written = s.written := rfl
@[simp] theorem State.setSr_inputs (s : State) (v : StatusReg) : (s.setSr v).inputs = s.inputs := rfl
@[simp] theorem State.setSr_draws (s : State) (v : StatusReg) : (s.setSr v).draws = s.draws := rfl
@[simp] theorem State.setSr_part (s : State) (v : StatusReg) : (s.setSr v).part = s.part := rfl

/-! ### ESR -/

@[simp] theorem State.setEsr_pc (s : State) (v : ExtStatusReg) : (s.setEsr v).pc = s.pc := rfl
@[simp] theorem State.setEsr_a (s : State) (v : ExtStatusReg) : (s.setEsr v).a = s.a := rfl
@[simp] theorem State.setEsr_x (s : State) (v : ExtStatusReg) : (s.setEsr v).x = s.x := rfl
@[simp] theorem State.setEsr_y (s : State) (v : ExtStatusReg) : (s.setEsr v).y = s.y := rfl
@[simp] theorem State.setEsr_e (s : State) (v : ExtStatusReg) : (s.setEsr v).e = s.e := rfl
@[simp] theorem State.setEsr_b (s : State) (v : ExtStatusReg) : (s.setEsr v).b = s.b := rfl
@[simp] theorem State.setEsr_su (s : State) (v : ExtStatusReg) : (s.setEsr v).su = s.su := rfl
@[simp] theorem State.setEsr_sh (s : State) (v : ExtStatusReg) : (s.setEsr v).sh = s.sh := rfl
@[simp] theorem State.setEsr_sr (s : State) (v : ExtStatusReg) : (s.setEsr v).sr = s.sr := rfl
@[simp] theorem State.setEsr_esr (s : State) (v : ExtStatusReg) : (s.setEsr v).esr = v := rfl
@[simp] theorem State.setEsr_imr (s : State) (v : ExtStatusReg) : (s.setEsr v).imr = s.imr := rfl
@[simp] theorem State.setEsr_eim (s : State) (v : ExtStatusReg) : (s.setEsr v).eim = s.eim := rfl
@[simp] theorem State.setEsr_iv (s : State) (v : ExtStatusReg) : (s.setEsr v).iv = s.iv := rfl
@[simp] theorem State.setEsr_tv (s : State) (v : ExtStatusReg) : (s.setEsr v).tv = s.tv := rfl
@[simp] theorem State.setEsr_av (s : State) (v : ExtStatusReg) : (s.setEsr v).av = s.av := rfl
@[simp] theorem State.setEsr_tmv (s : State) (v : ExtStatusReg) : (s.setEsr v).tmv = s.tmv := rfl
@[simp] theorem State.setEsr_umm (s : State) (v : ExtStatusReg) : (s.setEsr v).umm = s.umm := rfl
@[simp] theorem State.setEsr_hmm (s : State) (v : ExtStatusReg) : (s.setEsr v).hmm = s.hmm := rfl
@[simp] theorem State.setEsr_umc (s : State) (v : ExtStatusReg) : (s.setEsr v).umc = s.umc := rfl
@[simp] theorem State.setEsr_uim (s : State) (v : ExtStatusReg) : (s.setEsr v).uim = s.uim := rfl
@[simp] theorem State.setEsr_containers (s : State) (v : ExtStatusReg) : (s.setEsr v).containers = s.containers := rfl
@[simp] theorem State.setEsr_lines (s : State) (v : ExtStatusReg) : (s.setEsr v).lines = s.lines := rfl
@[simp] theorem State.setEsr_nmi (s : State) (v : ExtStatusReg) : (s.setEsr v).nmi = s.nmi := rfl
@[simp] theorem State.setEsr_mem (s : State) (v : ExtStatusReg) : (s.setEsr v).mem = s.mem := rfl
@[simp] theorem State.setEsr_written (s : State) (v : ExtStatusReg) : (s.setEsr v).written = s.written := rfl
@[simp] theorem State.setEsr_inputs (s : State) (v : ExtStatusReg) : (s.setEsr v).inputs = s.inputs := rfl
@[simp] theorem State.setEsr_draws (s : State) (v : ExtStatusReg) : (s.setEsr v).draws = s.draws := rfl
@[simp] theorem State.setEsr_part (s : State) (v : ExtStatusReg) : (s.setEsr v).part = s.part := rfl

/-! ### EIM -/

@[simp] theorem State.setEim_pc (s : State) (v : Level) : (s.setEim v).pc = s.pc := rfl
@[simp] theorem State.setEim_a (s : State) (v : Level) : (s.setEim v).a = s.a := rfl
@[simp] theorem State.setEim_x (s : State) (v : Level) : (s.setEim v).x = s.x := rfl
@[simp] theorem State.setEim_y (s : State) (v : Level) : (s.setEim v).y = s.y := rfl
@[simp] theorem State.setEim_e (s : State) (v : Level) : (s.setEim v).e = s.e := rfl
@[simp] theorem State.setEim_b (s : State) (v : Level) : (s.setEim v).b = s.b := rfl
@[simp] theorem State.setEim_su (s : State) (v : Level) : (s.setEim v).su = s.su := rfl
@[simp] theorem State.setEim_sh (s : State) (v : Level) : (s.setEim v).sh = s.sh := rfl
@[simp] theorem State.setEim_sr (s : State) (v : Level) : (s.setEim v).sr = s.sr := rfl
@[simp] theorem State.setEim_esr (s : State) (v : Level) : (s.setEim v).esr = s.esr := rfl
@[simp] theorem State.setEim_imr (s : State) (v : Level) : (s.setEim v).imr = s.imr := rfl
@[simp] theorem State.setEim_eim (s : State) (v : Level) : (s.setEim v).eim = v := rfl
@[simp] theorem State.setEim_iv (s : State) (v : Level) : (s.setEim v).iv = s.iv := rfl
@[simp] theorem State.setEim_tv (s : State) (v : Level) : (s.setEim v).tv = s.tv := rfl
@[simp] theorem State.setEim_av (s : State) (v : Level) : (s.setEim v).av = s.av := rfl
@[simp] theorem State.setEim_tmv (s : State) (v : Level) : (s.setEim v).tmv = s.tmv := rfl
@[simp] theorem State.setEim_umm (s : State) (v : Level) : (s.setEim v).umm = s.umm := rfl
@[simp] theorem State.setEim_hmm (s : State) (v : Level) : (s.setEim v).hmm = s.hmm := rfl
@[simp] theorem State.setEim_umc (s : State) (v : Level) : (s.setEim v).umc = s.umc := rfl
@[simp] theorem State.setEim_uim (s : State) (v : Level) : (s.setEim v).uim = s.uim := rfl
@[simp] theorem State.setEim_containers (s : State) (v : Level) : (s.setEim v).containers = s.containers := rfl
@[simp] theorem State.setEim_lines (s : State) (v : Level) : (s.setEim v).lines = s.lines := rfl
@[simp] theorem State.setEim_nmi (s : State) (v : Level) : (s.setEim v).nmi = s.nmi := rfl
@[simp] theorem State.setEim_mem (s : State) (v : Level) : (s.setEim v).mem = s.mem := rfl
@[simp] theorem State.setEim_written (s : State) (v : Level) : (s.setEim v).written = s.written := rfl
@[simp] theorem State.setEim_inputs (s : State) (v : Level) : (s.setEim v).inputs = s.inputs := rfl
@[simp] theorem State.setEim_draws (s : State) (v : Level) : (s.setEim v).draws = s.draws := rfl
@[simp] theorem State.setEim_part (s : State) (v : Level) : (s.setEim v).part = s.part := rfl

/-! ### A byte of memory -/

@[simp] theorem State.storeByte_pc (s : State) (p : Nat) (v : Byte) : (s.storeByte p v).pc = s.pc := rfl
@[simp] theorem State.storeByte_a (s : State) (p : Nat) (v : Byte) : (s.storeByte p v).a = s.a := rfl
@[simp] theorem State.storeByte_x (s : State) (p : Nat) (v : Byte) : (s.storeByte p v).x = s.x := rfl
@[simp] theorem State.storeByte_y (s : State) (p : Nat) (v : Byte) : (s.storeByte p v).y = s.y := rfl
@[simp] theorem State.storeByte_e (s : State) (p : Nat) (v : Byte) : (s.storeByte p v).e = s.e := rfl
@[simp] theorem State.storeByte_b (s : State) (p : Nat) (v : Byte) : (s.storeByte p v).b = s.b := rfl
@[simp] theorem State.storeByte_su (s : State) (p : Nat) (v : Byte) : (s.storeByte p v).su = s.su := rfl
@[simp] theorem State.storeByte_sh (s : State) (p : Nat) (v : Byte) : (s.storeByte p v).sh = s.sh := rfl
@[simp] theorem State.storeByte_sr (s : State) (p : Nat) (v : Byte) : (s.storeByte p v).sr = s.sr := rfl
@[simp] theorem State.storeByte_esr (s : State) (p : Nat) (v : Byte) : (s.storeByte p v).esr = s.esr := rfl
@[simp] theorem State.storeByte_imr (s : State) (p : Nat) (v : Byte) : (s.storeByte p v).imr = s.imr := rfl
@[simp] theorem State.storeByte_eim (s : State) (p : Nat) (v : Byte) : (s.storeByte p v).eim = s.eim := rfl
@[simp] theorem State.storeByte_iv (s : State) (p : Nat) (v : Byte) : (s.storeByte p v).iv = s.iv := rfl
@[simp] theorem State.storeByte_tv (s : State) (p : Nat) (v : Byte) : (s.storeByte p v).tv = s.tv := rfl
@[simp] theorem State.storeByte_av (s : State) (p : Nat) (v : Byte) : (s.storeByte p v).av = s.av := rfl
@[simp] theorem State.storeByte_tmv (s : State) (p : Nat) (v : Byte) : (s.storeByte p v).tmv = s.tmv := rfl
@[simp] theorem State.storeByte_umm (s : State) (p : Nat) (v : Byte) : (s.storeByte p v).umm = s.umm := rfl
@[simp] theorem State.storeByte_hmm (s : State) (p : Nat) (v : Byte) : (s.storeByte p v).hmm = s.hmm := rfl
@[simp] theorem State.storeByte_umc (s : State) (p : Nat) (v : Byte) : (s.storeByte p v).umc = s.umc := rfl
@[simp] theorem State.storeByte_uim (s : State) (p : Nat) (v : Byte) : (s.storeByte p v).uim = s.uim := rfl
@[simp] theorem State.storeByte_containers (s : State) (p : Nat) (v : Byte) : (s.storeByte p v).containers = s.containers := rfl
@[simp] theorem State.storeByte_lines (s : State) (p : Nat) (v : Byte) : (s.storeByte p v).lines = s.lines := rfl
@[simp] theorem State.storeByte_nmi (s : State) (p : Nat) (v : Byte) : (s.storeByte p v).nmi = s.nmi := rfl
@[simp] theorem State.storeByte_mem (s : State) (p : Nat) (v : Byte) : (s.storeByte p v).mem = s.mem.write p v := rfl
@[simp] theorem State.storeByte_written (s : State) (p : Nat) (v : Byte) : (s.storeByte p v).written = markAddress p s.written := rfl
@[simp] theorem State.storeByte_inputs (s : State) (p : Nat) (v : Byte) : (s.storeByte p v).inputs = s.inputs := rfl
@[simp] theorem State.storeByte_draws (s : State) (p : Nat) (v : Byte) : (s.storeByte p v).draws = s.draws := rfl
@[simp] theorem State.storeByte_part (s : State) (p : Nat) (v : Byte) : (s.storeByte p v).part = s.part := rfl

/-! ### The draws -/

@[simp] theorem State.countDraw_pc (s : State) : (s.countDraw).pc = s.pc := rfl
@[simp] theorem State.countDraw_a (s : State) : (s.countDraw).a = s.a := rfl
@[simp] theorem State.countDraw_x (s : State) : (s.countDraw).x = s.x := rfl
@[simp] theorem State.countDraw_y (s : State) : (s.countDraw).y = s.y := rfl
@[simp] theorem State.countDraw_e (s : State) : (s.countDraw).e = s.e := rfl
@[simp] theorem State.countDraw_b (s : State) : (s.countDraw).b = s.b := rfl
@[simp] theorem State.countDraw_su (s : State) : (s.countDraw).su = s.su := rfl
@[simp] theorem State.countDraw_sh (s : State) : (s.countDraw).sh = s.sh := rfl
@[simp] theorem State.countDraw_sr (s : State) : (s.countDraw).sr = s.sr := rfl
@[simp] theorem State.countDraw_esr (s : State) : (s.countDraw).esr = s.esr := rfl
@[simp] theorem State.countDraw_imr (s : State) : (s.countDraw).imr = s.imr := rfl
@[simp] theorem State.countDraw_eim (s : State) : (s.countDraw).eim = s.eim := rfl
@[simp] theorem State.countDraw_iv (s : State) : (s.countDraw).iv = s.iv := rfl
@[simp] theorem State.countDraw_tv (s : State) : (s.countDraw).tv = s.tv := rfl
@[simp] theorem State.countDraw_av (s : State) : (s.countDraw).av = s.av := rfl
@[simp] theorem State.countDraw_tmv (s : State) : (s.countDraw).tmv = s.tmv := rfl
@[simp] theorem State.countDraw_umm (s : State) : (s.countDraw).umm = s.umm := rfl
@[simp] theorem State.countDraw_hmm (s : State) : (s.countDraw).hmm = s.hmm := rfl
@[simp] theorem State.countDraw_umc (s : State) : (s.countDraw).umc = s.umc := rfl
@[simp] theorem State.countDraw_uim (s : State) : (s.countDraw).uim = s.uim := rfl
@[simp] theorem State.countDraw_containers (s : State) : (s.countDraw).containers = s.containers := rfl
@[simp] theorem State.countDraw_lines (s : State) : (s.countDraw).lines = s.lines := rfl
@[simp] theorem State.countDraw_nmi (s : State) : (s.countDraw).nmi = s.nmi := rfl
@[simp] theorem State.countDraw_mem (s : State) : (s.countDraw).mem = s.mem := rfl
@[simp] theorem State.countDraw_written (s : State) : (s.countDraw).written = s.written := rfl
@[simp] theorem State.countDraw_inputs (s : State) : (s.countDraw).inputs = s.inputs := rfl
@[simp] theorem State.countDraw_draws (s : State) : (s.countDraw).draws = s.draws + 1 := rfl
@[simp] theorem State.countDraw_part (s : State) : (s.countDraw).part = s.part := rfl

/-! ### The mode of an entry -/

@[simp] theorem State.enterMode_pc (s : State) : (s.enterMode).pc = s.pc := rfl
@[simp] theorem State.enterMode_a (s : State) : (s.enterMode).a = s.a := rfl
@[simp] theorem State.enterMode_x (s : State) : (s.enterMode).x = s.x := rfl
@[simp] theorem State.enterMode_y (s : State) : (s.enterMode).y = s.y := rfl
@[simp] theorem State.enterMode_e (s : State) : (s.enterMode).e = s.e := rfl
@[simp] theorem State.enterMode_b (s : State) : (s.enterMode).b = s.b := rfl
@[simp] theorem State.enterMode_su (s : State) : (s.enterMode).su = s.su := rfl
@[simp] theorem State.enterMode_sh (s : State) : (s.enterMode).sh = s.sh := rfl
@[simp] theorem State.enterMode_sr (s : State) : (s.enterMode).sr = s.sr := rfl
@[simp] theorem State.enterMode_esr (s : State) : (s.enterMode).esr = ⟨true, s.esr.sf⟩ := rfl
@[simp] theorem State.enterMode_imr (s : State) : (s.enterMode).imr = s.imr := rfl
@[simp] theorem State.enterMode_eim (s : State) : (s.enterMode).eim = s.eim := rfl
@[simp] theorem State.enterMode_iv (s : State) : (s.enterMode).iv = s.iv := rfl
@[simp] theorem State.enterMode_tv (s : State) : (s.enterMode).tv = s.tv := rfl
@[simp] theorem State.enterMode_av (s : State) : (s.enterMode).av = s.av := rfl
@[simp] theorem State.enterMode_tmv (s : State) : (s.enterMode).tmv = s.tmv := rfl
@[simp] theorem State.enterMode_umm (s : State) : (s.enterMode).umm = s.umm := rfl
@[simp] theorem State.enterMode_hmm (s : State) : (s.enterMode).hmm = s.hmm := rfl
@[simp] theorem State.enterMode_umc (s : State) : (s.enterMode).umc = s.umc := rfl
@[simp] theorem State.enterMode_uim (s : State) : (s.enterMode).uim = s.uim := rfl
@[simp] theorem State.enterMode_containers (s : State) : (s.enterMode).containers = s.containers := rfl
@[simp] theorem State.enterMode_lines (s : State) : (s.enterMode).lines = s.lines := rfl
@[simp] theorem State.enterMode_nmi (s : State) : (s.enterMode).nmi = s.nmi := rfl
@[simp] theorem State.enterMode_mem (s : State) : (s.enterMode).mem = s.mem := rfl
@[simp] theorem State.enterMode_written (s : State) : (s.enterMode).written = s.written := rfl
@[simp] theorem State.enterMode_inputs (s : State) : (s.enterMode).inputs = s.inputs := rfl
@[simp] theorem State.enterMode_draws (s : State) : (s.enterMode).draws = s.draws := rfl
@[simp] theorem State.enterMode_part (s : State) : (s.enterMode).part = s.part := rfl

/-! ### The stack pointer of the current mode -/

@[simp] theorem State.setSp_pc (s : State) (v : Word) : (s.setSp v).pc = s.pc := by
  unfold State.setSp; split <;> rfl
@[simp] theorem State.setSp_a (s : State) (v : Word) : (s.setSp v).a = s.a := by
  unfold State.setSp; split <;> rfl
@[simp] theorem State.setSp_x (s : State) (v : Word) : (s.setSp v).x = s.x := by
  unfold State.setSp; split <;> rfl
@[simp] theorem State.setSp_y (s : State) (v : Word) : (s.setSp v).y = s.y := by
  unfold State.setSp; split <;> rfl
@[simp] theorem State.setSp_e (s : State) (v : Word) : (s.setSp v).e = s.e := by
  unfold State.setSp; split <;> rfl
@[simp] theorem State.setSp_b (s : State) (v : Word) : (s.setSp v).b = s.b := by
  unfold State.setSp; split <;> rfl
@[simp] theorem State.setSp_su (s : State) (v : Word) : (s.setSp v).su = if s.esr.h then s.su else v := by
  unfold State.setSp; split <;> rfl
@[simp] theorem State.setSp_sh (s : State) (v : Word) : (s.setSp v).sh = if s.esr.h then v else s.sh := by
  unfold State.setSp; split <;> rfl
@[simp] theorem State.setSp_sr (s : State) (v : Word) : (s.setSp v).sr = s.sr := by
  unfold State.setSp; split <;> rfl
@[simp] theorem State.setSp_esr (s : State) (v : Word) : (s.setSp v).esr = s.esr := by
  unfold State.setSp; split <;> rfl
@[simp] theorem State.setSp_imr (s : State) (v : Word) : (s.setSp v).imr = s.imr := by
  unfold State.setSp; split <;> rfl
@[simp] theorem State.setSp_eim (s : State) (v : Word) : (s.setSp v).eim = s.eim := by
  unfold State.setSp; split <;> rfl
@[simp] theorem State.setSp_iv (s : State) (v : Word) : (s.setSp v).iv = s.iv := by
  unfold State.setSp; split <;> rfl
@[simp] theorem State.setSp_tv (s : State) (v : Word) : (s.setSp v).tv = s.tv := by
  unfold State.setSp; split <;> rfl
@[simp] theorem State.setSp_av (s : State) (v : Word) : (s.setSp v).av = s.av := by
  unfold State.setSp; split <;> rfl
@[simp] theorem State.setSp_tmv (s : State) (v : Word) : (s.setSp v).tmv = s.tmv := by
  unfold State.setSp; split <;> rfl
@[simp] theorem State.setSp_umm (s : State) (v : Word) : (s.setSp v).umm = s.umm := by
  unfold State.setSp; split <;> rfl
@[simp] theorem State.setSp_hmm (s : State) (v : Word) : (s.setSp v).hmm = s.hmm := by
  unfold State.setSp; split <;> rfl
@[simp] theorem State.setSp_umc (s : State) (v : Word) : (s.setSp v).umc = s.umc := by
  unfold State.setSp; split <;> rfl
@[simp] theorem State.setSp_uim (s : State) (v : Word) : (s.setSp v).uim = s.uim := by
  unfold State.setSp; split <;> rfl
@[simp] theorem State.setSp_containers (s : State) (v : Word) : (s.setSp v).containers = s.containers := by
  unfold State.setSp; split <;> rfl
@[simp] theorem State.setSp_lines (s : State) (v : Word) : (s.setSp v).lines = s.lines := by
  unfold State.setSp; split <;> rfl
@[simp] theorem State.setSp_nmi (s : State) (v : Word) : (s.setSp v).nmi = s.nmi := by
  unfold State.setSp; split <;> rfl
@[simp] theorem State.setSp_mem (s : State) (v : Word) : (s.setSp v).mem = s.mem := by
  unfold State.setSp; split <;> rfl
@[simp] theorem State.setSp_written (s : State) (v : Word) : (s.setSp v).written = s.written := by
  unfold State.setSp; split <;> rfl
@[simp] theorem State.setSp_inputs (s : State) (v : Word) : (s.setSp v).inputs = s.inputs := by
  unfold State.setSp; split <;> rfl
@[simp] theorem State.setSp_draws (s : State) (v : Word) : (s.setSp v).draws = s.draws := by
  unfold State.setSp; split <;> rfl
@[simp] theorem State.setSp_part (s : State) (v : Word) : (s.setSp v).part = s.part := by
  unfold State.setSp; split <;> rfl

/-! ### The environment's turn -/

@[simp] theorem State.sampleInputs_pc (s : State) : s.sampleInputs.pc = s.pc := by
  unfold State.sampleInputs; split <;> rfl
@[simp] theorem State.sampleInputs_a (s : State) : s.sampleInputs.a = s.a := by
  unfold State.sampleInputs; split <;> rfl
@[simp] theorem State.sampleInputs_x (s : State) : s.sampleInputs.x = s.x := by
  unfold State.sampleInputs; split <;> rfl
@[simp] theorem State.sampleInputs_y (s : State) : s.sampleInputs.y = s.y := by
  unfold State.sampleInputs; split <;> rfl
@[simp] theorem State.sampleInputs_e (s : State) : s.sampleInputs.e = s.e := by
  unfold State.sampleInputs; split <;> rfl
@[simp] theorem State.sampleInputs_b (s : State) : s.sampleInputs.b = s.b := by
  unfold State.sampleInputs; split <;> rfl
@[simp] theorem State.sampleInputs_su (s : State) : s.sampleInputs.su = s.su := by
  unfold State.sampleInputs; split <;> rfl
@[simp] theorem State.sampleInputs_sh (s : State) : s.sampleInputs.sh = s.sh := by
  unfold State.sampleInputs; split <;> rfl
@[simp] theorem State.sampleInputs_sr (s : State) : s.sampleInputs.sr = s.sr := by
  unfold State.sampleInputs; split <;> rfl
@[simp] theorem State.sampleInputs_esr (s : State) : s.sampleInputs.esr = s.esr := by
  unfold State.sampleInputs; split <;> rfl
@[simp] theorem State.sampleInputs_imr (s : State) : s.sampleInputs.imr = s.imr := by
  unfold State.sampleInputs; split <;> rfl
@[simp] theorem State.sampleInputs_eim (s : State) : s.sampleInputs.eim = s.eim := by
  unfold State.sampleInputs; split <;> rfl
@[simp] theorem State.sampleInputs_iv (s : State) : s.sampleInputs.iv = s.iv := by
  unfold State.sampleInputs; split <;> rfl
@[simp] theorem State.sampleInputs_tv (s : State) : s.sampleInputs.tv = s.tv := by
  unfold State.sampleInputs; split <;> rfl
@[simp] theorem State.sampleInputs_av (s : State) : s.sampleInputs.av = s.av := by
  unfold State.sampleInputs; split <;> rfl
@[simp] theorem State.sampleInputs_tmv (s : State) : s.sampleInputs.tmv = s.tmv := by
  unfold State.sampleInputs; split <;> rfl
@[simp] theorem State.sampleInputs_umm (s : State) : s.sampleInputs.umm = s.umm := by
  unfold State.sampleInputs; split <;> rfl
@[simp] theorem State.sampleInputs_hmm (s : State) : s.sampleInputs.hmm = s.hmm := by
  unfold State.sampleInputs; split <;> rfl
@[simp] theorem State.sampleInputs_umc (s : State) : s.sampleInputs.umc = s.umc := by
  unfold State.sampleInputs; split <;> rfl
@[simp] theorem State.sampleInputs_uim (s : State) : s.sampleInputs.uim = s.uim := by
  unfold State.sampleInputs; split <;> rfl
@[simp] theorem State.sampleInputs_containers (s : State) : s.sampleInputs.containers = s.containers := by
  unfold State.sampleInputs; split <;> rfl
@[simp] theorem State.sampleInputs_mem (s : State) : s.sampleInputs.mem = s.mem := by
  unfold State.sampleInputs; split <;> rfl
@[simp] theorem State.sampleInputs_written (s : State) : s.sampleInputs.written = s.written := by
  unfold State.sampleInputs; split <;> rfl
@[simp] theorem State.sampleInputs_draws (s : State) : s.sampleInputs.draws = s.draws := by
  unfold State.sampleInputs; split <;> rfl
@[simp] theorem State.sampleInputs_part (s : State) : s.sampleInputs.part = s.part := by
  unfold State.sampleInputs; split <;> rfl

/-! ### The state after the boundary -/

@[simp] theorem State.afterBoundary_pc (s : State) : s.afterBoundary.pc = s.pc := by
  simp [State.afterBoundary]
@[simp] theorem State.afterBoundary_a (s : State) : s.afterBoundary.a = s.a := by
  simp [State.afterBoundary]
@[simp] theorem State.afterBoundary_x (s : State) : s.afterBoundary.x = s.x := by
  simp [State.afterBoundary]
@[simp] theorem State.afterBoundary_y (s : State) : s.afterBoundary.y = s.y := by
  simp [State.afterBoundary]
@[simp] theorem State.afterBoundary_e (s : State) : s.afterBoundary.e = s.e := by
  simp [State.afterBoundary]
@[simp] theorem State.afterBoundary_b (s : State) : s.afterBoundary.b = s.b := by
  simp [State.afterBoundary]
@[simp] theorem State.afterBoundary_su (s : State) : s.afterBoundary.su = s.su := by
  simp [State.afterBoundary]
@[simp] theorem State.afterBoundary_sh (s : State) : s.afterBoundary.sh = s.sh := by
  simp [State.afterBoundary]
@[simp] theorem State.afterBoundary_sr (s : State) : s.afterBoundary.sr = s.sr := by
  simp [State.afterBoundary]
@[simp] theorem State.afterBoundary_esr (s : State) : s.afterBoundary.esr = s.esr := by
  simp [State.afterBoundary]
@[simp] theorem State.afterBoundary_imr (s : State) : s.afterBoundary.imr = s.imr := by
  simp [State.afterBoundary]
@[simp] theorem State.afterBoundary_eim (s : State) : s.afterBoundary.eim = s.eim := by
  simp [State.afterBoundary]
@[simp] theorem State.afterBoundary_iv (s : State) : s.afterBoundary.iv = s.iv := by
  simp [State.afterBoundary]
@[simp] theorem State.afterBoundary_tv (s : State) : s.afterBoundary.tv = s.tv := by
  simp [State.afterBoundary]
@[simp] theorem State.afterBoundary_av (s : State) : s.afterBoundary.av = s.av := by
  simp [State.afterBoundary]
@[simp] theorem State.afterBoundary_tmv (s : State) : s.afterBoundary.tmv = s.tmv := by
  simp [State.afterBoundary]
@[simp] theorem State.afterBoundary_umm (s : State) : s.afterBoundary.umm = s.umm := by
  simp [State.afterBoundary]
@[simp] theorem State.afterBoundary_hmm (s : State) : s.afterBoundary.hmm = s.hmm := by
  simp [State.afterBoundary]
@[simp] theorem State.afterBoundary_umc (s : State) : s.afterBoundary.umc = s.umc := by
  simp [State.afterBoundary]
@[simp] theorem State.afterBoundary_uim (s : State) : s.afterBoundary.uim = s.uim := by
  simp [State.afterBoundary]
@[simp] theorem State.afterBoundary_containers (s : State) : s.afterBoundary.containers = s.containers := by
  simp [State.afterBoundary]
@[simp] theorem State.afterBoundary_mem (s : State) : s.afterBoundary.mem = s.mem := by
  simp [State.afterBoundary]
@[simp] theorem State.afterBoundary_written (s : State) : s.afterBoundary.written = s.written := by
  simp [State.afterBoundary]
@[simp] theorem State.afterBoundary_draws (s : State) : s.afterBoundary.draws = s.draws + 1 := by
  simp [State.afterBoundary]
@[simp] theorem State.afterBoundary_part (s : State) : s.afterBoundary.part = s.part := by
  simp [State.afterBoundary]

end Sys2Proof.Machine
end

