-- ==== Sys2Proof/Laws/Memory.lean ====
section
/-! SUPPORT. Memory: read after write, and that every operation keeps the canonical form. -/

namespace Sys2Proof.Machine

/-! ## What a read gives -/

theorem Memory.read_put (a p : Nat) (v : Byte) (m : Memory) (h : m.read a = Memory.unlisted) :
    (Memory.put a v m).read p = if p = a then v else m.read p := by
  unfold Memory.put
  split
  · rename_i hv; split
    · rename_i hp; rw [hp, h, hv]
    · rfl
  · simp [Memory.read]

theorem Memory.read_eq_unlisted_of_above {a : Nat} {m : Memory} (h : m.above a = true) : m.read a = Memory.unlisted := by
  induction m with
  | nil => rfl
  | cons cell m ih =>
    simp only [Memory.above, List.all_cons, Bool.and_eq_true, decide_eq_true_eq] at h
    have := ih (by simpa [Memory.above] using h.2)
    simp [Memory.read, this]; omega

theorem Memory.above_trans {a b : Nat} {m : Memory} (hab : a < b) (h : m.above b = true) : m.above a = true := by
  simp only [Memory.above, List.all_eq_true, decide_eq_true_eq] at *
  intro cell hc; have := h cell hc; omega

/-- Read after write: the written address holds the value, every other address what it held. -/
theorem Memory.read_write {m : Memory} (hm : m.wf = true) (a p : Nat) (v : Byte) :
    (m.write a v).read p = if p = a then v else m.read p := by
  induction m with
  | nil => exact Memory.read_put a p v [] rfl
  | cons cell m ih =>
    obtain ⟨k, x⟩ := cell
    simp only [Memory.wf, Bool.and_eq_true, decide_eq_true_eq] at hm
    unfold Memory.write
    split
    · rename_i hak
      apply Memory.read_put
      apply Memory.read_eq_unlisted_of_above
      simp only [Memory.above, List.all_cons, Bool.and_eq_true, decide_eq_true_eq]
      exact ⟨hak, Memory.above_trans hak hm.1.1⟩
    · split
      · rename_i hak
        subst hak
        rw [Memory.read_put _ _ _ _ (Memory.read_eq_unlisted_of_above hm.1.1)]
        simp only [Memory.read]
        split <;> rfl
      · rename_i hka hne
        simp only [Memory.read, ih hm.2]
        split
        · rename_i hpk
          rw [if_neg (by omega)]
        · rfl

/-! ## The canonical form -/

theorem Memory.all_put {f : Host.Cell → Bool} {a : Nat} {v : Byte} {m : Memory} (hm : m.all f = true)
    (ha : f (a, v) = true) : (Memory.put a v m).all f = true := by
  unfold Memory.put; split
  · exact hm
  · simp [ha, hm]

theorem Memory.all_write {f : Host.Cell → Bool} {a : Nat} {v : Byte} {m : Memory} (hm : m.all f = true)
    (ha : f (a, v) = true) : (m.write a v).all f = true := by
  induction m with
  | nil => exact Memory.all_put rfl ha
  | cons cell m ih =>
    obtain ⟨k, x⟩ := cell
    simp only [List.all_cons, Bool.and_eq_true] at hm
    unfold Memory.write
    split
    · exact Memory.all_put (by simpa using hm) ha
    · split
      · exact Memory.all_put hm.2 ha
      · simp [hm.1, ih hm.2]

theorem Memory.wf_put {a : Nat} {v : Byte} {m : Memory} (hm : m.wf = true) (ha : m.above a = true) :
    (Memory.put a v m).wf = true := by
  unfold Memory.put; split
  · exact hm
  · rename_i hv; simp [Memory.wf, ha, hv, hm]

/-- A write keeps the canonical form. -/
theorem Memory.wf_write {m : Memory} (hm : m.wf = true) (a : Nat) (v : Byte) : (m.write a v).wf = true := by
  induction m with
  | nil => exact Memory.wf_put rfl rfl
  | cons cell m ih =>
    obtain ⟨k, x⟩ := cell
    have hm0 := hm
    simp only [Memory.wf, Bool.and_eq_true, decide_eq_true_eq] at hm
    unfold Memory.write
    split
    · rename_i hak
      apply Memory.wf_put hm0
      simp only [Memory.above, List.all_cons, Bool.and_eq_true, decide_eq_true_eq]
      exact ⟨hak, Memory.above_trans hak hm.1.1⟩
    · split
      · rename_i hak; subst hak; exact Memory.wf_put hm.2 hm.1.1
      · rename_i hka hne
        have : Memory.above k (Memory.write m a v) = true := Memory.all_write hm.1.1 (by simp; omega)
        simp [Memory.wf, this, hm.1.2, ih hm.2]

/-! ## The addresses written -/

theorem all_markAddress {f : Nat → Bool} {a : Nat} {ks : List Nat} (hks : ks.all f = true) (ha : f a = true) :
    (markAddress a ks).all f = true := by
  induction ks with
  | nil => simp [markAddress, ha]
  | cons k ks ih =>
    simp only [List.all_cons, Bool.and_eq_true] at hks
    unfold markAddress
    split
    · simp [ha, hks]
    · split
      · simp [hks]
      · simp [hks.1, ih hks.2]

theorem rising_markAddress {ks : List Nat} (hks : rising ks = true) (a : Nat) : rising (markAddress a ks) = true := by
  induction ks with
  | nil => rfl
  | cons k ks ih =>
    have h0 := hks
    simp only [rising, Bool.and_eq_true] at hks
    unfold markAddress
    split
    · rename_i hak
      simp only [rising, List.all_cons, Bool.and_eq_true, decide_eq_true_eq]
      refine ⟨⟨hak, ?_⟩, by simpa [rising] using h0⟩
      simp only [List.all_eq_true, decide_eq_true_eq] at *
      intro j hj; have := hks.1 j hj; omega
    · split
      · exact h0
      · rename_i hka hne
        have : (markAddress a ks).all (fun j => decide (k < j)) = true := all_markAddress hks.1 (by simp; omega)
        simp [rising, this, ih hks.2]

theorem mem_markAddress (a p : Nat) (ks : List Nat) : p ∈ markAddress a ks ↔ p = a ∨ p ∈ ks := by
  induction ks with
  | nil => simp [markAddress]
  | cons k ks ih =>
    unfold markAddress
    split
    · simp
    · split
      · rename_i h; subst h; simp
      · simp [ih]; tauto

/-! ## The same, for a byte stored in a state -/

theorem State.storeByte_read {s : State} (hs : s.mem.wf = true) (a p : Nat) (v : Byte) :
    (s.storeByte a v).mem.read p = if p = a then v else s.mem.read p := Memory.read_write hs a p v

theorem State.storeByte_wf {s : State} (hs : s.mem.wf = true) (a : Nat) (v : Byte) : (s.storeByte a v).mem.wf = true :=
  Memory.wf_write hs a v

theorem State.memoryCanonical_congr {s t : State} (hp : t.part = s.part) (hm : t.mem = s.mem) :
    t.memoryCanonical = s.memoryCanonical := by rw [State.memoryCanonical, State.memoryCanonical, hp, hm]

theorem State.writtenCanonical_congr {s t : State} (hp : t.part = s.part) (hw : t.written = s.written) :
    t.writtenCanonical = s.writtenCanonical := by rw [State.writtenCanonical, State.writtenCanonical, hp, hw]

end Sys2Proof.Machine
end

