-- ==== Sys2Proof/Laws/Translate.lean ====
section
/-! SUPPORT. Container translation and the accesses of one byte. -/

namespace Sys2Proof.Machine

theorem highBits_toNat_lt (w : Width) (v : Word) : (highBits w v).toNat < 2 ^ w.bits := by
  have h : highBits w v = trunc w (v &&& ~~~0xFF) := by
    simp only [highBits, trunc, BitVec.and_assoc]; rw [BitVec.and_comm w.mask]
  rw [h]; exact trunc_lt w _

theorem getLsbD_255 (k : Nat) : (0xFF : Word).getLsbD k = decide (k < 8) := by
  by_cases h : k < 64
  · revert k; decide
  · rw [BitVec.getLsbD_of_ge _ _ (by omega)]; simp; omega

theorem getLsbD_highBits (w : Width) (v : Word) (k : Nat) :
    (highBits w v).getLsbD k = (decide (8 ≤ k) && decide (k < w.bits) && v.getLsbD k) := by
  have hw := w.bits_le
  simp only [highBits, BitVec.getLsbD_and, BitVec.getLsbD_not, getLsbD_mask, getLsbD_255]
  by_cases h1 : k < w.bits
  · have h3 : k < 64 := by omega
    by_cases h2 : k < 8
    · simp [h1, h2]
    · simp [h1, h2, h3, Nat.le_of_not_lt h2]
  · simp [h1]

theorem ContainerSet.physical_bit (w : Width) (c : ContainerSet) (addr : Word) (k : Nat) :
    (c.physical w addr).getLsbD k =
      if k < 8 then addr.getLsbD k
      else decide (k < w.bits) && (addr.getLsbD k && !c.cmask.getLsbD k || c.cofs.getLsbD k) := by
  have hw := w.bits_le
  simp only [ContainerSet.physical, BitVec.getLsbD_or, getLsbD_highBits, BitVec.getLsbD_and, BitVec.getLsbD_not,
    getLsbD_255]
  by_cases h1 : k < 8
  · simp [h1]
  · by_cases h2 : k < w.bits
    · have : k < 64 := by omega
      simp [h1, h2, Nat.le_of_not_lt h1, this]
    · simp [h1, h2]

theorem ContainerSet.physical_fits (w : Width) (c : ContainerSet) (addr : Word) : fitsW w (c.physical w addr) = true := by
  rw [fitsW_iff]
  apply BitVec.eq_of_getLsbD_eq
  intro k hk
  rw [getLsbD_trunc, ContainerSet.physical_bit]
  have : 8 < w.bits := by cases w <;> decide
  by_cases h1 : k < 8
  · simp [h1, Nat.lt_trans h1 this]
  · simp [h1]

/-- A translated address is one of `W` bits. -/
theorem translateAddr_fits {w : Width} {u : ContainerUnit} {mc : Byte} {addr p : Word} (h : translateAddr w u mc addr = .ok p) :
    fitsW w p = true := by
  unfold translateAddr at h
  split at h
  · cases h; exact fitsW_trunc w _
  · split at h
    · cases h
    · cases h; exact ContainerSet.physical_fits w _ _
    · cases h

/-- Only the low `W` bits of a CPU address count. -/
@[simp] theorem translateAddr_trunc (w : Width) (u : ContainerUnit) (mc : Byte) (addr : Word) :
    translateAddr w u mc (trunc w addr) = translateAddr w u mc addr := by
  simp [translateAddr]

theorem State.physicalAddr_lt {s : State} {addr : Word} {p : Nat} (h : s.physicalAddr addr = .ok p) :
    p < 2 ^ s.part.width.bits := by
  unfold State.physicalAddr at h
  cases ht : translateAddr s.part.width s.containers s.matchCode addr with
  | error e => rw [ht] at h; cases h
  | ok q => rw [ht] at h; cases h; exact fitsW_lt (translateAddr_fits ht)

@[simp] theorem State.physicalAddr_trunc (s : State) (addr : Word) :
    s.physicalAddr (trunc s.part.width addr) = s.physicalAddr addr := by simp [State.physicalAddr]

/-- Translation depends on the part, the container sets and the match code alone. -/
theorem State.physicalAddr_congr {s t : State} (hp : t.part = s.part) (hc : t.containers = s.containers)
    (hm : t.matchCode = s.matchCode) (addr : Word) : t.physicalAddr addr = s.physicalAddr addr := by
  simp [State.physicalAddr, hp, hc, hm]

theorem State.physicalAddr_hypervisor {s : State} (h : s.esr.h = true) (addr : Word) :
    s.physicalAddr addr = s.hypervisorAddr addr := by
  simp [State.physicalAddr, State.hypervisorAddr, State.matchCode, h]

/-- A read of one byte: the byte memory holds at the translated address. -/
theorem State.readByte_ok {s : State} {addr : Word} {v : Byte} :
    s.readByte addr = .ok v ↔ ∃ p, s.physicalAddr addr = .ok p ∧ s.mem.read p = v := by
  unfold State.readByte
  cases s.physicalAddr addr <;> simp [bind, Except.bind]

theorem State.readByte_isOk {s : State} {addr : Word} :
    (s.readByte addr).isOk = true ↔ ∃ p, s.physicalAddr addr = .ok p := by
  unfold State.readByte
  cases s.physicalAddr addr <;> simp [bind, Except.bind, Except.isOk, Except.toBool]

theorem isOk_iff {ε α : Type} {x : Except ε α} : x.isOk = true ↔ ∃ v, x = .ok v := by
  cases x <;> simp [Except.isOk, Except.toBool]

/-- A write of one byte: the byte is stored at the translated address, and nothing else happens. -/
theorem State.writeByte_ok {s t : State} {addr : Word} {v : Byte} :
    s.writeByte addr v = .ok t ↔ ∃ p, s.physicalAddr addr = .ok p ∧ t = s.storeByte p v := by
  unfold State.writeByte
  cases s.physicalAddr addr <;> simp [bind, Except.bind, eq_comm]

end Sys2Proof.Machine
end

