-- ==== Sys2Proof/Laws/Stack.lean ====
section
/-! SUPPORT. The stack primitives: everything `Push8`, `PushN`, `Pull8` and `PullN` can do. -/

namespace Sys2Proof.Machine

/-! ## Page one -/

theorem inPageOne_toNat (v : Word) : (inPageOne v).toNat = 256 + v.toNat % 256 := by
  have h : (v &&& 0xFF : Word).toNat = v.toNat % 256 :=
    (BitVec.toNat_and ..).trans (Nat.and_two_pow_sub_one_eq_mod v.toNat 8)
  have hlt := Nat.mod_lt v.toNat (show 0 < 256 by decide)
  unfold inPageOne
  rw [BitVec.toNat_or, h]
  have : (0x100 : Word).toNat ||| v.toNat % 256 = 2 ^ 8 * 1 + v.toNat % 256 := by
    rw [Nat.two_pow_add_eq_or_of_lt (by omega)]; rfl
  rw [this]; rfl

theorem inPageOne_congr {u v : Word} (h : u.toNat % 256 = v.toNat % 256) : inPageOne u = inPageOne v := by
  apply BitVec.eq_of_toNat_eq; rw [inPageOne_toNat, inPageOne_toNat, h]

theorem inPageOne_mod (v : Word) : (inPageOne v).toNat % 256 = v.toNat % 256 := by rw [inPageOne_toNat]; omega

theorem inPageOne_add (u v : Word) : inPageOne (inPageOne u + v) = inPageOne (u + v) := by
  apply inPageOne_congr
  rw [BitVec.toNat_add, BitVec.toNat_add, Nat.mod_mod_of_dvd _ (by decide), Nat.mod_mod_of_dvd _ (by decide),
    Nat.add_mod, inPageOne_mod, ← Nat.add_mod]

theorem inPageOne_sub (u v : Word) : inPageOne (inPageOne u - v) = inPageOne (u - v) := by
  rw [BitVec.sub_eq_add_neg, BitVec.sub_eq_add_neg, inPageOne_add]

theorem inPageOne_idem (v : Word) : inPageOne (inPageOne v) = inPageOne v := inPageOne_congr (inPageOne_mod v)

/-! ## The stack pointer of the current mode -/

@[simp] theorem State.setSp_sp (s : State) (v : Word) : (s.setSp v).sp = v := by
  cases h : s.esr.h <;> simp [State.setSp, State.sp, h]

@[simp] theorem State.setSp_setSp (s : State) (u v : Word) : (s.setSp u).setSp v = s.setSp v := by
  cases h : s.esr.h <;> simp [State.setSp, h]

@[simp] theorem State.setSp_self (s : State) : s.setSp s.sp = s := by
  unfold State.setSp State.sp; split <;> rfl

@[simp] theorem State.storeByte_sp (s : State) (p : Nat) (v : Byte) : (s.storeByte p v).sp = s.sp := rfl

@[simp] theorem State.setSp_restricted (s : State) (v : Word) : (s.setSp v).restricted = s.restricted := by
  simp [State.restricted, State.rss]

@[simp] theorem State.setSp_matchCode (s : State) (v : Word) : (s.setSp v).matchCode = s.matchCode := by
  simp [State.matchCode]

@[simp] theorem State.setSp_physicalAddr (s : State) (v addr : Word) : (s.setSp v).physicalAddr addr = s.physicalAddr addr :=
  State.physicalAddr_congr (by simp) (by simp) (by simp) addr

@[simp] theorem State.storeByte_physicalAddr (s : State) (p : Nat) (v : Byte) (addr : Word) :
    (s.storeByte p v).physicalAddr addr = s.physicalAddr addr := rfl

@[simp] theorem State.storeByte_restricted (s : State) (p : Nat) (v : Byte) : (s.storeByte p v).restricted = s.restricted := rfl

/-! ## Pushes -/

/-- The state after one push: a byte stored, the pointer one slot on. -/
def State.pushed (s : State) (p : Nat) (v : Byte) : State := (s.storeByte p v).setSp (s.pushSlot 1)

theorem State.stackDec_sp (s : State) : s.stackDec s.sp = s.pushSlot 1 := rfl

theorem State.physicalAddr_stackAddr (s : State) : s.physicalAddr (s.stackAddr s.sp) = s.physicalAddr (s.pushSlot 0) := by
  unfold State.stackAddr State.pushSlot
  split
  · simp
  · simp [subW]

/-- `Push8`: a byte goes to the slot the pointer names. -/
theorem State.push8_ok {s t : State} {v : Byte} :
    s.push8 v = .ok t ↔ ∃ p, s.physicalAddr (s.pushSlot 0) = .ok p ∧ t = s.pushed p v := by
  unfold State.push8
  simp only [State.writeByte, State.physicalAddr_stackAddr]
  cases s.physicalAddr (s.pushSlot 0) <;> simp [bind, Except.bind, eq_comm, State.pushed, State.stackDec_sp]

/-- `Push8` misses exactly where its slot has no translation. -/
theorem State.push8_error {s : State} {v : Byte} {why : TranslationMiss} :
    s.push8 v = .error why ↔ s.physicalAddr (s.pushSlot 0) = .error why := by
  unfold State.push8
  simp only [State.writeByte, State.physicalAddr_stackAddr]
  cases s.physicalAddr (s.pushSlot 0) <;> simp [bind, Except.bind]

theorem ofNat_succ_sub (x : Word) (j : Nat) : x - BitVec.ofNat 64 1 - BitVec.ofNat 64 j = x - BitVec.ofNat 64 (j + 1) := by
  rw [Nat.add_comm, BitVec.ofNat_add]; simp only [BitVec.sub_eq_add_neg, BitVec.neg_add, BitVec.add_assoc]

theorem State.pushSlot_pushed (s : State) (p : Nat) (v : Byte) (j : Nat) :
    (s.pushed p v).pushSlot j = s.pushSlot (j + 1) := by
  unfold State.pushed
  rw [State.pushSlot, State.setSp_restricted, State.storeByte_restricted, State.setSp_sp]
  unfold State.pushSlot
  by_cases h : s.restricted
  · simp only [h, if_true, inPageOne_sub, ofNat_succ_sub]
  · simp only [h, Bool.false_eq_true, if_false, State.setSp_part, State.storeByte_part, subW_subW, ← BitVec.ofNat_add,
      Nat.add_comm]

/-- Push the bytes of a list, the first one first. -/
def State.pushBytes (s : State) : List Byte → Except TranslationMiss State
  | [] => .ok s
  | v :: vs => s.push8 v >>= fun t => t.pushBytes vs

theorem State.pushBytes_append (s : State) (us vs : List Byte) :
    s.pushBytes (us ++ vs) = s.pushBytes us >>= fun t => t.pushBytes vs := by
  induction us generalizing s with
  | nil => rfl
  | cons u us ih =>
    simp only [List.cons_append, State.pushBytes]
    cases s.push8 u with
    | error e => rfl
    | ok t => simp only [bind, Except.bind] at ih ⊢; exact ih t

/-- The low `n` bytes of a value, most significant first. -/
def beBytes (v : Word) : Nat → List Byte
  | 0 => []
  | n + 1 => (v >>> (8 * n)).setWidth 8 :: beBytes v n

@[simp] theorem beBytes_length (v : Word) (n : Nat) : (beBytes v n).length = n := by
  induction n with
  | zero => rfl
  | succ n ih => simp [beBytes, ih]

theorem beBytes_get (v : Word) (n j : Nat) (hj : j < n) :
    (beBytes v n)[j]? = some ((v >>> (8 * (n - 1 - j))).setWidth 8) := by
  induction n generalizing j with
  | zero => omega
  | succ n ih =>
    cases j with
    | zero => simp [beBytes]
    | succ j =>
      rw [beBytes, List.getElem?_cons_succ, ih j (by omega)]
      congr 3; omega

theorem State.pushN_eq (s : State) (v : Word) (n : Nat) : s.pushN v n = s.pushBytes (beBytes v n) := by
  induction n generalizing s with
  | zero => rfl
  | succ n ih =>
    simp only [State.pushN, beBytes, State.pushBytes]
    cases s.push8 _ with
    | error e => rfl
    | ok t => exact ih t

theorem State.pushFrame_eq (s : State) (k : Nat) (ra : Word) (e r : Byte) :
    s.pushFrame k ra e r = s.pushBytes (beBytes ra k ++ [e, r]) := by
  rw [State.pushBytes_append]
  simp only [State.pushFrame, State.pushN_eq, State.pushBytes]
  cases s.pushBytes (beBytes ra k) with
  | error e => rfl
  | ok t =>
    simp only [bind, Except.bind]
    cases t.push8 e with
    | error e => rfl
    | ok u => simp only; cases u.push8 r <;> rfl

/-- Everything a sequence of pushes does. -/
structure PushEffect (s : State) (bs : List Byte) (t : State) : Prop where
  /-- Only the pointer of the current mode, memory and the record of writes change. -/
  rest : t = { s.setSp (if bs = [] then s.sp else s.pushSlot bs.length) with mem := t.mem, written := t.written }
  byte : s.mem.wf = true → ∀ j p v, bs[j]? = some v → s.physicalAddr (s.pushSlot j) = .ok p →
    (∀ i, j < i → i < bs.length → s.physicalAddr (s.pushSlot i) ≠ .ok p) → t.mem.read p = v
  other : s.mem.wf = true → ∀ p, (∀ j, j < bs.length → s.physicalAddr (s.pushSlot j) ≠ .ok p) →
    t.mem.read p = s.mem.read p
  wf : s.mem.wf = true → t.mem.wf = true
  memory : s.memoryCanonical = true → t.memoryCanonical = true
  written : s.writtenCanonical = true → t.writtenCanonical = true
  marks : ∀ p, p ∈ t.written ↔ p ∈ s.written ∨ ∃ j, j < bs.length ∧ s.physicalAddr (s.pushSlot j) = .ok p

theorem State.mem_pushed_written (s : State) (p q : Nat) (v : Byte) :
    q ∈ (s.pushed p v).written ↔ q = p ∨ q ∈ s.written := by
  rw [State.pushed, State.setSp_written, State.storeByte_written, mem_markAddress]

theorem State.pushed_physicalAddr (s : State) (p : Nat) (v : Byte) (addr : Word) :
    (s.pushed p v).physicalAddr addr = s.physicalAddr addr := by simp [State.pushed]

theorem State.pushed_memoryCanonical {s : State} {p : Nat} {v : Byte} (hp : p < 2 ^ s.part.width.bits)
    (h : s.memoryCanonical = true) : (s.pushed p v).memoryCanonical = true := by
  simp only [State.memoryCanonical, Bool.and_eq_true] at *
  simp only [State.pushed, State.setSp_mem, State.storeByte_mem, State.setSp_part, State.storeByte_part]
  exact ⟨Memory.wf_write h.1 p v, Memory.all_write h.2 (by simpa using hp)⟩

theorem State.pushed_writtenCanonical {s : State} {p : Nat} {v : Byte} (hp : p < 2 ^ s.part.width.bits)
    (h : s.writtenCanonical = true) : (s.pushed p v).writtenCanonical = true := by
  simp only [State.writtenCanonical, Bool.and_eq_true] at *
  simp only [State.pushed, State.setSp_written, State.storeByte_written, State.setSp_part, State.storeByte_part]
  exact ⟨rising_markAddress h.1 p, all_markAddress h.2 (by simpa using hp)⟩

/-- A sequence of pushes that succeeds has this effect. -/
theorem State.pushBytes_effect {s t : State} {bs : List Byte} (h : s.pushBytes bs = .ok t) : PushEffect s bs t := by
  induction bs generalizing s with
  | nil =>
    cases h
    exact ⟨by simp, fun _ j p v hv => by simp at hv, fun _ _ _ => rfl, id, id, id, fun p => by simp⟩
  | cons b bs ih =>
    simp only [State.pushBytes] at h
    cases hpush : s.push8 b with
    | error e => rw [hpush] at h; cases h
    | ok u =>
      rw [hpush] at h
      obtain ⟨q, hq, rfl⟩ := State.push8_ok.1 hpush
      have e := ih (s := s.pushed q b) h
      have hmem : (s.pushed q b).mem = s.mem.write q b := by simp [State.pushed]
      have hwf : s.mem.wf = true → (s.pushed q b).mem.wf = true := fun hs => by rw [hmem]; exact Memory.wf_write hs q b
      have hlt := State.physicalAddr_lt hq
      refine ⟨?_, ?_, ?_, fun hs => e.wf (hwf hs), fun hs => e.memory (State.pushed_memoryCanonical hlt hs),
        fun hs => e.written (State.pushed_writtenCanonical hlt hs), ?_⟩
      · rw [e.rest]
        simp only [State.pushSlot_pushed, List.length_cons, reduceCtorEq, if_false]
        by_cases hb : bs = []
        · subst hb
          cases hh : s.esr.h <;> simp [State.pushed, State.storeByte, State.setSp, State.sp, hh]
        · cases hh : s.esr.h <;> simp [State.pushed, State.storeByte, State.setSp, hb, hh]
      · intro hs j p v hv hp hlast
        cases j with
        | zero =>
          simp only [List.getElem?_cons_zero, Option.some.injEq] at hv
          have : p = q := by rw [hp] at hq; exact Except.ok.inj hq
          subst this
          rw [e.other (hwf hs), hmem, Memory.read_write hs, if_pos rfl, hv]
          intro i hi
          rw [State.pushSlot_pushed, State.pushed_physicalAddr]
          exact hlast (i + 1) (by omega) (by simp; omega)
        | succ j =>
          simp only [List.getElem?_cons_succ] at hv
          refine e.byte (hwf hs) j p v hv (by rw [State.pushSlot_pushed, State.pushed_physicalAddr]; exact hp) ?_
          intro i hji hi
          rw [State.pushSlot_pushed, State.pushed_physicalAddr]
          exact hlast (i + 1) (by omega) (by simp; omega)
      · intro hs p hp
        rw [e.other (hwf hs), hmem, Memory.read_write hs, if_neg]
        · intro hpq; subst hpq; exact hp 0 (by simp) hq
        · intro j hj
          rw [State.pushSlot_pushed, State.pushed_physicalAddr]
          exact hp (j + 1) (by simp; omega)
      · intro p
        rw [e.marks, State.mem_pushed_written]
        simp only [State.pushSlot_pushed, State.pushed_physicalAddr]
        constructor
        · rintro ((rfl | hp) | ⟨j, hj, hp⟩)
          · exact .inr ⟨0, by simp, hq⟩
          · exact .inl hp
          · exact .inr ⟨j + 1, by simpa using hj, hp⟩
        · rintro (hp | ⟨j, hj, hp⟩)
          · exact .inl (.inr hp)
          · cases j with
            | zero => rw [hq] at hp; exact .inl (.inl (Except.ok.inj hp).symm)
            | succ j => exact .inr ⟨j, by simpa using hj, hp⟩

/-- A sequence of pushes succeeds exactly where every slot has a translation. -/
theorem State.pushBytes_ok_iff {s : State} {bs : List Byte} :
    (∃ t, s.pushBytes bs = .ok t) ↔ ∀ j, j < bs.length → ∃ p, s.physicalAddr (s.pushSlot j) = .ok p := by
  induction bs generalizing s with
  | nil => simp [State.pushBytes]
  | cons b bs ih =>
    simp only [State.pushBytes]
    cases hpush : s.push8 b with
    | error e =>
      have := State.push8_error.1 hpush
      constructor
      · rintro ⟨t, ht⟩; cases ht
      · intro h; obtain ⟨p, hp⟩ := h 0 (by simp); rw [this] at hp; cases hp
    | ok u =>
      obtain ⟨q, hq, rfl⟩ := State.push8_ok.1 hpush
      simp only [bind, Except.bind, ih, State.pushSlot_pushed, State.pushed_physicalAddr]
      constructor
      · intro h j hj
        cases j with
        | zero => exact ⟨q, hq⟩
        | succ j => exact h j (by simpa using hj)
      · intro h j hj; exact h (j + 1) (by simpa using hj)

/-! ## Pulls -/

theorem State.sp_eq (s : State) : s.sp = if s.esr.h then s.sh else s.su := rfl

theorem State.pullSlot_eq (s : State) (j : Nat) :
    s.pullSlot j = if s.restricted then inPageOne (s.sp + BitVec.ofNat 64 j) else addW s.part.width s.sp (BitVec.ofNat 64 j) := by
  unfold State.pullSlot State.restricted State.rss
  split
  · rename_i h
    simp only [Bool.and_eq_true, Bool.not_eq_eq_eq_not, Bool.not_true] at h
    simp [inPageOne, State.sp, h.1]
  · rfl

theorem ofNat_add_succ (x : Word) (j : Nat) : x + BitVec.ofNat 64 1 + BitVec.ofNat 64 j = x + BitVec.ofNat 64 (j + 1) := by
  rw [BitVec.add_assoc, ← BitVec.ofNat_add, Nat.add_comm]

theorem State.pullSlot_setSp (s : State) (i j : Nat) : (s.setSp (s.pullSlot i)).pullSlot j = s.pullSlot (i + j) := by
  rw [State.pullSlot_eq, State.setSp_restricted, State.setSp_sp, State.setSp_part, State.pullSlot_eq, State.pullSlot_eq]
  by_cases h : s.restricted
  · simp only [h, if_true, inPageOne_add, BitVec.add_assoc, ← BitVec.ofNat_add]
  · simp only [h, Bool.false_eq_true, if_false, addW_addW, ← BitVec.ofNat_add]

theorem State.stackAddr_pullSlot (s : State) : (s.setSp (s.pullSlot 1)).stackAddr (s.pullSlot 1) = s.pullSlot 1 := by
  unfold State.stackAddr
  rw [State.setSp_restricted, State.pullSlot_eq]
  by_cases h : s.restricted
  · simp [h, inPageOne_idem]
  · simp [h]

theorem State.stackInc_sp (s : State) : s.stackInc s.sp = s.pullSlot 1 := by
  rw [State.pullSlot_eq]; rfl

@[simp] theorem State.setSp_readByte (s : State) (v addr : Word) : (s.setSp v).readByte addr = s.readByte addr := by
  simp [State.readByte]

/-- `Pull8`: the byte of the next slot, and the pointer on it. -/
theorem State.pull8_eq (s : State) :
    s.pull8 = (s.readByte (s.pullSlot 1)).map fun v => (v, s.setSp (s.pullSlot 1)) := by
  unfold State.pull8
  simp only [State.stackInc_sp, State.setSp_sp, State.stackAddr_pullSlot, State.setSp_readByte]
  cases s.readByte (s.pullSlot 1) <;> rfl

theorem State.pull8_of_ok {s : State} (h : (s.readByte (s.pullSlot 1)).isOk = true) :
    s.pull8 = .ok (s.pulled 1, s.setSp (s.pullSlot 1)) := by
  obtain ⟨v, hv⟩ := isOk_iff.1 h
  simp [State.pull8_eq, hv, State.pulled, Except.map]

theorem State.pulled_setSp (s : State) (i j : Nat) : (s.setSp (s.pullSlot i)).pulled j = s.pulled (i + j) := by
  simp [State.pulled, State.pullSlot_setSp]

/-- The value of `n` bytes pulled after the first `i`. -/
def State.pulledValue (s : State) : Nat → Nat → Word
  | _, 0 => 0
  | i, n + 1 => (s.pulled (i + 1)).setWidth 64 ||| (s.pulledValue (i + 1) n <<< 8)

theorem State.pullSlot_zero_setSp (s : State) (i : Nat) :
    (s.setSp (s.pullSlot i)).setSp ((s.setSp (s.pullSlot i)).pullSlot 1) = s.setSp (s.pullSlot (i + 1)) := by
  rw [State.pullSlot_setSp, State.setSp_setSp]

/-- `PullN` after `i` pulls: it succeeds where every slot has a translation, and gives the bytes' value. -/
theorem State.pullN_of_ok {s : State} (i n : Nat)
    (h : ∀ j, j < n → (s.readByte (s.pullSlot (i + 1 + j))).isOk = true) :
    (s.setSp (s.pullSlot i)).pullN n = .ok (s.pulledValue i n, s.setSp (s.pullSlot (i + n))) := by
  induction n generalizing i with
  | zero => simp [State.pullN, State.pulledValue]
  | succ n ih =>
    have h0 := h 0 (by omega)
    have h1 : ((s.setSp (s.pullSlot i)).readByte ((s.setSp (s.pullSlot i)).pullSlot 1)).isOk = true := by
      rw [State.pullSlot_setSp, State.setSp_readByte]; exact h0
    have h2 := ih (i + 1) (fun j hj => by
      have := h (j + 1) (by omega)
      rwa [show i + 1 + (j + 1) = i + 1 + 1 + j by omega] at this)
    simp only [State.pullN, State.pull8_of_ok h1, bind, Except.bind, State.pullSlot_zero_setSp, h2, State.pulled_setSp,
      State.pulledValue]
    rw [show i + 1 + n = i + (n + 1) by omega]

theorem State.pullN_ok {s : State} (i n : Nat) {v : Word} {t : State}
    (h : (s.setSp (s.pullSlot i)).pullN n = .ok (v, t)) :
    ∀ j, j < n → (s.readByte (s.pullSlot (i + 1 + j))).isOk = true := by
  induction n generalizing i v t with
  | zero => intro j hj; omega
  | succ n ih =>
    simp only [State.pullN, State.pull8_eq, State.pullSlot_zero_setSp] at h
    rw [State.pullSlot_setSp, State.setSp_readByte] at h
    cases hr : s.readByte (s.pullSlot (i + 1)) with
    | error e => rw [hr] at h; cases h
    | ok b =>
      rw [hr] at h
      simp only [Except.map, bind, Except.bind] at h
      cases hn : (s.setSp (s.pullSlot (i + 1))).pullN n with
      | error e => rw [hn] at h; cases h
      | ok r =>
        intro j hj
        cases j with
        | zero => exact isOk_iff.2 ⟨b, hr⟩
        | succ j =>
          have := ih (i + 1) hn j (by omega)
          rwa [show i + 1 + 1 + j = i + 1 + (j + 1) by omega] at this

end Sys2Proof.Machine
end

