-- ==== Sys2Proof/Laws/Enter.lean ====
section
/-! SUPPORT. Taking an exception: everything `enter` can do. -/

namespace Sys2Proof.Machine

/-! ## The frame's slots -/

theorem State.enterMode_restricted (s : State) : s.enterMode.restricted = false := by simp [State.restricted]

theorem State.enterMode_pushSlot (s : State) (j : Nat) : s.enterMode.pushSlot j = s.frameSlot j := by
  simp [State.pushSlot, State.enterMode_restricted, State.sp, State.frameSlot]

theorem State.enterMode_physicalAddr (s : State) (addr : Word) : s.enterMode.physicalAddr addr = s.hypervisorAddr addr := by
  rw [State.physicalAddr_hypervisor (by simp)]; simp [State.hypervisorAddr]

/-- The bytes an entry pushes, the first one first. -/
def State.frameBytes (s : State) (c : Cause) (ra : Word) : List Byte :=
  beBytes ra s.entryBytes ++ [s.esr.toByte, s.sr.toByte c.bBit]

@[simp] theorem State.frameBytes_length (s : State) (c : Cause) (ra : Word) :
    (s.frameBytes c ra).length = s.entryBytes + 2 := by simp [State.frameBytes]

theorem Cause.bBit_eq (c : Cause) : c.bBit = decide (c = .brk) := by cases c <;> rfl

theorem State.frameBytes_get (s : State) (c : Cause) (ra : Word) (j : Nat) (hj : j < s.entryBytes + 2) :
    (s.frameBytes c ra)[j]? = some (s.frameByte c ra j) := by
  unfold State.frameBytes State.frameByte
  by_cases h1 : j < s.entryBytes
  · rw [List.getElem?_append_left (by simpa using h1), beBytes_get ra _ j h1, if_pos h1]
  · rw [List.getElem?_append_right (by simpa using h1), beBytes_length, if_neg h1]
    by_cases h2 : j = s.entryBytes
    · simp [h2]
    · have h3 : j = s.entryBytes + 1 := by omega
      rw [if_neg h2, h3, Nat.add_sub_cancel_left, Cause.bBit_eq]; rfl

/-! ## The return address -/

theorem div_ne_zero_iff_le (x : Nat) {b : Nat} (hb : 0 < b) : ¬(x / b = 0) ↔ b ≤ x := by
  rw [Nat.div_eq_zero_iff]
  omega

theorem raTooWide_eq (w : Width) (k : Nat) (ra : Word) (hk : 8 * k ≤ w.bits) : raTooWide w k ra = !raFits w k ra := by
  have hlt := Nat.mod_lt ra.toNat (Nat.two_pow_pos w.bits)
  have h0 : (trunc w ra >>> (8 * k) != 0) = decide (2 ^ (8 * k) ≤ ra.toNat % 2 ^ w.bits) := by
    rw [Bool.eq_iff_iff]
    simp only [bne_iff_ne, ne_eq, decide_eq_true_eq]
    rw [← BitVec.toNat_inj, BitVec.toNat_ushiftRight, trunc_toNat, Nat.shiftRight_eq_div_pow,
      show (0 : Word).toNat = 0 from rfl]
    exact div_ne_zero_iff_le _ (Nat.two_pow_pos (8 * k))
  unfold raTooWide raFits
  rw [h0]
  by_cases h1 : 8 * k < w.bits
  · rw [decide_eq_true h1, Bool.true_and, ← decide_not]
    exact decide_eq_decide.2 Nat.not_lt.symm
  · have h2 : 8 * k = w.bits := by omega
    rw [h2]; simp [hlt]

/-! ## The vector -/

theorem State.memRead_congr {s t : State} (hp : t.part = s.part) (hc : t.containers = s.containers)
    (hm : t.matchCode = s.matchCode) (hmem : t.mem = s.mem) (addr : Word) (n : Nat) : t.memRead addr n = s.memRead addr n := by
  have hb : ∀ a, t.readByte a = s.readByte a := fun a => by
    simp [State.readByte, State.physicalAddr_congr hp hc hm, hmem]
  have : ∀ a, t.readBytes a n = s.readBytes a n := by
    induction n with
    | zero => intro a; rfl
    | succ n ih => intro a; simp only [State.readBytes, hb, ih, hp]
  simp [State.memRead, this]

theorem State.readBytes_isOk {s : State} {addr : Word} {n : Nat} :
    (∃ vs, s.readBytes addr n = .ok vs) ↔
      ∀ j, j < n → (s.physicalAddr (addW s.part.width addr (BitVec.ofNat 64 j))).isOk = true := by
  induction n generalizing addr with
  | zero => simp [State.readBytes]
  | succ n ih =>
    simp only [State.readBytes]
    have h0 : s.physicalAddr (addW s.part.width addr (BitVec.ofNat 64 0)) = s.physicalAddr addr := by
      simp [addW]
    have hs : ∀ j, addW s.part.width (addW s.part.width addr 1) (BitVec.ofNat 64 j) =
        addW s.part.width addr (BitVec.ofNat 64 (j + 1)) := fun j => by
      rw [addW_addW, Nat.add_comm, BitVec.ofNat_add]
      rfl
    constructor
    · rintro ⟨vs, h⟩ j hj
      cases hr : s.readByte addr with
      | error e => rw [hr] at h; cases h
      | ok v =>
        rw [hr] at h
        simp only [bind, Except.bind] at h
        cases hn : s.readBytes (addW s.part.width addr 1) n with
        | error e => rw [hn] at h; cases h
        | ok us =>
          cases j with
          | zero => rw [h0]; obtain ⟨p, hp, _⟩ := State.readByte_ok.1 hr; exact isOk_iff.2 ⟨p, hp⟩
          | succ j => rw [← hs]; exact ih.1 ⟨us, hn⟩ j (by omega)
    · intro h
      have h1 := h 0 (by omega)
      rw [h0] at h1
      obtain ⟨p, hp⟩ := isOk_iff.1 h1
      have hr : s.readByte addr = .ok (s.mem.read p) := State.readByte_ok.2 ⟨p, hp, rfl⟩
      obtain ⟨us, hus⟩ := (ih (addr := addW s.part.width addr 1)).2 fun j hj => by rw [hs]; exact h (j + 1) (by omega)
      exact ⟨_, by rw [hr, hus]; rfl⟩

theorem State.memRead_isOk {s : State} {addr : Word} {n : Nat} :
    (∃ v, s.memRead addr n = .ok v) ↔
      ∀ j, j < n → (s.physicalAddr (addW s.part.width addr (BitVec.ofNat 64 j))).isOk = true := by
  rw [← State.readBytes_isOk]
  unfold State.memRead
  cases s.readBytes addr n <;> simp [bind, Except.bind]

/-- Reads at several addresses: the bytes one read of each gives. -/
theorem State.readEach_ok {s : State} {addrs : List Word} {vs : List Byte} :
    s.readEach addrs = .ok vs ↔
      vs.length = addrs.length ∧ ∀ (j : Nat) (a : Word) (v : Byte), addrs[j]? = some a → vs[j]? = some v → s.readByte a = .ok v := by
  induction addrs generalizing vs with
  | nil => cases vs <;> simp [State.readEach]
  | cons addr addrs ih =>
    simp only [State.readEach]
    cases hr : s.readByte addr with
    | error e =>
      constructor
      · intro h; cases h
      · rintro ⟨hl, h⟩
        cases vs with
        | nil => simp at hl
        | cons v vs => have := h 0 addr v rfl rfl; rw [hr] at this; cases this
    | ok b =>
      cases hn : s.readEach addrs with
      | error e =>
        constructor
        · intro h; cases h
        · rintro ⟨hl, h⟩
          cases vs with
          | nil => simp at hl
          | cons v vs =>
            have := (ih (vs := vs)).2 ⟨by simpa using hl, fun j a v ha hv => h (j + 1) a v ha hv⟩
            rw [hn] at this; cases this
      | ok us =>
        obtain ⟨hlen, hget⟩ := ih.1 hn
        constructor
        · intro h
          cases h
          refine ⟨by simp [hlen], fun j a v ha hv => ?_⟩
          cases j with
          | zero => cases ha; cases hv; exact hr
          | succ j => exact hget j a v ha hv
        · rintro ⟨hl, h⟩
          cases vs with
          | nil => simp at hl
          | cons v vs =>
            have h0 := h 0 addr v rfl rfl
            rw [hr] at h0
            have h1 := (ih (vs := vs)).2 ⟨by simpa using hl, fun j a v ha hv => h (j + 1) a v ha hv⟩
            rw [hn] at h1
            cases h0; cases h1; rfl

theorem State.readEach_isOk {s : State} {addrs : List Word} :
    (∃ vs, s.readEach addrs = .ok vs) ↔ ∀ a ∈ addrs, (s.physicalAddr a).isOk = true := by
  induction addrs with
  | nil => simp [State.readEach]
  | cons addr addrs ih =>
    rw [List.forall_mem_cons, ← ih]
    simp only [State.readEach, State.readByte, isOk_iff]
    cases s.physicalAddr addr <;> cases s.readEach addrs <;> simp [bind, Except.bind]

theorem vectorBase_low (v : Word) : v.setWidth 8 = (0 : Byte) ↔ v.toNat % 256 = 0 := by
  rw [← BitVec.toNat_inj, BitVec.toNat_setWidth]; rfl

/-- `VecTarget` in hypervisor mode: where it answers, and what. -/
theorem State.vecTarget_ok {s : State} {kind : EventKind} {n target : Word} :
    s.vecTarget kind n = .ok target ↔
      (s.vectorBase kind).toNat % 256 = 0 ∧
        match s.part.vecFormat with
        | .table stride bytes => ∃ v, s.memRead (vectorPlace s.part.width (s.vectorBase kind) n stride) bytes = .ok v ∧
            target = trunc s.part.width v
        | .code stride => target = vectorPlace s.part.width (s.vectorBase kind) n stride
        | .free bytes => ∃ vs, s.readEach ((List.range bytes).map (Config.freeVecPlace kind n (s.vectorBase kind))) = .ok vs ∧
            target = trunc s.part.width (Config.freeVecTarget kind n (s.vectorBase kind) vs) := by
  unfold State.vecTarget
  by_cases h : (s.vectorBase kind).toNat % 256 = 0
  · rw [if_neg (by rw [not_not, vectorBase_low]; exact h)]
    simp only [h, true_and]
    cases s.part.vecFormat with
    | table stride bytes =>
      simp only
      cases s.memRead (vectorPlace s.part.width (s.vectorBase kind) n stride) bytes <;>
        simp [duringEntry, bind, Except.bind, eq_comm]
    | code stride => simp [eq_comm]
    | free bytes =>
      simp only
      cases s.readEach ((List.range bytes).map (Config.freeVecPlace kind n (s.vectorBase kind))) <;>
        simp [duringEntry, bind, Except.bind, eq_comm]
  · rw [if_pos (by rw [ne_eq, vectorBase_low]; exact h)]
    simp [h]

theorem State.vecTarget_fits {s : State} {kind : EventKind} {n target : Word} (h : s.vecTarget kind n = .ok target) :
    fitsW s.part.width target = true := by
  have := (State.vecTarget_ok.1 h).2
  cases hv : s.part.vecFormat with
  | table stride bytes => rw [hv] at this; obtain ⟨v, _, rfl⟩ := this; simp
  | code stride => rw [hv] at this; rw [this]; exact fitsW_addW ..
  | free bytes => rw [hv] at this; obtain ⟨vs, _, rfl⟩ := this; simp

/-! ## The entry -/

theorem duringEntry_ok {α : Type} {x : Except TranslationMiss α} {v : α} : duringEntry x = .ok v ↔ x = .ok v := by
  cases x <;> simp [duringEntry]

/-- Where an entry answers, and the state it answers. -/
theorem State.enter_ok {s t : State} {c : Cause} {ra : Word} :
    s.enter c ra = .ok t ↔
      8 * s.entryBytes ≤ s.part.width.bits ∧ raFits s.part.width s.entryBytes ra = true ∧
        ∃ u target, s.enterMode.pushBytes (s.frameBytes c ra) = .ok u ∧
          ((u.setSr s.entrySr).setEim (s.entryEim c)).vecTarget (c.kind s.part) (c.number s.part) = .ok target ∧
          t = ((u.setSr s.entrySr).setEim (s.entryEim c)).setPc target := by
  unfold State.enter
  change (if s.part.width.bits < 8 * s.entryBytes then _ else if raTooWide s.part.width s.entryBytes ra = true then _ else _) = _ ↔ _
  by_cases h1 : s.part.width.bits < 8 * s.entryBytes
  · simp [if_pos h1, Nat.not_le.2 h1]
  · have h1' := Nat.le_of_not_lt h1
    rw [if_neg h1, raTooWide_eq _ _ _ h1']
    cases h2 : raFits s.part.width s.entryBytes ra with
    | false => simp
    | true =>
      simp only [Bool.not_true, Bool.false_eq_true, if_false, h1', true_and]
      rw [State.pushFrame_eq]
      change (duringEntry (s.enterMode.pushBytes (s.frameBytes c ra)) >>= _) = _ ↔ _
      cases s.enterMode.pushBytes (s.frameBytes c ra) with
      | error e => simp [duringEntry, bind, Except.bind]
      | ok u =>
        simp only [duringEntry, bind, Except.bind]
        cases hv : ((u.setSr s.entrySr).setEim (s.entryEim c)).vecTarget (c.kind s.part) (c.number s.part) with
        | error e => simp [hv]
        | ok target => simp [hv, eq_comm]

/-- The state after an entry: what changes is ESR.H, S(H), SR, EIM, PC, memory and the record of writes. -/
structure EntryShape (s : State) (c : Cause) (t : State) : Prop where
  shape : t = { s with
    esr := ⟨true, s.esr.sf⟩, sh := s.frameSlot (s.entryBytes + 2), sr := s.entrySr, eim := s.entryEim c, pc := t.pc,
    mem := t.mem, written := t.written }
  pcFits : fitsW s.part.width t.pc = true
  memory : s.memoryCanonical = true → t.memoryCanonical = true
  written : s.writtenCanonical = true → t.writtenCanonical = true

theorem State.pushBytes_frame_shape {s u : State} {c : Cause} {ra : Word}
    (h : s.enterMode.pushBytes (s.frameBytes c ra) = .ok u) :
    u = { s with esr := ⟨true, s.esr.sf⟩, sh := s.frameSlot (s.entryBytes + 2), mem := u.mem, written := u.written } := by
  have e := State.pushBytes_effect h
  rw [e.rest]
  have hne : s.frameBytes c ra ≠ [] := by
    intro h0; have := State.frameBytes_length s c ra; rw [h0] at this; simp at this
  simp only [hne, if_false, State.enterMode_pushSlot, State.frameBytes_length]
  simp [State.setSp, State.enterMode, State.setEsr]

theorem State.enter_shape {s t : State} {c : Cause} {ra : Word} (h : s.enter c ra = .ok t) : EntryShape s c t := by
  obtain ⟨_, _, u, target, hu, htarget, rfl⟩ := State.enter_ok.1 h
  have hs := State.pushBytes_frame_shape hu
  have e := State.pushBytes_effect hu
  have hpart : u.part = s.part := by rw [hs]
  refine ⟨?_, ?_, ?_, ?_⟩
  · rw [hs]; rfl
  · have := State.vecTarget_fits htarget
    simpa [hpart] using this
  · intro hm
    have := e.memory ((State.memoryCanonical_congr (by simp) (by simp)).trans hm)
    exact (State.memoryCanonical_congr (by simp) (by simp)).trans this
  · intro hw
    have := e.written ((State.writtenCanonical_congr (by simp) (by simp)).trans hw)
    exact (State.writtenCanonical_congr (by simp) (by simp)).trans this

/-- What an entry that answers has done. -/
theorem State.enter_effect {s t : State} {c : Cause} {ra : Word} (h : s.enter c ra = .ok t) (hm : s.mem.wf = true) :
    EntryEffect s c ra t := by
  obtain ⟨_, _, u, target, hu, htarget, ht⟩ := State.enter_ok.1 h
  have hs := State.pushBytes_frame_shape hu
  have e := State.pushBytes_effect hu
  have hmem : t.mem = u.mem := by rw [ht]; rfl
  have sh := (State.enter_shape h).shape
  have hv := (State.vecTarget_ok.1 htarget).2
  refine ⟨by rw [sh], by rw [sh]; rfl, by rw [sh], by rw [sh]; rfl, by rw [sh]; cases c <;> rfl, ?_, ?_, ?_, ?_,
    by rw [sh]; constructor <;> rfl, by rw [sh]; constructor <;> rfl⟩
  · have hb : ((u.setSr s.entrySr).setEim (s.entryEim c)).vectorBase (c.kind s.part) = s.vectorBase (c.kind s.part) := by
      rw [hs]; cases c.kind s.part <;> rfl
    have hp : ((u.setSr s.entrySr).setEim (s.entryEim c)).part = s.part := by rw [hs]; rfl
    rw [hb, hp] at hv
    unfold VectorTaken State.vectorAt
    cases hf : s.part.vecFormat with
    | table stride bytes =>
      rw [hf] at hv
      obtain ⟨v, h1, h2⟩ := hv
      refine ⟨v, ?_, by rw [ht]; exact h2⟩
      rw [← h1]
      exact State.memRead_congr (by rw [ht]; rfl) (by rw [ht]; rfl) (by rw [ht]; rfl) (by rw [ht]; rfl) _ _
    | code stride => rw [hf] at hv; rw [ht]; exact hv
    | free bytes =>
      rw [hf] at hv
      obtain ⟨vs, h1, h2⟩ := hv
      obtain ⟨hl, hget⟩ := State.readEach_ok.1 h1
      refine ⟨vs, by simpa using hl, fun j v hj => ?_, by rw [ht]; exact h2⟩
      have hlt : j < bytes := by
        have := (List.getElem?_eq_some_iff.1 hj).1
        rwa [hl, List.length_map, List.length_range] at this
      rw [ht]
      exact hget j _ v (by simp [hlt]) hj
  · intro j p hj hp hlast
    rw [hmem]
    refine e.byte (by simpa using hm) j p _ (State.frameBytes_get s c ra j hj) ?_ ?_
    · rw [State.enterMode_pushSlot, State.enterMode_physicalAddr]; exact hp
    · intro i hji hi
      rw [State.enterMode_pushSlot, State.enterMode_physicalAddr]
      exact hlast i hji (by simpa using hi)
  · intro p hp
    rw [hmem, e.other (by simpa using hm) p]
    · rfl
    · intro j hj
      rw [State.enterMode_pushSlot, State.enterMode_physicalAddr]
      exact hp j (by simpa using hj)
  · intro p
    rw [show t.written = u.written by rw [ht]; rfl, e.marks]
    simp only [State.enterMode_pushSlot, State.enterMode_physicalAddr, State.frameBytes_length, State.enterMode_written]

/-- An entry answers exactly where the frame fits and is mapped and the vector can be taken. -/
theorem State.enter_isOk {s : State} {c : Cause} {ra : Word} : (∃ t, s.enter c ra = .ok t) ↔ s.entryReady c ra = true := by
  have hmap : (∃ u, s.enterMode.pushBytes (s.frameBytes c ra) = .ok u) ↔ s.frameMapped = true := by
    rw [State.pushBytes_ok_iff]
    simp only [State.frameBytes_length, State.enterMode_pushSlot, State.enterMode_physicalAddr, State.frameMapped,
      List.all_eq_true, List.mem_range, isOk_iff]
  have hvec : ∀ u, s.enterMode.pushBytes (s.frameBytes c ra) = .ok u →
      ((∃ target, ((u.setSr s.entrySr).setEim (s.entryEim c)).vecTarget (c.kind s.part) (c.number s.part) = .ok target) ↔
        (s.vectorBase (c.kind s.part)).toNat % 256 = 0 ∧ s.vectorMapped c = true) := by
    intro u hu
    have hs := State.pushBytes_frame_shape hu
    have hb : ((u.setSr s.entrySr).setEim (s.entryEim c)).vectorBase (c.kind s.part) = s.vectorBase (c.kind s.part) := by
      rw [hs]; cases c.kind s.part <;> rfl
    have hp : ((u.setSr s.entrySr).setEim (s.entryEim c)).part = s.part := by rw [hs]; rfl
    have hpa : ∀ addr, ((u.setSr s.entrySr).setEim (s.entryEim c)).physicalAddr addr = s.hypervisorAddr addr := by
      intro addr; rw [hs]; rfl
    simp only [State.vecTarget_ok, hb, hp, State.vectorMapped, State.vectorAt]
    cases hf : s.part.vecFormat with
    | table stride bytes =>
      simp only [exists_and_left, List.all_eq_true, List.mem_range]
      rw [and_congr_right_iff]
      intro _
      have := State.memRead_isOk (s := (u.setSr s.entrySr).setEim (s.entryEim c))
        (addr := vectorPlace s.part.width (s.vectorBase (c.kind s.part)) (c.number s.part) stride) (n := bytes)
      simp only [hp, hpa] at this
      rw [← this]
      constructor
      · rintro ⟨_, v, hv, _⟩; exact ⟨v, hv⟩
      · rintro ⟨v, hv⟩; exact ⟨_, v, hv, rfl⟩
    | code stride => simp
    | free bytes =>
      simp only [exists_and_left, List.all_eq_true, List.mem_range]
      rw [and_congr_right_iff]
      intro _
      have := State.readEach_isOk (s := (u.setSr s.entrySr).setEim (s.entryEim c))
        (addrs := (List.range bytes).map
          (Config.freeVecPlace (c.kind s.part) (c.number s.part) (s.vectorBase (c.kind s.part))))
      simp only [hpa, List.forall_mem_map, List.mem_range] at this
      rw [← this]
      constructor
      · rintro ⟨_, vs, hvs, _⟩; exact ⟨vs, hvs⟩
      · rintro ⟨vs, hvs⟩; exact ⟨_, vs, hvs, rfl⟩
  simp only [State.enter_ok, State.entryReady, Bool.and_eq_true, decide_eq_true_eq]
  constructor
  · rintro ⟨t, h1, h2, u, target, hu, htarget, _⟩
    obtain ⟨h3, h4⟩ := (hvec u hu).1 ⟨target, htarget⟩
    exact ⟨⟨⟨⟨h1, h2⟩, hmap.1 ⟨u, hu⟩⟩, h3⟩, h4⟩
  · rintro ⟨⟨⟨⟨h1, h2⟩, h3⟩, h4⟩, h5⟩
    obtain ⟨u, hu⟩ := hmap.2 h3
    obtain ⟨target, htarget⟩ := (hvec u hu).2 ⟨h4, h5⟩
    exact ⟨_, h1, h2, u, target, hu, htarget, rfl⟩

end Sys2Proof.Machine
end

