-- ==== Sys2Proof/Laws/Return.lean ====
section
/-! SUPPORT. The return from an exception: everything `returnFromFrame` can do. -/

namespace Sys2Proof.Machine

theorem raBytes_le_eight (w : Width) (sf : BitVec 2) : raBytes w sf ≤ 8 := by revert sf; cases w <;> decide

theorem raBytes_pos (w : Width) (sf : BitVec 2) : 2 ≤ raBytes w sf := by revert sf; cases w <;> decide

theorem State.pulledValue_eq (s : State) (i n : Nat) :
    s.pulledValue i n = leValue ((List.range n).map fun j => s.pulled (i + 1 + j)) := by
  induction n generalizing i with
  | zero => rfl
  | succ n ih =>
    rw [List.range_succ_eq_map, List.map_cons, List.map_map, leValue, State.pulledValue, ih]
    simp only [Nat.add_zero, Function.comp_def]
    congr 4
    funext j
    congr 1; omega

theorem State.pulledValue_byte (s : State) (i n j : Nat) (hj : j < 8) :
    (s.pulledValue i n >>> (8 * j)).setWidth 8 = if j < n then s.pulled (i + 1 + j) else (0 : Byte) := by
  rw [State.pulledValue_eq, leValue_byte _ j hj]
  by_cases h : j < n
  · simp [h]
  · simp [h]

theorem State.pulledValue_lt (s : State) (i n : Nat) : (s.pulledValue i n).toNat < 2 ^ (8 * n) := by
  rw [State.pulledValue_eq]
  have := leValue_lt ((List.range n).map fun j => s.pulled (i + 1 + j))
  simpa using this

/-- The state a return without an abort answers. -/
def State.returned (s : State) (mn : ReturnKind) : State :=
  ((((s.setSp (s.pullSlot (s.returnBytes + 2))).setSr (StatusReg.ofByte (s.pulled 1))).setEsr
    (ExtStatusReg.ofByte (s.pulled 2))).setEim (s.returnEim mn)).setPc (trunc s.part.width (s.pulledValue 2 s.returnBytes))

theorem State.stackedSf_eq (s : State) : (ExtStatusReg.ofByte (s.pulled 2)).sf = s.stackedSf := rfl

theorem duringEntry_error {α : Type} {x : Except TranslationMiss α} (h : x.isOk = false) :
    ∃ why, duringEntry x = .error (.faultDuringEntry why) := by
  cases x with
  | ok v => simp [Except.isOk, Except.toBool] at h
  | error why => exact ⟨why, rfl⟩

theorem State.pull8_isOk (s : State) : s.pull8.isOk = (s.readByte (s.pullSlot 1)).isOk := by
  rw [State.pull8_eq]; cases s.readByte (s.pullSlot 1) <;> rfl

theorem State.pullN_isOk (s : State) (i n : Nat) :
    ((s.setSp (s.pullSlot i)).pullN n).isOk = true ↔ ∀ j, j < n → (s.readByte (s.pullSlot (i + 1 + j))).isOk = true := by
  constructor
  · intro h; obtain ⟨⟨v, t⟩, hv⟩ := isOk_iff.1 h; exact State.pullN_ok i n hv
  · intro h; rw [State.pullN_of_ok i n h]; rfl

/-- A return whose status copies are mapped: the abort, a refusal of a frame too wide, or the pull of the address. -/
theorem State.returnFromFrame_eq {s : State} (mn : ReturnKind) (len : Nat) (h : s.copiesMapped = true) :
    s.returnFromFrame mn len =
      if s.privilegeViolation then s.raiseAbort s.part.abortNoPrivrti len
      else if s.part.width.bits < 8 * s.returnBytes then .error .frameWiderThanW
      else duringEntry ((s.setSp (s.pullSlot 2)).pullN s.returnBytes) >>= fun r =>
        .ok ((((r.2.setSr (StatusReg.ofByte (s.pulled 1))).setEsr (ExtStatusReg.ofByte (s.pulled 2))).setEim
          (s.returnEim mn)).setPc (trunc s.part.width r.1)) := by
  simp only [State.copiesMapped, Bool.and_eq_true] at h
  have h1 := State.pull8_of_ok h.1
  have h2 : (s.setSp (s.pullSlot 1)).pull8 = .ok (s.pulled 2, s.setSp (s.pullSlot 2)) := by
    rw [State.pull8_of_ok]
    · rw [State.pulled_setSp, State.pullSlot_zero_setSp]
    · rw [State.pullSlot_setSp, State.setSp_readByte]; exact h.2
  unfold State.returnFromFrame
  simp only [h1, duringEntry, bind, Except.bind, h2]
  rfl

theorem State.returnFromFrame_unmapped {s : State} (mn : ReturnKind) (len : Nat) (h : s.copiesMapped = false) :
    ∃ why, s.returnFromFrame mn len = .error (.faultDuringEntry why) := by
  unfold State.returnFromFrame
  simp only [State.copiesMapped, Bool.and_eq_false_iff] at h
  cases h1 : s.pull8 with
  | error why => exact ⟨why, rfl⟩
  | ok r =>
    have hok : (s.readByte (s.pullSlot 1)).isOk = true := by rw [← State.pull8_isOk, h1]; rfl
    have hr := State.pull8_of_ok hok
    rw [hr] at h1
    cases h1
    rcases h with h | h
    · rw [h] at hok; cases hok
    · have : (s.setSp (s.pullSlot 1)).pull8.isOk = false := by
        rw [State.pull8_isOk, State.pullSlot_setSp, State.setSp_readByte]; exact h
      obtain ⟨why, hw⟩ := duringEntry_error this
      exact ⟨why, by simp only [duringEntry, bind, Except.bind] at *; rw [hw]⟩

/-- A return that is ready answers this state. -/
theorem State.returnFromFrame_ready {s : State} (mn : ReturnKind) (len : Nat) (h : s.returnReady = true) :
    s.returnFromFrame mn len = .ok (s.returned mn) := by
  simp only [State.returnReady, Bool.and_eq_true, decide_eq_true_eq, Bool.not_eq_eq_eq_not, Bool.not_true] at h
  obtain ⟨⟨⟨h1, h2⟩, h3⟩, h4⟩ := h
  rw [State.returnFromFrame_eq mn len h1, h2, if_neg (by decide), if_neg (by omega), State.pullN_of_ok 2]
  · simp only [duringEntry, bind, Except.bind, State.returned, Nat.add_comm 2]
  · intro j hj
    have := List.all_eq_true.1 h4 j (by simpa using hj)
    rwa [show j + 3 = 2 + 1 + j by omega] at this

/-- A return that answers a state was ready and answers that state, or met the PRIVRTI condition and took the abort. -/
theorem State.returnFromFrame_ok {s t : State} {mn : ReturnKind} {len : Nat} (h : s.returnFromFrame mn len = .ok t) :
    (s.returnReady = true ∧ t = s.returned mn) ∨
      (s.copiesMapped = true ∧ s.privilegeViolation = true ∧ s.raiseAbort s.part.abortNoPrivrti len = .ok t) := by
  cases h1 : s.copiesMapped with
  | false => obtain ⟨why, hw⟩ := State.returnFromFrame_unmapped mn len h1; rw [hw] at h; cases h
  | true =>
    have heq := State.returnFromFrame_eq mn len h1
    rw [h] at heq
    cases h2 : s.privilegeViolation with
    | true => rw [h2, if_pos rfl] at heq; exact .inr ⟨rfl, rfl, heq.symm⟩
    | false =>
      rw [h2, if_neg (by decide)] at heq
      by_cases h3 : s.part.width.bits < 8 * s.returnBytes
      · rw [if_pos h3] at heq; cases heq
      · rw [if_neg h3] at heq
        have hready : s.returnReady = true := by
          simp only [State.returnReady, Bool.and_eq_true, decide_eq_true_eq, h1, h2, true_and, Bool.not_false]
          refine ⟨by omega, ?_⟩
          cases hp : ((s.setSp (s.pullSlot 2)).pullN s.returnBytes) with
          | error e => rw [hp] at heq; cases heq
          | ok r =>
            have := (State.pullN_isOk s 2 s.returnBytes).1 (by rw [hp]; rfl)
            simp only [State.returnMapped, List.all_eq_true, List.mem_range]
            intro j hj
            have := this j hj
            rwa [show 2 + 1 + j = j + 3 by omega] at this
        left
        refine ⟨hready, ?_⟩
        have := State.returnFromFrame_ready mn len hready
        rw [h] at this
        exact Except.ok.inj this

/-- What a return without an abort has done. -/
theorem State.returned_effect {s : State} (mn : ReturnKind) (hk : 8 * s.returnBytes ≤ s.part.width.bits) :
    ReturnEffect s (s.returned mn) := by
  have hpc : trunc s.part.width (s.pulledValue 2 s.returnBytes) = s.pulledValue 2 s.returnBytes :=
    (fitsW_iff _ _).1 (fitsW_of_lt (Nat.lt_of_lt_of_le (s.pulledValue_lt 2 _) (Nat.pow_le_pow_right (by decide) hk)))
  refine ⟨rfl, rfl, rfl, rfl, rfl, rfl, rfl, rfl, ?_, by simp [State.returned], ?_, ?_, ?_, ?_, ?_⟩
  · intro j hj
    change ((trunc s.part.width (s.pulledValue 2 s.returnBytes)) >>> (8 * j)).setWidth 8 = _
    rw [hpc, State.pulledValue_byte _ _ _ j hj, show 2 + 1 + j = j + 3 by omega]
  · simp [State.returned]
  · simp [State.returned]
  · simp [State.returned]
  · constructor <;> simp [State.returned]
  · constructor <;> simp [State.returned]

end Sys2Proof.Machine
end

