-- ==== Sys2Proof/Laws/Exec.lean ====
section
/-! SUPPORT. What an instruction that answers a next state can have done, said once. -/

namespace Sys2Proof.Machine

@[simp] theorem toOutcome_next {x : Except Refusal State} {t : State} : toOutcome x = .next t ↔ x = .ok t := by
  cases x <;> simp [toOutcome]

/-- The entries instructions cause (60 R186). -/
inductive EntryOf (s : State) : Instr → Cause → Word → Prop where
  | brk : EntryOf s .brk .brk (addW s.part.width s.pc s.part.brkRaOffset)
  | trap (operand : TrapOperand) (h : s.trapAllowed (s.trapNumber operand) = true) :
      EntryOf s (.trap operand) (.trap (s.trapNumber operand)) (s.pcAfter (s.len (.trap operand)))
  | rti (hc : s.copiesMapped = true) (h : s.privilegeViolation = true) :
      EntryOf s .rti (.abort s.part.abortNoPrivrti) (s.abortReturn (s.len .rti))
  | rtu (hc : s.copiesMapped = true) (h : s.privilegeViolation = true) :
      EntryOf s .rtu (.abort s.part.abortNoPrivrti) (s.abortReturn (s.len .rtu))
  | cleim (n : Word) (hu : s.esr.h = false) (h : s.part.cleimUser = .abort n) :
      EntryOf s .cleim (.abort n) (s.abortReturn (s.len .cleim))

/-- What an instruction that answers `t` has done: an entry, a return, or a change of a mask. -/
inductive Executed (s : State) : Instr → State → Prop where
  | entry {i : Instr} {c : Cause} {ra : Word} {t : State} (h : EntryOf s i c ra) (ht : s.enter c ra = .ok t) : Executed s i t
  | rti (h : s.returnReady = true) : Executed s .rti (s.returned .rti)
  | rtu (h : s.returnReady = true) : Executed s .rtu (s.returned .rtu)
  | cleim (h : s.esr.h = true) : Executed s .cleim ((s.setEim s.imr).setPc (s.pcAfter (s.len .cleim)))
  | cleimNop (hu : s.esr.h = false) (h : s.part.cleimUser = .nop) : Executed s .cleim (s.setPc (s.pcAfter (s.len .cleim)))
  | sei : Executed s .sei ((s.setSr s.sr.setI).setPc (s.pcAfter (s.len .sei)))

/-- Every next state an instruction answers comes about in one of these ways. -/
theorem executed_of_next {i : Instr} {s t : State} (h : exec i s = .next t) : Executed s i t := by
  cases i with
  | brk => exact .entry .brk (toOutcome_next.1 h)
  | trap operand =>
    simp only [exec, execTrap] at h
    split at h
    · rename_i ha; exact .entry (.trap operand ha) (toOutcome_next.1 h)
    · cases h
  | rti =>
    rcases State.returnFromFrame_ok (toOutcome_next.1 h) with ⟨hr, rfl⟩ | ⟨hc, hp, ht⟩
    · exact .rti hr
    · exact .entry (.rti hc hp) ht
  | rtu =>
    rcases State.returnFromFrame_ok (toOutcome_next.1 h) with ⟨hr, rfl⟩ | ⟨hc, hp, ht⟩
    · exact .rtu hr
    · exact .entry (.rtu hc hp) ht
  | cleim =>
    simp only [exec, execCleim] at h
    split at h
    · rename_i hh; cases h; exact .cleim hh
    · rename_i hh
      have hh : s.esr.h = false := by simpa using hh
      split at h
      · rename_i hn; cases h; exact .cleimNop hh hn
      · rename_i n hn; exact .entry (.cleim n hh hn) (toOutcome_next.1 h)
  | sei => cases h; exact .sei

/-- The PRIVRTI abort of a return. -/
theorem State.returnFromFrame_privrti {s : State} (mn : ReturnKind) (len : Nat) (hc : s.copiesMapped = true)
    (h : s.privilegeViolation = true) : s.returnFromFrame mn len = s.raiseAbort s.part.abortNoPrivrti len := by
  rw [State.returnFromFrame_eq mn len hc, h, if_pos rfl]

/-- No entry of an instruction is an interrupt. -/
theorem EntryOf.not_interrupt {s : State} {i : Instr} {level : Level} {ra : Word} (h : EntryOf s i (.interrupt level) ra) :
    False := by cases h

theorem EntryOf.eim {s : State} {i : Instr} {c : Cause} {ra : Word} (h : EntryOf s i c ra) : s.entryEim c = s.eim := by
  cases h <;> rfl

/-- A fetch that stops and goes on has missed, and the abort given for the miss is entered. -/
theorem State.afterFetchStop_ok {s t : State} {stop : FetchStop} (h : s.afterFetchStop stop = .ok t) :
    ∃ why got n, stop = .miss why got ∧ s.onMiss why = .abort n ∧
      s.enter (.abort n) (s.abortReturn (Config.freeUnfetchedLength got)) = .ok t := by
  cases stop with
  | notInSpec => cases h
  | written => cases h
  | miss why got =>
    simp only [State.afterFetchStop] at h
    cases hm : s.onMiss why with
    | refuse => rw [hm] at h; cases h
    | abort n => rw [hm] at h; exact ⟨why, got, n, rfl, hm, h⟩

/-- A step that answers a next state entered an interrupt, executed an instruction or took the abort of a fetch. -/
theorem step_next {s t : State} (h : step s = .next t) :
    (∃ level, s.boundaryInterrupt = some level ∧ s.afterBoundary.enter (.interrupt level) s.afterBoundary.pc = .ok t) ∨
      (s.boundaryInterrupt = none ∧
        ((∃ i, s.afterBoundary.fetch = .ok i ∧ exec i s.afterBoundary = .next t) ∨
          ∃ why got n, s.afterBoundary.fetch = .error (.miss why got) ∧
            s.afterBoundary.enter (.abort n) (s.afterBoundary.abortReturn (Config.freeUnfetchedLength got)) = .ok t)) := by
  unfold step at h
  split at h
  · rename_i level hl; exact .inl ⟨level, hl, toOutcome_next.1 h⟩
  · rename_i hn
    split at h
    · rename_i stop hs
      obtain ⟨why, got, n, rfl, _, ht⟩ := State.afterFetchStop_ok (toOutcome_next.1 h)
      exact .inr ⟨hn, .inr ⟨why, got, n, hs, ht⟩⟩
    · rename_i i hi; exact .inr ⟨hn, .inl ⟨i, hi, h⟩⟩

/-! ## The invariant -/

theorem ControlUnchanged.inv_parts {s t : State} (hc : ControlUnchanged s t) (hi : s.inv = true)
    (hpc : fitsW s.part.width t.pc = true) (hsu : fitsW s.part.width t.su = true) (hsh : fitsW s.part.width t.sh = true)
    (hm : t.memoryCanonical = true) (hw : t.writtenCanonical = true) : t.inv = true := by
  simp only [State.inv, State.registersFit, State.containersFit, List.all_cons, List.all_nil, Bool.and_eq_true, hc.a, hc.x,
    hc.y, hc.e, hc.b, hc.iv, hc.tv, hc.av, hc.tmv, hc.containers, hc.part] at hi ⊢
  obtain ⟨⟨⟨⟨hr, hcf⟩, _⟩, _⟩, hp⟩ := hi
  obtain ⟨_, ha, hx, hy, he, hb, _, _, hrest⟩ := hr
  exact ⟨⟨⟨⟨⟨hpc, ha, hx, hy, he, hb, hsu, hsh, hrest⟩, hcf⟩, hm⟩, hw⟩, hp⟩

theorem State.inv_memoryCanonical {s : State} (h : s.inv = true) : s.memoryCanonical = true := by
  simp only [State.inv, Bool.and_eq_true] at h; exact h.1.1.2

theorem State.inv_writtenCanonical {s : State} (h : s.inv = true) : s.writtenCanonical = true := by
  simp only [State.inv, Bool.and_eq_true] at h; exact h.1.2

theorem State.inv_memWf {s : State} (h : s.inv = true) : s.mem.wf = true := by
  have := State.inv_memoryCanonical h
  simp only [State.memoryCanonical, Bool.and_eq_true] at this; exact this.1

theorem State.inv_fits {s : State} (h : s.inv = true) :
    fitsW s.part.width s.pc = true ∧ fitsW s.part.width s.su = true ∧ fitsW s.part.width s.sh = true := by
  simp only [State.inv, State.registersFit, List.all_cons, List.all_nil, Bool.and_eq_true] at h
  obtain ⟨⟨⟨⟨hr, _⟩, _⟩, _⟩, _⟩ := h
  exact ⟨hr.1, hr.2.2.2.2.2.2.1, hr.2.2.2.2.2.2.2.1⟩

/-- The slots of a return are addresses of `W` bits. -/
theorem State.pullSlot_fits (s : State) (j : Nat) : fitsW s.part.width (s.pullSlot j) = true := by
  rw [State.pullSlot_eq]
  split
  · apply fitsW_of_lt
    rw [inPageOne_toNat]
    have : 512 ≤ 2 ^ s.part.width.bits := by cases s.part.width <;> decide
    have := Nat.mod_lt (s.sp + BitVec.ofNat 64 j).toNat (show 0 < 256 by decide)
    omega
  · exact fitsW_addW ..

end Sys2Proof.Machine
end

