-- ==== Sys2Proof/Laws/Fetch.lean ====
section
/-! SUPPORT. Instruction fetch: what it answers on the bytes at PC. -/

namespace Sys2Proof.Machine

/-- What a fetch makes of a scan of all the bytes it needs. -/
def scanAnswer : Scan → Except FetchStop Instr
  | .found i _ => .ok i
  | .incomplete => .error .notInSpec
  | .notInSpec => .error .notInSpec

theorem State.fetchByte_of {s : State} {got : List Byte} {p : Nat} (h : s.physicalAddr (s.pcAfter got.length) = .ok p)
    (hf : s.mayFetch p = true) : s.fetchByte got = .ok (s.mem.read p) := by
  simp [State.fetchByte, h, hf]

/-- A fetch reads bytes as long as they are incomplete, and then answers what the decoder says of them. -/
theorem State.fetchFrom_of {s : State} {bytes : List Byte} (hb : s.bytesAtPc bytes)
    (hi : ∀ n, n < bytes.length → decode s.part.encoding (bytes.take n) = .incomplete)
    (hd : decode s.part.encoding bytes ≠ .incomplete) (m fuel : Nat) (hm : m ≤ bytes.length)
    (hfuel : bytes.length < fuel + m) :
    s.fetchFrom fuel (bytes.take m) = scanAnswer (decode s.part.encoding bytes) := by
  induction fuel generalizing m with
  | zero => omega
  | succ fuel ih =>
    unfold State.fetchFrom
    by_cases hlast : m = bytes.length
    · subst hlast
      rw [List.take_length]
      cases h : decode s.part.encoding bytes with
      | found i rest => rfl
      | incomplete => exact absurd h hd
      | notInSpec => rfl
    · have hlt : m < bytes.length := by omega
      rw [hi m hlt]
      have hlen : (bytes.take m).length = m := by simp; omega
      obtain ⟨p, hp, hf, hr⟩ := hb m bytes[m] (List.getElem?_eq_getElem hlt)
      rw [← hlen] at hp
      simp only [State.fetchByte_of hp hf, bind, Except.bind, hr]
      have : bytes.take m ++ [bytes[m]] = bytes.take (m + 1) := by rw [List.take_succ_eq_append_getElem hlt]
      rw [this]
      exact ih (m + 1) (by omega) (by omega)

theorem foldr_max_ge (ns : List Nat) (n : Nat) (h : n ∈ ns) : n ≤ ns.foldr max 0 := by
  induction ns with
  | nil => cases h
  | cons k ks ih =>
    rcases List.mem_cons.1 h with rfl | h
    · exact Nat.le_max_left ..
    · exact Nat.le_trans (ih h) (Nat.le_max_right ..)

/-! ## Bytes that do not yet make an instruction -/

theorem Scan.orElse_incomplete {x y : Scan} (h : x.orElse y = .incomplete) : x = .incomplete ∨ y = .incomplete := by
  cases x <;> cases y <;> simp_all [Scan.orElse]

/-- An opcode is incomplete where it is not there whole, or where what follows it is. -/
theorem scanOpcode_incomplete {opcode bytes : List Byte} {k : List Byte → Scan} (h : scanOpcode opcode k bytes = .incomplete) :
    bytes.length < opcode.length ∨
      ∃ rest, bytes.length = opcode.length + rest.length ∧ k rest = .incomplete := by
  induction opcode generalizing bytes with
  | nil => exact .inr ⟨bytes, by simp, h⟩
  | cons o os ih =>
    cases bytes with
    | nil => exact .inl (by simp)
    | cons b bs =>
      simp only [scanOpcode] at h
      split at h
      · rcases ih h with h | ⟨rest, hl, hk⟩
        · exact .inl (by simpa using h)
        · exact .inr ⟨rest, by simp [hl]; omega, hk⟩
      · cases h

theorem scanFixed_incomplete {opcode bytes : List Byte} {i : Instr} (h : scanFixed opcode i bytes = .incomplete) :
    bytes.length < opcode.length := by
  rcases scanOpcode_incomplete h with h | ⟨_, _, h⟩
  · exact h
  · cases h

theorem scanOperand_incomplete {n : Nat} {f : List Byte → Instr} {bytes : List Byte} (h : scanOperand n f bytes = .incomplete) :
    bytes.length < n := by
  unfold scanOperand at h
  split at h
  · assumption
  · cases h

theorem scanTrapRows_incomplete {rows : List (List Byte × Word)} {bytes : List Byte}
    (h : scanTrapRows rows bytes = .incomplete) : bytes.length < (rows.map fun row => row.1.length).foldr max 0 := by
  induction rows with
  | nil => cases h
  | cons row rows ih =>
    rw [List.map_cons, List.foldr_cons]
    rcases Scan.orElse_incomplete h with h | h
    · exact Nat.lt_of_lt_of_le (scanFixed_incomplete h) (Nat.le_max_left ..)
    · exact Nat.lt_of_lt_of_le (ih h) (Nat.le_max_right ..)

theorem scanTrap_incomplete {t : TrapEncoding} {bytes : List Byte} (h : scanTrap t bytes = .incomplete) :
    bytes.length < t.maxLength := by
  cases t with
  | immediate opcode n =>
    rcases scanOpcode_incomplete h with h | ⟨rest, hl, h⟩
    · simp only [TrapEncoding.maxLength]; omega
    · have := scanOperand_incomplete h; simp only [TrapEncoding.maxLength]; omega
  | register opcode r => exact scanFixed_incomplete h
  | inOpcode rows => exact scanTrapRows_incomplete h
  | free opcode n =>
    rcases scanOpcode_incomplete h with h | ⟨rest, hl, h⟩
    · simp only [TrapEncoding.maxLength]; omega
    · have := scanOperand_incomplete h; simp only [TrapEncoding.maxLength]; omega

/-- Bytes that do not yet make an instruction are fewer than the longest instruction has. -/
theorem decode_incomplete {e : Encoding} {bytes : List Byte} (h : decode e bytes = .incomplete) :
    bytes.length < e.maxLength := by
  have hmax : ∀ n ∈ [e.brk.length, e.rti.length, e.rtu.length, e.cleim.length, e.sei.length, e.trap.maxLength],
      n ≤ e.maxLength := fun n hn => foldr_max_ge _ n hn
  simp only [List.forall_mem_cons] at hmax
  obtain ⟨h1, h2, h3, h4, h5, h6, _⟩ := hmax
  unfold decode at h
  rcases Scan.orElse_incomplete h with h | h
  · exact Nat.lt_of_lt_of_le (scanFixed_incomplete h) h1
  rcases Scan.orElse_incomplete h with h | h
  · exact Nat.lt_of_lt_of_le (scanTrap_incomplete h) h6
  rcases Scan.orElse_incomplete h with h | h
  · exact Nat.lt_of_lt_of_le (scanFixed_incomplete h) h2
  rcases Scan.orElse_incomplete h with h | h
  · exact Nat.lt_of_lt_of_le (scanFixed_incomplete h) h3
  rcases Scan.orElse_incomplete h with h | h
  · exact Nat.lt_of_lt_of_le (scanFixed_incomplete h) h4
  · exact Nat.lt_of_lt_of_le (scanFixed_incomplete h) h5

/-- A fetch that has read bytes that do not yet make an instruction stops where the next byte stops it. -/
theorem State.fetchFrom_stop {s : State} {got : List Byte} {stop : FetchStop} (hb : s.bytesAtPc got)
    (hi : ∀ n, n ≤ got.length → decode s.part.encoding (got.take n) = .incomplete)
    (hstop : s.fetchByte got = .error stop) (m fuel : Nat) (hm : m ≤ got.length) (hfuel : got.length < fuel + m) :
    s.fetchFrom fuel (got.take m) = .error stop := by
  induction fuel generalizing m with
  | zero => omega
  | succ fuel ih =>
    unfold State.fetchFrom
    rw [hi m hm]
    by_cases hlast : m = got.length
    · rw [hlast, List.take_length]
      simp only [hstop, bind, Except.bind]
    · have hlt : m < got.length := by omega
      have hlen : (got.take m).length = m := by simp; omega
      obtain ⟨p, hp, hf, hr⟩ := hb m got[m] (List.getElem?_eq_getElem hlt)
      rw [← hlen] at hp
      simp only [State.fetchByte_of hp hf, bind, Except.bind, hr, List.take_append_getElem]
      exact ih (m + 1) (by omega) (by omega)

/-- The fetch at PC, on bytes that do not yet make an instruction and a next byte that stops it. -/
theorem State.fetch_stop {s : State} {got : List Byte} {stop : FetchStop} (hb : s.bytesAtPc got)
    (hi : ∀ n, n ≤ got.length → decode s.part.encoding (got.take n) = .incomplete)
    (hstop : s.fetchByte got = .error stop) : s.fetch = .error stop := by
  have hlen := decode_incomplete (hi got.length (Nat.le_refl _))
  rw [List.take_length] at hlen
  exact State.fetchFrom_stop hb hi hstop 0 _ (Nat.zero_le _) (by omega)

/-! ## The longest TRAP -/

/-- No TRAP is longer than the longest. -/
theorem encodeTrap_length_le (t : TrapEncoding) (w : Width) (operand : TrapOperand) (h : operand.wf w t = true) :
    (encodeTrap t operand).length ≤ t.maxLength := by
  cases t with
  | immediate opcode n => cases operand <;> simp [encodeTrap, TrapEncoding.maxLength]
  | register opcode r => cases operand <;> simp [encodeTrap, TrapEncoding.maxLength]
  | inOpcode rows =>
    cases operand with
    | imm n =>
      simp only [encodeTrap, TrapEncoding.maxLength]
      apply foldr_max_ge
      simp only [TrapOperand.wf, List.any_eq_true, beq_iff_eq] at h
      obtain ⟨row, hrow, hn⟩ := h
      have := trapRowOpcode_mem (rows := rows) (n := n) (List.mem_map.2 ⟨row, hrow, hn⟩)
      exact List.mem_map.2 ⟨_, this, rfl⟩
    | reg r => simp [encodeTrap]
    | free raw => simp [encodeTrap]
  | free opcode n =>
    cases operand with
    | imm v => simp [encodeTrap, TrapEncoding.maxLength]
    | reg r => simp [encodeTrap, TrapEncoding.maxLength]
    | free raw =>
      simp only [TrapOperand.wf, beq_iff_eq] at h
      simp [encodeTrap, TrapEncoding.maxLength, h]

end Sys2Proof.Machine
end

