-- ==== Sys2Proof/Laws/Operands.lean ====
section
/-! SUPPORT. Registers by name and TRAP's number: what a read gives, and what it depends on. -/

namespace Sys2Proof.Machine

/-- A byte of a register, zero-extended, is read whole. -/
theorem trunc_byte (w : Width) (v : Byte) : (trunc w (v.setWidth 64)).toNat = v.toNat := by
  have hv := v.isLt
  have hw : 2 ^ 8 ≤ 2 ^ w.bits := Nat.pow_le_pow_right (by decide) (by cases w <;> decide)
  have h64 : v.toNat % 2 ^ 64 = v.toNat := Nat.mod_eq_of_lt (by omega)
  rw [trunc_toNat, BitVec.toNat_setWidth, h64, Nat.mod_eq_of_lt (by omega)]

theorem levelByte_toNat (l : Level) : (levelByte l).toNat = l.toNat := by
  have := l.isLt
  rw [levelByte, BitVec.toNat_setWidth]
  omega

/-- TRAP's number is one of `W` bits. -/
theorem State.trapNumber_lt (s : State) (operand : TrapOperand) :
    (s.trapNumber operand).toNat < 2 ^ s.part.width.bits := by
  cases operand <;> exact trunc_lt ..

theorem State.containerReg_of {s : State} {i : Nat} {c : ContainerSet} (h : s.containers.sets[i]? = some c) (r : Reg)
    (f : ContainerSet → Word) : s.containerReg r i f = f c := by
  rw [State.containerReg, h]

/-- The registers of a container set that exists hold values of `W` bits. -/
theorem State.containersFit_get {s : State} (h : s.containersFit = true) {i : Nat} {c : ContainerSet}
    (hc : s.containers.sets[i]? = some c) :
    fitsW s.part.width c.cmask = true ∧ fitsW s.part.width c.ccmp = true ∧ fitsW s.part.width c.cofs = true := by
  have := List.all_eq_true.1 h c (List.mem_of_getElem? hc)
  simpa only [Bool.and_eq_true, and_assoc] using this

end Sys2Proof.Machine
end

