-- ==== Sys2Proof/Laws/PerInstr.lean ====
section
/-! SUPPORT. Facts about every instruction as syntax, one lemma for each constructor. -/

namespace Sys2Proof.Laws.Length

/-- A well-formed instruction is encoded in at least one byte and in no more than the longest instruction has. -/
def Statement (i : Instr) : Prop :=
  ∀ (w : Width) (e : Encoding), e.wf w = true → i.wf w e = true →
    0 < (encode e i).length ∧ (encode e i).length ≤ e.maxLength

theorem opcode_nonempty {w : Width} {e : Encoding} (h : e.wf w = true) {o : List Byte} (ho : o ∈ e.opcodes) :
    0 < o.length := by
  simp only [Encoding.wf, Bool.and_eq_true, List.all_eq_true] at h
  have := h.1.1 o ho
  cases o with
  | nil => simp at this
  | cons b o => simp

theorem le_maxLength {e : Encoding} {n : Nat}
    (h : n ∈ [e.brk.length, e.rti.length, e.rtu.length, e.cleim.length, e.sei.length, e.trap.maxLength]) :
    n ≤ e.maxLength := Machine.foldr_max_ge _ _ h

theorem brk : Statement .brk := fun _ e he _ =>
  ⟨opcode_nonempty he (o := e.brk) (by simp [Encoding.opcodes]), le_maxLength (by simp [encode])⟩

theorem rti : Statement .rti := fun _ e he _ =>
  ⟨opcode_nonempty he (o := e.rti) (by simp [Encoding.opcodes]), le_maxLength (by simp [encode])⟩

theorem rtu : Statement .rtu := fun _ e he _ =>
  ⟨opcode_nonempty he (o := e.rtu) (by simp [Encoding.opcodes]), le_maxLength (by simp [encode])⟩

theorem cleim : Statement .cleim := fun _ e he _ =>
  ⟨opcode_nonempty he (o := e.cleim) (by simp [Encoding.opcodes]), le_maxLength (by simp [encode])⟩

theorem sei : Statement .sei := fun _ e he _ =>
  ⟨opcode_nonempty he (o := e.sei) (by simp [Encoding.opcodes]), le_maxLength (by simp [encode])⟩

theorem trap_opcode_pos {w : Width} {e : Encoding} (h : e.wf w = true) {o : List Byte} (ho : o ∈ e.trap.opcodes) :
    0 < o.length := opcode_nonempty h (by simp [Encoding.opcodes, ho])

theorem trap (operand : TrapOperand) : Statement (.trap operand) := by
  intro w e he hi
  have hi : operand.wf w e.trap = true := hi
  refine ⟨?_, Nat.le_trans (Machine.encodeTrap_length_le e.trap w operand hi) (le_maxLength (by simp))⟩
  have hpos := fun o ho => trap_opcode_pos he (o := o) ho
  simp only [encode]
  cases ht : e.trap with
  | immediate opcode n =>
    have := hpos opcode (by simp [ht, TrapEncoding.opcodes])
    cases operand <;> simp [encodeTrap] <;> omega
  | register opcode r =>
    have := hpos opcode (by simp [ht, TrapEncoding.opcodes])
    cases operand <;> simpa [encodeTrap] using this
  | inOpcode rows =>
    rw [ht] at hi
    cases operand with
    | imm n =>
      simp only [TrapOperand.wf, List.any_eq_true, beq_iff_eq] at hi
      obtain ⟨row, hrow, hn⟩ := hi
      have hm := trapRowOpcode_mem (rows := rows) (n := n) (List.mem_map.2 ⟨row, hrow, hn⟩)
      exact hpos _ (by rw [ht]; exact List.mem_map.2 ⟨_, hm, rfl⟩)
    | reg r => simp [TrapOperand.wf] at hi
    | free raw => simp [TrapOperand.wf] at hi
  | free opcode n =>
    have := hpos opcode (by simp [ht, TrapEncoding.opcodes])
    cases operand <;> simp [encodeTrap] <;> omega

end Sys2Proof.Laws.Length
end

