-- ==== Sys2Proof/Tests/Slice0.lean ====
section
/-! SUPPORT. Tests of the model against the worked examples and vectors of spec 95 and of the rules, and for every
obligation with hypotheses a witness that meets them. Expected values are the spec's, not the model's. -/

namespace Sys2Proof.Tests

open Sys2Proof Sys2Proof.Machine

/-! ## Small states -/

/-- TESTCFG of 95 part 3, for a width; CLEIM_USER = nop and BRK through trap vector 0 beside it. -/
def cfg (w : Width) : Part where
  width := w
  encoding := Config.resetEncoding
  acceptAtEqual := .either
  uimAtEqual := .either
  uimCombine := .and
  entrySetsI := false
  vecFormat := .table w.bytes w.bytes
  brkVector := (.trap, 0)
  brkRaOffset := 2
  abortNoPrivrti := 0
  abortRa := .pc
  cleimUser := .nop
  containerNoHit := .refuse
  containerMultiHit := .refuse
  ifetch := .refuseWritten
  resetPc := 0

/-- Hypervisor mode, SF = 01, everything else zero. -/
def hyp (w : Width) : State := { State.blank (cfg w) with esr := ⟨true, 0b01⟩ }

/-- User mode, SF = 01, everything else zero. -/
def user (w : Width) : State := { State.blank (cfg w) with esr := ⟨false, 0b01⟩ }

/-- The active lines of a list. -/
def linesOf (ls : List Level) : Lines :=
  ⟨ls.contains 1, ls.contains 2, ls.contains 3, ls.contains 4, ls.contains 5, ls.contains 6, ls.contains 7⟩

/-- The outcome is a next state that satisfies `p`. -/
def nextIs (o : Host.Outcome State Fault Refusal) (p : State → Bool) : Bool :=
  match o with
  | .next t => p t
  | .fault _ => false
  | .refused _ => false

/-- The outcome is this refusal. -/
def refusedAs (o : Host.Outcome State Fault Refusal) (r : Refusal) : Bool :=
  match o with
  | .next _ => false
  | .fault _ => false
  | .refused q => q == r

/-- The answer is a state that satisfies `p`. -/
def okIs {ε α : Type} (o : Except ε α) (p : α → Bool) : Bool :=
  match o with
  | .ok t => p t
  | .error _ => false

theorem exists_of_nextIs {o : Host.Outcome State Fault Refusal} {p : State → Bool} (h : nextIs o p = true) :
    ∃ t, o = .next t ∧ p t = true := by
  cases o with
  | next t => exact ⟨t, rfl, h⟩
  | fault r => cases h
  | refused r => cases h

theorem exists_of_okIs {ε α : Type} {o : Except ε α} {p : α → Bool} (h : okIs o p = true) :
    ∃ t, o = .ok t ∧ p t = true := by
  cases o with
  | ok t => exact ⟨t, rfl, h⟩
  | error e => cases h

/-- The bytes of `m` at consecutive addresses. -/
def bytesAt (m : Memory) (a n : Nat) : List Byte := (List.range n).map fun k => m.read (a + k)

/-! ## Well-formedness: each check refuses an ill-formed term -/

theorem test_wf_accepts : Config.resetPart.wf = true ∧ (cfg .w16).wf = true ∧ (cfg .w32).wf = true := by decide

theorem test_wf_refuses_empty_opcode : ({ Config.resetEncoding with rtu := [] } : Encoding).wf .w64 = false := by decide

theorem test_wf_refuses_same_opcode : ({ Config.resetEncoding with sei := [0x40] } : Encoding).wf .w64 = false := by
  decide

theorem test_wf_refuses_prefix_opcode : ({ Config.resetEncoding with cleim := [0x12, 0x01] } : Encoding).wf .w64 = false := by
  decide

theorem test_wf_refuses_wide_immediate : (TrapEncoding.immediate [0x22] 3).wf .w16 = false := by decide

theorem test_wf_refuses_wide_number : (TrapEncoding.inOpcode [([0x22], 0x10000)]).wf .w16 = false := by decide

theorem test_wf_refuses_doubled_number : (TrapEncoding.inOpcode [([0x22], 1), ([0x32], 1)]).wf .w16 = false := by decide

theorem test_wf_refuses_wide_vector : ({ cfg .w16 with vecFormat := .table 4 4 } : Part).wf = false := by decide

theorem test_wf_refuses_operand_too_large : (Instr.trap (.imm 256)).wf .w16 Config.resetEncoding = false := by decide

theorem test_wf_refuses_operand_form :
    (Instr.trap (.reg .a)).wf .w16 Config.resetEncoding = false ∧
      (Instr.trap (.free [1])).wf .w16 Config.resetEncoding = false ∧
      (Instr.trap (.reg .x)).wf .w16 { Config.resetEncoding with trap := .register [0x22] .a } = false ∧
      (Instr.trap (.imm 2)).wf .w16 { Config.resetEncoding with trap := .inOpcode [([0x22], 1)] } = false ∧
      (Instr.trap (.free [1])).wf .w16 { Config.resetEncoding with trap := .free [0x22] 2 } = false := by decide

theorem test_memory_form_refuses : Memory.wf [(2, 1), (1, 1)] = false ∧ Memory.wf [(1, 1), (1, 2)] = false ∧
    Memory.wf [(1, 0)] = false := by decide

/-! ## Decoding -/

/-- opcode_table.json: BRK 00000000, RTI 01000000, SEI 01111000 (30 R112); TESTCFG: CLEIM 02, RTU 12, TRAP 22 nn. -/
theorem test_decode_words :
    decodeTableWord 8 0b00000000 = some .brk ∧ decodeTableWord 8 0b01000000 = some .rti ∧
      decodeTableWord 8 0b01111000 = some .sei ∧ decodeTableWord 8 0b00000010 = some .cleim ∧
      decodeTableWord 8 0b00010010 = some .rtu ∧ decodeTableWord 16 0b1111111100100010 = some (.trap (.imm 255)) := by
  decide

/-- 30 R113: a byte string that is none of the six is not in this spec. -/
theorem test_decode_refuses : decodeTableWord 8 0xFF = none ∧ decode Config.resetEncoding [0xFF] = .notInSpec ∧
    decode Config.resetEncoding [0x22] = .incomplete := by decide

/-- 40 R131: the number in a register, in the opcode, in an operand of two bytes (little-endian, D3), or unstated. -/
theorem test_decode_trap_forms :
    decode { Config.resetEncoding with trap := .register [0x22] .x } [0x22, 0x40] = .found (.trap (.reg .x)) [0x40] ∧
      decode { Config.resetEncoding with trap := .inOpcode [([0x22], 1), ([0x32], 7)] } [0x32] = .found (.trap (.imm 7)) [] ∧
      decode { Config.resetEncoding with trap := .immediate [0x22] 2 } [0x22, 0x34, 0x12] = .found (.trap (.imm 0x1234)) [] ∧
      decode { Config.resetEncoding with trap := .free [0x22] 1 } [0x22, 0x05] = .found (.trap (.free [5])) [] := by
  decide

/-- 30 R114: the whole byte string is matched and nothing shorter. -/
theorem test_decode_whole_string :
    decode { Config.resetEncoding with rtu := [0x12, 0x34] } [0x12] = .incomplete ∧
      decode { Config.resetEncoding with rtu := [0x12, 0x34] } [0x12, 0x34] = .found .rtu [] ∧
      decode { Config.resetEncoding with rtu := [0x12, 0x34] } [0x12, 0x35] = .notInSpec := by decide

/-- The first step after reset runs the instruction placed at PC. -/
theorem test_first_step_runs :
    nextIs (step (State.reset.withFetchWord 8 0x00)) (fun t => t.esr.h && t.sh == 0 - 4) = true ∧
      nextIs (step (State.reset.withFetchWord 8 0x78)) (fun t => t.sr.i && t.pc == 1) = true ∧
      nextIs (step (State.reset.withFetchWord 8 0x40)) (fun t => !t.esr.h && t.sh == 10) = true ∧
      nextIs (step (State.reset.withFetchWord 8 0x12)) (fun t => !t.esr.h && t.sh == 10) = true ∧
      nextIs (step (State.reset.withFetchWord 8 0x02)) (fun t => t.pc == 1) = true ∧
      refusedAs (step (State.reset.withFetchWord 16 0x0022)) .trapNumberNotAllowed = true := by decide

/-! ## Status bytes, sizes, translation, stack -/

/-- E6, E8, 70 R210. -/
theorem test_reset_bytes : State.reset.esr.toByte = 0x09 ∧ levelByte State.reset.uim = 0x06 ∧
    levelByte State.reset.imr = 0x00 := by decide

/-- V-SF. -/
theorem test_return_address_sizes :
    raBytes .w16 0b00 = 2 ∧ raBytes .w32 0b00 = 4 ∧ raBytes .w64 0b00 = 8 ∧ raBytes .w64 0b01 = 2 ∧
      raBytes .w32 0b10 = 4 ∧ raBytes .w64 0b11 = 8 := by decide

/-- Set 0 of V-CT. -/
def ctSet : ContainerSet := ⟨0xF0FF, 0x2005, 0x8000⟩

/-- A set that is never active (V-CT). -/
def offSet : ContainerSet := ⟨0x0000, 0x0001, 0x0000⟩

/-- The sets of V-CT, with the first two replaced. -/
def ctUnit (set0 set1 : ContainerSet) : ContainerUnit := .present set0 set1 offSet offSet []

/-- V-CT rows 1, 4, 5. -/
theorem test_translate_hit_and_miss :
    translateAddr .w16 (ctUnit ctSet offSet) 0x05 0x2ABC = .ok 0x8ABC ∧
      translateAddr .w16 (ctUnit ctSet offSet) 0x05 0x3ABC = .error .noHit ∧
      translateAddr .w16 (ctUnit ctSet offSet) 0x04 0x2ABC = .error .noHit := ⟨by rfl, by rfl, by rfl⟩

/-- V-CT rows 6, 8, 9, 10. -/
theorem test_translate_or_and_multi :
    translateAddr .w16 (ctUnit { ctSet with cofs := 0x8800 } offSet) 0x05 0x2ABC = .ok 0x8ABC ∧
      translateAddr .w16 (ctUnit { ctSet with cmask := 0xF00F } offSet) 0xA5 0x2ABC = .ok 0x8ABC ∧
      translateAddr .w16 (ctUnit ctSet ⟨0, 0, 0⟩) 0x05 0x2ABC = .error .multiHit ∧
      translateAddr .w16 (ctUnit ctSet ⟨0, 0, 0⟩) 0x05 0x3ABC = .ok 0x3ABC := ⟨by rfl, by rfl, by rfl, by rfl⟩

/-- V-CT, the example of 32 bits. -/
theorem test_translate_32 :
    translateAddr .w32 (ctUnit ⟨0xFFFF00FF, 0x00010001, 0x12340000⟩ offSet) 0x01 0x00010234 = .ok 0x12340234 := by rfl

/-- V-STACK rows 2, 5, 6. -/
theorem test_push_hypervisor :
    okIs (State.pushN { hyp .w16 with sh := 0x01FF } 0x1234 2)
        (fun t => t.sh == 0x01FD && bytesAt t.mem 0x01FE 2 == [0x34, 0x12]) = true ∧
      okIs (State.pushN { hyp .w32 with sh := 0x8000 } 0x11223344 4)
        (fun t => t.sh == 0x7FFC && bytesAt t.mem 0x7FFD 4 == [0x44, 0x33, 0x22, 0x11]) = true ∧
      okIs (State.push8 { hyp .w16 with sh := 0x0000 } 0x55) (fun t => t.sh == 0xFFFF && t.mem.read 0 == 0x55) = true := by
  decide

/-- V-STACK rows 8, 9, 10, 11. -/
theorem test_restricted_stack :
    okIs (State.push8 { user .w16 with su := 0x0100, umc := 0x10 } 0x77)
        (fun t => t.su == 0x01FF && t.mem.read 0x0100 == 0x77) = true ∧
      okIs (State.push8 { user .w16 with su := 0x2380, umc := 0x10 } 0x88)
        (fun t => t.su == 0x017F && t.mem.read 0x0180 == 0x88) = true ∧
      okIs (State.pull8 { user .w16 with su := 0x01FF, umc := 0x10, mem := [(0x100, 0x5A)] })
        (fun r => r.1 == 0x5A && r.2.su == 0x0100) = true ∧
      okIs (State.push8 { hyp .w16 with sh := 0x2300, umc := 0x10 } 0x99)
        (fun t => t.sh == 0x22FF && t.mem.read 0x2300 == 0x99) = true := by decide

/-! ## Interrupt status and acceptance -/

/-- V-ISR rows 1, 3, 4, 6, 8. -/
theorem test_isr :
    (hyp .w16).isr = 0 ∧ ({ hyp .w16 with lines := linesOf [1, 2] } : State).isr = 1 ∧
      ({ hyp .w16 with lines := linesOf [2, 5, 7] } : State).isr = 2 ∧
      ({ hyp .w16 with lines := linesOf [3, 4], nmi := true } : State).isr = 3 ∧
      ({ hyp .w16 with lines := linesOf [5], sr := { (hyp .w16).sr with i := true } } : State).isr = 5 := by decide

/-- A state of V-ACC and V-UIM. -/
def acc (s : State) (i : Bool) (uim imr eim : Level) (ls : List Level) : State :=
  { s with sr := { s.sr with i := i }, uim := uim, imr := imr, eim := eim, lines := linesOf ls }

/-- V-ACC rows 2, 3, 6, 8, 12, 14, 17. -/
theorem test_acceptance_hypervisor :
    (acc (hyp .w16) false 0 3 3 [2]).interruptEntry = some 2 ∧ (acc (hyp .w16) false 0 3 3 [4]).interruptEntry = none ∧
      (acc (hyp .w16) false 0 3 2 [1, 2]).interruptEntry = some 1 ∧
      (acc (hyp .w16) false 0 5 2 [3]).interruptEntry = none ∧ (acc (hyp .w16) true 0 3 3 [2]).interruptEntry = none ∧
      (acc (hyp .w16) false 0 2 5 [2]).interruptEntry = some 2 ∧
      (acc (hyp .w16) false 0 6 3 [5]).interruptEntry = none := by decide

/-- V-ACC row 4 under `never` and `always`. -/
theorem test_acceptance_at_equal :
    (acc { hyp .w16 with part := { cfg .w16 with acceptAtEqual := .never } } false 0 3 3 [3]).interruptEntry = none ∧
      (acc { hyp .w16 with part := { cfg .w16 with acceptAtEqual := .always } } false 0 3 3 [3]).interruptEntry =
        some 3 := by decide

/-- V-UIM rows 1, 2, 4, 5, 6, and row 3 under `masked` and `passes`. -/
theorem test_acceptance_user :
    (acc (user .w16) false 6 7 7 [6]).interruptEntry = some 6 ∧ (acc (user .w16) true 6 7 7 [7]).interruptEntry = none ∧
      (acc (user .w16) true 6 7 7 [5]).interruptEntry = some 5 ∧ (acc (user .w16) true 6 3 3 [5]).interruptEntry = none ∧
      (acc { user .w16 with part := { cfg .w16 with uimCombine := .replace } } true 6 3 3 [5]).interruptEntry = some 5 ∧
      (acc (user .w16) true 0 7 7 [1]).interruptEntry = none ∧
      (acc { user .w16 with part := { cfg .w16 with uimAtEqual := .masked } } true 6 7 7 [6]).interruptEntry = none ∧
      (acc { user .w16 with part := { cfg .w16 with uimAtEqual := .passes } } true 6 7 7 [6]).interruptEntry = some 6 := by
  decide

/-! ## Entry -/

/-- V-ENTER 2, an interrupt of level 1 in user mode at 32 bits. -/
theorem test_enter_interrupt :
    okIs (State.enter { user .w32 with sr := StatusReg.ofByte 0x80, esr := ⟨false, 0b10⟩, sh := 0x8000, su := 0x4000,
                                       imr := 7, eim := 7, pc := 0x00123456, iv := 0xA000, mem := [(0xA004, 0x70)] }
          (.interrupt 1) 0x00123456)
      (fun t => bytesAt t.mem 0x7FFB 6 == [0x80, 0x02, 0x56, 0x34, 0x12, 0x00] && t.sh == 0x7FFA && t.su == 0x4000 &&
        t.esr.toByte == 0x0A && t.eim == 1 && t.pc == 0x70) = true := by decide

/-- 20 R87, decision D17: a vector is read through HMM, in every form that reads one; here its page has no container. -/
theorem test_vector_through_hmm :
    refusedAs (toOutcome (State.enter { hyp .w16 with sh := 0x01FF, iv := 0x0200,
                                                      containers := ctUnit ⟨0xFF00, 0x0100, 0x0100⟩ offSet }
        (.interrupt 2) 0x1234)) (.faultDuringEntry .noHit) = true ∧
      okIs (State.enter { hyp .w16 with part := { cfg .w16 with vecFormat := .free 2 }, sh := 0x01FF } (.interrupt 2) 0x1234)
        (fun t => t.sh == 0x01FB) = true ∧
      okIs (State.readEach { hyp .w16 with hmm := 1, containers := ctUnit ⟨0xFFFF, 0x0201, 0x0700⟩ offSet,
                                           mem := [(0x0710, 0xAA), (0x0712, 0xBB)] } [0x0210, 0x0212])
        (fun vs => vs == [0xAA, 0xBB]) = true := by decide

/-- V-ENTER 3, 5, 11, and EIM = 0 for NMI (item 7). -/
theorem test_enter_refusals :
    okIs (State.enter { hyp .w16 with sh := 0x1FF, eim := 3 } (.interrupt 0) 0x1234) (fun t => t.eim == 0) = true ∧
      refusedAs (toOutcome (State.enter (hyp .w32) (.interrupt 2) 0x00010000)) .returnAddressDoesNotFit = true ∧
      refusedAs (toOutcome (State.enter { hyp .w16 with esr := ⟨true, 0b10⟩ } .brk 0)) .frameWiderThanW = true ∧
      refusedAs (toOutcome (State.enter { hyp .w16 with iv := 0xFF80 } (.interrupt 2) 0)) .vectorBaseLowBitsNonzero =
        true := by decide

/-! ## The six instructions -/

/-- The state of the BRK example of 40 R130, with a trap vector 0. -/
def brkState : State :=
  { hyp .w16 with sr := StatusReg.ofByte 0xC3, sh := 0x01FF, pc := 0x2000, tv := 0x8000, eim := 2, imr := 3,
                  mem := [(0x8001, 0x90)] }

/-- 40 R130, V-ENTER 8. -/
theorem test_brk :
    nextIs (exec .brk brkState)
      (fun t => bytesAt t.mem 0x01FC 4 == [0xD3, 0x09, 0x02, 0x20] && t.sh == 0x01FB && t.esr.toByte == 0x09 &&
        t.pc == 0x9000) = true := by decide

/-- V-EIM row 8: BRK does not write EIM, here with BRK_VECTOR in the interrupt table. -/
theorem test_brk_leaves_eim :
    nextIs (exec .brk { brkState with part := { cfg .w16 with brkVector := (.interrupt, 7) } }) (fun t => t.eim == 2) =
      true := by decide

/-- The start state of P1. -/
def trapState : State :=
  { user .w16 with pc := 0x1000, su := 0x3FFF, sh := 0x7FFF, tv := 0x8000, tmv := 2, uim := 6,
                   mem := [(0x1000, 0x22), (0x1001, 0x01), (0x8003, 0x90)] }

/-- P1 step 1, by a step of the machine. -/
theorem test_trap :
    nextIs (step trapState)
      (fun t => bytesAt t.mem 0x7FFC 4 == [0x00, 0x01, 0x02, 0x10] && t.sh == 0x7FFB && t.su == 0x3FFF &&
        t.esr.toByte == 0x09 && t.pc == 0x9000) = true := by decide

/-- V-ENTER 6, 64 bits with the native frame; V-ENTER 10, the largest number and the first not allowed. -/
theorem test_trap_native :
    nextIs (exec (.trap (.imm 3)) { hyp .w64 with pc := 0x100000000, sr := StatusReg.ofByte 0x02, esr := ⟨true, 0b00⟩,
                                                   sh := 0xFFFF, tmv := 4 })
        (fun t => bytesAt t.mem 0xFFF6 10 == [0x02, 0x08, 0x02, 0, 0, 0, 0x01, 0, 0, 0] && t.sh == 0xFFF5) = true ∧
      refusedAs (exec (.trap (.imm 4)) { hyp .w64 with tmv := 4 }) .trapNumberNotAllowed = true := by decide

/-- 40 R131: a number in a register of each kind: of the core set, of the interrupt registers (ISR with lines 2 and 5
active is 2, 10 R47), of the mode control registers, of a container set; the register named is read and no other. -/
theorem test_trap_number_registers :
    (let s : State := { trapState with lines := linesOf [2, 5], imr := 4, umm := 0xA5, iv := 0x4400, sr := StatusReg.ofByte 0xC3,
                                       containers := ctUnit offSet ⟨0x1111, 0x2222, 0x3333⟩ }
     s.trapNumber (.reg .isr) = 2 ∧ s.trapNumber (.reg .imr) = 4 ∧ s.trapNumber (.reg .uim) = 6 ∧
       s.trapNumber (.reg .umm) = 0xA5 ∧ s.trapNumber (.reg .iv) = 0x4400 ∧ s.trapNumber (.reg .s) = 0x3FFF ∧
       s.trapNumber (.reg .sr) = 0xC3 ∧ s.trapNumber (.reg .esr) = 0x01 ∧ s.trapNumber (.reg (.cmask 1)) = 0x1111 ∧
       s.trapNumber (.reg (.ccmp 1)) = 0x2222 ∧ s.trapNumber (.reg (.cofs 1)) = 0x3333) ∧
      (regNames 4).length = 34 ∧ (regNames 4).Nodup := by decide

/-- The state of V-RET row 1, with a frame of the given bytes. -/
def retState (sr esr ra0 ra1 : Byte) : State :=
  { hyp .w16 with imr := 3, eim := 2, sh := 0x01FB,
                  mem := Memory.write (Memory.write (Memory.write (Memory.write [] 0x01FC sr) 0x01FD esr) 0x01FE ra0) 0x01FF ra1 }

/-- The state of V-RET row 4. -/
def privState : State :=
  { user .w16 with pc := 0x0400, su := 0x3FFB, sh := 0x7FFF, eim := 2, av := 0xFE00,
                   mem := [(0x3FFD, 0x09), (0x3FFF, 0x50), (0xFE01, 0xB0)] }

/-- V-RET rows 1, 5, 7. -/
theorem test_rti :
    nextIs (exec .rti (retState 0xC3 0x01 0x34 0x12))
        (fun t => t.sr.read == 0xC3 && t.esr.toByte == 0x01 && t.pc == 0x1234 && t.sh == 0x01FF && t.eim == 3) = true ∧
      nextIs (exec .rti (retState 0xFF 0x09 0x00 0x20)) (fun t => t.sr.read == 0xCF && t.esr.toByte == 0x09) = true ∧
      refusedAs (exec .rti (retState 0x00 0x0B 0x00 0x00)) .frameWiderThanW = true := by decide

/-- V-RET row 4. -/
theorem test_rti_privrti :
    nextIs (exec .rti privState)
      (fun t => bytesAt t.mem 0x7FFC 4 == [0x00, 0x01, 0x00, 0x04] && t.sh == 0x7FFB && t.su == 0x3FFB &&
        t.esr.toByte == 0x09 && t.pc == 0xB000) = true := by decide

/-- V-RET rows 10, 11. -/
theorem test_rtu :
    nextIs (exec .rtu (retState 0xC3 0x01 0x34 0x12)) (fun t => t.pc == 0x1234 && t.eim == 2 && !t.esr.h) = true ∧
      nextIs (exec .rtu privState) (fun t => t.pc == 0xB000 && t.su == 0x3FFB) = true := by decide

/-- V-RET row 12: pulls wrap in page 0x01, in user mode. -/
theorem test_rtu_restricted :
    nextIs (exec .rtu { user .w16 with su := 0x01FD, umc := 0x10, eim := 2, imr := 3,
                                       mem := [(0x0101, 0x60), (0x01FF, 0x01)] })
      (fun t => t.pc == 0x6000 && t.su == 0x0101 && t.esr.toByte == 0x01 && t.eim == 2) = true := by decide

/-- V-MASK rows 4, 7. -/
theorem test_cleim :
    nextIs (exec .cleim { hyp .w16 with imr := 3, eim := 1, pc := 0x4000 }) (fun t => t.eim == 3 && t.pc == 0x4001) = true ∧
      nextIs (exec .cleim { user .w16 with imr := 3, eim := 1, pc := 0x4000 }) (fun t => t.eim == 1 && t.pc == 0x4001) =
        true := by decide

/-- V-MASK rows 1, 2. -/
theorem test_sei :
    nextIs (exec .sei { hyp .w16 with sr := StatusReg.ofByte 0xC3, pc := 0x0300 })
        (fun t => t.sr.read == 0xC7 && t.pc == 0x0301) = true ∧
      nextIs (exec .sei (user .w16)) (fun t => t.sr.read == 0x04) = true := by decide

/-! ## Witnesses: a state and operands that meet the hypotheses of each obligation

A hypothesis "answers a next state" or "answers `.ok t`" is met by the `t` the theorem gives. -/

theorem witness_ResetLeavesTheRest : (State.blank Config.resetPart).mem = [] := by rfl

/-- A state that meets the invariant and steps: SEI in hypervisor mode. -/
def seiState : State := { hyp .w16 with pc := 0xFFFF, mem := [(0xFFFF, 0x78)] }

theorem witness_StepKeepsTheInvariant : seiState.inv = true ∧ ∃ t, step seiState = .next t ∧ (t.pc == 0) = true :=
  ⟨by decide, exists_of_nextIs (p := fun t => t.pc == 0) (by decide)⟩

/-- A configuration with opcodes of one, two and three bytes. -/
def longEncoding : Encoding where
  brk := [0x00]
  rti := [0x40]
  rtu := [0x42, 0x12]
  cleim := [0x42, 0x02, 0x01]
  sei := [0x78]
  trap := .immediate [0x42, 0x22] 2

theorem witness_DecodeInvertsEncode : longEncoding.wf .w16 = true ∧
    (Instr.trap (.imm 0xFFFF)).wf .w16 longEncoding = true ∧ Instr.cleim.wf .w16 longEncoding = true := by decide

theorem witness_EncodeInvertsDecode : longEncoding.wf .w16 = true ∧
    decode longEncoding [0x42, 0x22, 0xFF, 0xFF, 0x00] = .found (.trap (.imm 0xFFFF)) [0x00] := by decide

theorem witness_ProperSegmentsAreIncomplete : longEncoding.wf .w16 = true ∧
    (Instr.trap (.imm 0xFFFF)).wf .w16 longEncoding = true ∧ 3 < (encode longEncoding (.trap (.imm 0xFFFF))).length ∧
    0 < (encode longEncoding .brk).length := by decide

theorem witness_BoundarySamplesTheInputs : (hyp .w16).inputs = [] ∧
    ({ hyp .w16 with inputs := [⟨linesOf [7], true⟩] } : State).inputs = ⟨linesOf [7], true⟩ :: [] := by decide

/-- A TRAP whose opcode lies at the last address and whose operand at the first. -/
def wrapState : State := { trapState with pc := 0xFFFF, mem := [(0x0000, 0x01), (0x8003, 0x90), (0xFFFF, 0x22)] }

theorem witness_StepRunsTheDecodedInstruction : wrapState.boundaryInterrupt = none ∧
    wrapState.part.encoding.wf wrapState.part.width = true ∧
    (Instr.trap (.imm 1)).wf wrapState.part.width wrapState.part.encoding = true ∧
    wrapState.afterBoundary.bytesAtPc (encode wrapState.part.encoding (.trap (.imm 1))) := by
  refine ⟨by decide, by decide, by decide, ?_⟩
  intro j v h
  match j, h with
  | 0, h => exact ⟨0xFFFF, by rfl, by decide, Option.some.inj h⟩
  | 1, h => exact ⟨0x0000, by rfl, by decide, Option.some.inj h⟩
  | j + 2, h => cases h

/-- A state with a byte at PC that begins no instruction. -/
def unknownState : State := { hyp .w16 with mem := [(0x0000, 0xFF)] }

theorem witness_StepRefusesBytesNotInSpec : unknownState.boundaryInterrupt = none ∧
    unknownState.afterBoundary.bytesAtPc [0xFF] ∧
    (∀ n, n < [(0xFF : Byte)].length → decode unknownState.part.encoding ([(0xFF : Byte)].take n) = .incomplete) ∧
    decode unknownState.part.encoding [0xFF] = .notInSpec := by
  refine ⟨by decide, ?_, by decide, by decide⟩
  intro j v h
  match j, h with
  | 0, h => exact ⟨0x0000, by rfl, by decide, Option.some.inj h⟩
  | j + 1, h => cases h

/-- TRAP's opcode at the last address of a container, under the sets given for the page of the opcode and for others. -/
def edgeState (set0 set1 : ContainerSet) : State :=
  { hyp .w16 with pc := 0x02FF, mem := [(0x02FF, 0x22)], containers := ctUnit set0 set1 }

/-- The set of the page of the opcode of `edgeState`, which it translates to itself. -/
def edgeSet : ContainerSet := ⟨0xFF00, 0x0200, 0x0200⟩

theorem edgeState_opcode {s : State} (h : s.physicalAddr (s.pcAfter 0) = .ok 0x02FF) (hf : s.mayFetch 0x02FF = true)
    (hm : s.mem.read 0x02FF = 0x22) : s.bytesAtPc [0x22] := by
  intro j v hj
  obtain ⟨hlt, hv⟩ := List.getElem?_eq_some_iff.1 hj
  have h0 : j = 0 := by simpa using hlt
  subst h0
  exact ⟨0x02FF, h, hf, hm.trans hv⟩

theorem opcode_incomplete : ∀ n, 0 < n → n ≤ [(0x22 : Byte)].length →
    decode Config.resetEncoding ([(0x22 : Byte)].take n) = .incomplete := by
  intro n h0 h1
  have : n = 1 := by simp at h1; omega
  subst this; decide

/-- The operand of TRAP lies in a page no set maps; and, with no bytes read yet, PC does. -/
theorem witness_StepRefusesUnfetchableBytes_noHit :
    (edgeState edgeSet offSet).boundaryInterrupt = none ∧ (cfg .w16).encoding.wf .w16 = true ∧
      (edgeState edgeSet offSet).afterBoundary.bytesAtPc [0x22] ∧
      (∀ n, 0 < n → n ≤ [(0x22 : Byte)].length → decode (cfg .w16).encoding ([(0x22 : Byte)].take n) = .incomplete) ∧
      (edgeState edgeSet offSet).afterBoundary.physicalAddr ((edgeState edgeSet offSet).pcAfter 1) = .error .noHit ∧
      (cfg .w16).containerNoHit = .refuse ∧
      (edgeState offSet offSet).afterBoundary.bytesAtPc [] ∧
      (edgeState offSet offSet).afterBoundary.physicalAddr ((edgeState offSet offSet).pcAfter 0) = .error .noHit :=
  ⟨by decide, by decide, edgeState_opcode (by rfl) (by decide) (by decide), opcode_incomplete, by rfl, by decide,
    fun _ _ h => by simp at h, by rfl⟩

/-- The operand of TRAP lies in a page two sets map. -/
theorem witness_StepRefusesUnfetchableBytes_multiHit :
    (let s : State := { edgeState edgeSet offSet with
       containers := .present edgeSet offSet ⟨0xFF00, 0x0300, 0⟩ ⟨0xFF00, 0x0300, 0⟩ [] }
     s.boundaryInterrupt = none ∧ s.afterBoundary.bytesAtPc [0x22] ∧
       s.afterBoundary.physicalAddr (s.pcAfter 1) = .error .multiHit ∧ s.part.containerMultiHit = .refuse) :=
  ⟨by decide, edgeState_opcode (by rfl) (by decide) (by decide), by rfl, by decide⟩

/-- The machine has stored to the operand of TRAP. -/
theorem witness_StepRefusesUnfetchableBytes_written :
    (let s : State := { edgeState edgeSet offSet with containers := .absent, written := [0x0300] }
     s.boundaryInterrupt = none ∧ s.afterBoundary.bytesAtPc [0x22] ∧
       s.afterBoundary.physicalAddr (s.pcAfter 1) = .ok 0x0300 ∧ s.part.ifetch = .refuseWritten ∧ 0x0300 ∈ s.written) :=
  ⟨by decide, edgeState_opcode (by rfl) (by decide) (by decide), by rfl, by decide, by decide⟩

/-- `edgeState` on a part that gives both parameters an abort, in user mode, where the operand of TRAP is not mapped; the
match code 1 of hypervisor mode selects a set that maps everything. -/
def abortState : State :=
  { edgeState edgeSet ⟨0x00FF, 0x0001, 0⟩ with
    part := { cfg .w16 with containerNoHit := .abort 2, containerMultiHit := .abort 3 }
    esr := ⟨false, 0b01⟩
    hmm := 1
    sh := 0x80FF
    av := 0xFE00
    containers := .present ⟨0xFFFF, 0x0200, 0x0200⟩ ⟨0x00FF, 0x0001, 0⟩ offSet offSet [] }

theorem witness_StepTakesTheAbortOfAMiss :
    abortState.boundaryInterrupt = none ∧ abortState.part.encoding.wf abortState.part.width = true ∧
      abortState.mem.wf = true ∧ abortState.afterBoundary.bytesAtPc [0x22] ∧
      (∀ m, 0 < m → m ≤ [(0x22 : Byte)].length →
        decode abortState.part.encoding ([(0x22 : Byte)].take m) = .incomplete) ∧
      abortState.afterBoundary.physicalAddr (abortState.pcAfter 1) = .error .noHit ∧
      abortState.part.containerNoHit = .abort 2 ∧ abortState.part.abortRa = .pc ∧
      abortState.afterBoundary.entryReady (.abort 2) abortState.pc = true :=
  ⟨by decide, by decide, by decide, edgeState_opcode (by rfl) (by decide) (by decide), opcode_incomplete, by rfl, by decide,
    by decide, by decide⟩

/-- `abortState` with ABORT_RA = next, and with the operand of TRAP mapped twice. -/
def abortNextState : State :=
  { abortState with
    part := { cfg .w16 with containerMultiHit := .abort 3, abortRa := .next }
    containers := .present ⟨0xFFFF, 0x0200, 0x0200⟩ ⟨0x00FF, 0x0001, 0⟩ ⟨0xFFFF, 0x0300, 0⟩ ⟨0xFFFF, 0x0300, 0⟩ [] }

theorem abortNextState_ready (ra : Word) : abortNextState.afterBoundary.entryReady (.abort 3) ra = true := by
  have fits : raFits abortNextState.afterBoundary.part.width abortNextState.afterBoundary.entryBytes ra = true :=
    decide_eq_true (Nat.mod_lt _ (Nat.two_pow_pos 16))
  simp only [State.entryReady, fits]
  decide

theorem witness_StepTakesTheAbortOfAMiss_next :
    abortNextState.boundaryInterrupt = none ∧ abortNextState.afterBoundary.bytesAtPc [0x22] ∧
      abortNextState.afterBoundary.physicalAddr (abortNextState.pcAfter 1) = .error .multiHit ∧
      abortNextState.part.containerMultiHit = .abort 3 ∧ abortNextState.part.abortRa = .next ∧
      abortNextState.afterBoundary.entryReady (.abort 3)
        (abortNextState.pcAfter (Config.freeUnfetchedLength [0x22])) = true :=
  ⟨by decide, edgeState_opcode (by rfl) (by decide) (by decide), by rfl, by decide, by decide, abortNextState_ready _⟩

/-- 20 R95, 60 R185: the abort of `abortState`, with vector 2 of the table at AV and the address of TRAP in the
frame; and the refusal on a part that does not give the parameter. -/
theorem test_miss_abort :
    nextIs (step { abortState with mem := [(0x02FF, 0x22), (0xFE05, 0xB0)] })
        (fun t => t.pc == 0xB000 && bytesAt t.mem 0x80FC 4 == [0x00, 0x01, 0xFF, 0x02] && t.esr.toByte == 0x09 &&
          t.written == [0x80FC, 0x80FD, 0x80FE, 0x80FF]) = true ∧
      refusedAs (step { abortState with part := cfg .w16 }) .containerNoHit = true := by decide

/-- V-ENTER 1: line 2 active, EIM = IMR = 3. -/
def intState : State :=
  { acc (hyp .w16) false 6 3 3 [2] with pc := 0x1234, sh := 0x01FF, iv := 0xFF00, mem := [(0xFF05, 0xA2)] }

theorem witness_StepEntersTheInitiatedInterrupt : intState.boundaryInterrupt = some 2 ∧ intState.mem.wf = true ∧
    intState.afterBoundary.entryReady (.interrupt 2) intState.pc = true := by decide

theorem witness_ActiveAndMatchingSets :
    (⟨0x00FE, 0x0001, 0⟩ : ContainerSet).ccmp.getLsbD 0 = true ∧
      (⟨0x00FE, 0x0001, 0⟩ : ContainerSet).cmask.getLsbD 0 = false ∧
      (∀ k, k < 8 → (⟨0xFF00, 0xFF00, 0⟩ : ContainerSet).cmask.getLsbD k = false ∧
        (⟨0xFF00, 0xFF00, 0⟩ : ContainerSet).ccmp.getLsbD k = false) ∧
      (⟨0x7FFF, 0x8000, 0⟩ : ContainerSet).ccmp.getLsbD 15 = true ∧
      (⟨0x7FFF, 0x8000, 0⟩ : ContainerSet).cmask.getLsbD 15 = false ∧ 15 < Width.w16.bits ∧
      (∀ k, k < Width.w16.bits → 8 ≤ k → (⟨0x00FF, 0x00FF, 0⟩ : ContainerSet).cmask.getLsbD k = false ∧
        (⟨0x00FF, 0x00FF, 0⟩ : ContainerSet).ccmp.getLsbD k = false) := by decide

theorem hit_of {w : Width} {c : ContainerSet} {mc : Byte} {addr : Word}
    (h1 : ∀ k, k < 8 → (mc.getLsbD k && c.cmask.getLsbD k) = c.ccmp.getLsbD k)
    (h2 : ∀ k, k < w.bits → 8 ≤ k → (addr.getLsbD k && c.cmask.getLsbD k) = c.ccmp.getLsbD k) : c.Hit w mc addr :=
  ⟨h1, fun k h8 hk => h2 k hk h8⟩

theorem offSet_no_hit (w : Width) (mc : Byte) (addr : Word) : ¬offSet.Hit w mc addr := by
  intro h
  have := h.1 0 (by decide)
  revert this
  rw [show offSet.cmask.getLsbD 0 = false by rfl, show offSet.ccmp.getLsbD 0 = true by rfl, Bool.and_false]
  decide

/-- V-CT row 3, the last address of the container; and rows 6 and 7, two addresses with one translation. -/
theorem witness_TheMatchingSetTranslates :
    ((ctUnit ctSet offSet).sets = [] ++ ctSet :: [offSet, offSet, offSet] ∧ ctSet.Hit .w16 0x05 0x2FFF ∧
      ∀ d ∈ [] ++ [offSet, offSet, offSet], ¬d.Hit .w16 0x05 0x2FFF) ∧
      ∀ k, (0x2ABC : Word).getLsbD k ≠ (0x22BC : Word).getLsbD k →
        8 ≤ k ∧ (0xF0FF : Word).getLsbD k = false ∧ (0x8800 : Word).getLsbD k = true := by
  refine ⟨⟨by rfl, hit_of (by decide) (by decide), ?_⟩, ?_⟩
  · intro d hd
    have hd : d = offSet := by simpa using hd
    rw [hd]; exact offSet_no_hit _ _ _
  · intro k h
    have low : ∀ k, k < 64 → (0x2ABC : Word).getLsbD k ≠ (0x22BC : Word).getLsbD k →
        8 ≤ k ∧ (0xF0FF : Word).getLsbD k = false ∧ (0x8800 : Word).getLsbD k = true := by decide
    by_cases hk : k < 64
    · exact low k hk h
    · exact absurd (by rw [BitVec.getLsbD_of_ge _ _ (by omega), BitVec.getLsbD_of_ge _ _ (by omega)]) h

theorem witness_NoHitAndSeveralHitsMiss :
    ContainerUnit.absent.nsets = 0 ∧
      ((ctUnit offSet offSet).nsets ≠ 0 ∧ ∀ d ∈ (ctUnit offSet offSet).sets, ¬d.Hit .w16 0x05 0xFFFF) ∧
      ((ctUnit ctSet ⟨0, 0, 0⟩).sets = [] ++ ctSet :: [] ++ (⟨0, 0, 0⟩ : ContainerSet) :: [offSet, offSet] ∧
        ctSet.Hit .w16 0x05 0x2000 ∧ (⟨0, 0, 0⟩ : ContainerSet).Hit .w16 0x05 0x2000) := by
  refine ⟨by rfl, ⟨by decide, ?_⟩, by rfl, hit_of (by decide) (by decide), hit_of (by decide) (by decide)⟩
  intro d hd
  have hd : d = offSet := by simpa [ctUnit, ContainerUnit.sets] using hd
  rw [hd]; exact offSet_no_hit _ _ _

/-- V-CT rows 1 and 11. -/
theorem witness_PageOffsetPassesAndControlIsIgnored :
    translateAddr .w16 (ctUnit ctSet offSet) 0x05 0x2ABC = .ok 0x8ABC ∧
      List.Forall₂ (fun c d : ContainerSet => c.cmask = d.cmask ∧ c.ccmp = d.ccmp ∧ c.cofs >>> 8 = d.cofs >>> 8)
        (ctUnit ctSet offSet).sets (ctUnit { ctSet with cofs := 0x80FF } offSet).sets :=
  ⟨by rfl, .cons (by decide) (.cons (by decide) (.cons (by decide) (.cons (by decide) .nil)))⟩

theorem witness_ByteReadAfterWrite : (hyp .w16).mem.wf = true ∧
    ∃ t, (hyp .w16).writeByte 0xFFFF 0x55 = .ok t ∧ (t.mem.read 0xFFFF == 0x55) = true :=
  ⟨by decide, exists_of_okIs (p := fun t : State => t.mem.read 0xFFFF == 0x55) (by decide)⟩

/-- 95 V-STACK, the line after the table; and eight bytes that wrap at the top of 64 bits. -/
theorem witness_MemReadIsLittleEndian :
    ({ hyp .w32 with mem := [(0x7FFD, 0x44), (0x7FFE, 0x33), (0x7FFF, 0x22), (0x8000, 0x11)] } : State).memRead 0x7FFD 4 =
        .ok 0x11223344 ∧
      ({ hyp .w64 with mem := [(0, 0x02), (0xFFFFFFFFFFFFFFFF, 0x01)] } : State).memRead 0xFFFFFFFFFFFFFFFF 8 =
        .ok 0x0201 := ⟨by rfl, by rfl⟩

theorem witness_MemWriteIsLittleEndian : (hyp .w16).mem.wf = true ∧
    (∃ t, (hyp .w16).memWrite 0xFFFF 2 0x1234 = .ok t ∧ (t.mem == [(0x0000, 0x12), (0xFFFF, 0x34)]) = true) ∧
    (hyp .w16).physicalAddr (addW .w16 0xFFFF 1) = .ok 0 ∧ (hyp .w16).physicalAddr (addW .w16 0xFFFF 0) = .ok 0xFFFF ∧
    ∀ i, 1 < i → i < 2 → (hyp .w16).physicalAddr (addW .w16 0xFFFF (BitVec.ofNat 64 i)) ≠ .ok 0 :=
  ⟨by decide, exists_of_okIs (p := fun t : State => t.mem == [(0x0000, 0x12), (0xFFFF, 0x34)]) (by decide), by rfl, by rfl,
    fun i h1 h2 => absurd h2 (by omega)⟩

/-- V-STACK rows 6, 7, 8: in each mode, at the ends of the ranges. -/
theorem witness_PushStoresAndSteps :
    (hyp .w16).physicalAddr ((hyp .w16).stackAddr (hyp .w16).sp) = .ok 0 ∧
      (user .w16).physicalAddr ((user .w16).stackAddr (user .w16).sp) = .ok 0 ∧
      ({ user .w16 with umc := 0x10, su := 0xFFFF } : State).physicalAddr
        (State.stackAddr { user .w16 with umc := 0x10, su := 0xFFFF } 0xFFFF) = .ok 0x01FF := ⟨by rfl, by rfl, by rfl⟩

/-- V-STACK row 10, and the wrap of an unrestricted pointer. -/
theorem witness_PullReadsAndSteps :
    ({ user .w16 with umc := 0x10, su := 0x01FF } : State).readByte
        (State.pullSlot { user .w16 with umc := 0x10, su := 0x01FF } 1) = .ok 0 ∧
      ({ hyp .w16 with sh := 0xFFFF } : State).readByte (State.pullSlot { hyp .w16 with sh := 0xFFFF } 1) = .ok 0 :=
  ⟨by rfl, by rfl⟩

/-- Eight bytes pushed on the restricted stack across the end of its page. -/
def rssState : State := { user .w64 with umc := 0x10, su := 0x0103 }

theorem witness_PullAfterPushReturnsTheValue : rssState.mem.wf = true ∧ fitsW .w64 rssState.sp = true ∧
    rssState.restricted = true ∧ rssState.sp.toNat / 256 = 1 ∧
    (∀ i j, i < j → j < 8 →
      rssState.physicalAddr (rssState.pushSlot i) ≠ rssState.physicalAddr (rssState.pushSlot j)) ∧
    ∃ t, rssState.pushN 0x1122334455667788 8 = .ok t ∧ (t.su == 0x01FB) = true := by
  refine ⟨by decide, by decide, by decide, by decide, ?_, exists_of_okIs (p := fun t : State => t.su == 0x01FB) (by decide)⟩
  have places : ∀ j < 8, ∀ i < j, (rssState.physicalAddr (rssState.pushSlot i)).toOption ≠
      (rssState.physicalAddr (rssState.pushSlot j)).toOption := by decide
  exact fun i j hi hj h => places j hj i hi (congrArg Except.toOption h)

/-- A container for page 0x01 alone, where the stack of the state lies and the table of vectors does not. -/
def stackOnly : State :=
  { hyp .w16 with sh := 0x01FF, iv := 0x0200, containers := ctUnit ⟨0xFF00, 0x0100, 0x0100⟩ offSet }

/-- Of the five clauses: SF = 10 at 16 bits; 0x10000 in a frame of two bytes at 32 bits; no set that maps the stack;
IV = 0xFF80; a mapped stack and a vector, at the lowest and at the highest number of an interrupt, that is not. -/
theorem witness_EntryRefusals :
    ({ hyp .w16 with esr := ⟨true, 0b10⟩ } : State).part.width.bits <
        8 * ({ hyp .w16 with esr := ⟨true, 0b10⟩ } : State).entryBytes ∧
      (8 * (hyp .w32).entryBytes ≤ Width.w32.bits ∧ raFits .w32 (hyp .w32).entryBytes 0x10000 = false) ∧
      (raFits .w16 2 0xFFFF = true ∧
        ({ hyp .w16 with containers := ctUnit offSet offSet } : State).frameMapped = false) ∧
      (8 * (hyp .w16).entryBytes ≤ Width.w16.bits ∧ (hyp .w16).frameMapped = true ∧
        (({ hyp .w16 with iv := 0xFF80 } : State).vectorBase .interrupt).toNat % 256 ≠ 0) ∧
      (8 * stackOnly.entryBytes ≤ Width.w16.bits ∧ raFits .w16 stackOnly.entryBytes 0x1234 = true ∧
        stackOnly.frameMapped = true ∧ (stackOnly.vectorBase .interrupt).toNat % 256 = 0 ∧
        stackOnly.vectorMapped (.interrupt 0) = false ∧ stackOnly.vectorMapped (.interrupt 7) = false) := by decide

theorem witness_EntryKeepsMemoryCanonical : brkState.memoryCanonical = true ∧
    ∃ t, brkState.enter .brk 0x2002 = .ok t ∧ (t.sh == 0x01FB) = true :=
  ⟨by decide, exists_of_okIs (p := fun t : State => t.sh == 0x01FB) (by decide)⟩

/-- BRK_VECTOR in each of the three tables. -/
theorem witness_BrkEnters : brkState.mem.wf = true ∧ brkState.entryReady .brk (addW .w16 brkState.pc 2) = true ∧
    ({ brkState with part := { cfg .w16 with brkVector := (.interrupt, 7) } } : State).entryReady .brk 0x2002 = true ∧
    ({ brkState with part := { cfg .w16 with brkVector := (.abort, 0) } } : State).entryReady .brk 0x2002 = true := by
  decide

/-- The number TMV - 1, as an immediate and in a register; and TMV at its largest. -/
theorem witness_TrapEnters : trapState.mem.wf = true ∧ trapState.trapNumber (.imm 1) < trapState.tmv ∧
    trapState.entryReady (.trap (trapState.trapNumber (.imm 1))) (trapState.pcAfter (trapState.len (.trap (.imm 1)))) =
      true ∧
    ({ trapState with x := 0xFFFE, tmv := 0xFFFF } : State).trapNumber (.reg .x) < (0xFFFF : Word) ∧
    ({ trapState with x := 0xFFFE, tmv := 0xFFFF } : State).entryReady (.trap 0xFFFE) 0x1001 = true := by decide

theorem witness_TrapNumberNotAllowedIsRefused : trapState.tmv ≤ trapState.trapNumber (.imm 2) ∧
    ({ trapState with tmv := 0 } : State).tmv = 0 := by decide

/-- The widest value a register holds; the first and the last set of a unit of five, whose number 5 is not there. -/
theorem witness_TrapNumberIsTheOperand : ({ trapState with a := 0xFFFF } : State).registersFit = true ∧
    (let s : State := { trapState with containers := .present ctSet offSet offSet offSet [⟨0xFFFF, 0x0102, 0xFF00⟩] }
     s.containersFit = true ∧ s.containers.sets[0]? = some ctSet ∧
       s.containers.sets[4]? = some ⟨0xFFFF, 0x0102, 0xFF00⟩ ∧ s.containers.sets[5]? = none) ∧
    ({ trapState with lines := linesOf [2, 5] } : State).isr = ({ trapState with lines := linesOf [2] } : State).isr := by
  decide

/-- In hypervisor mode, in user mode, and on the restricted stack. -/
theorem witness_RtiReturns : (retState 0xC3 0x01 0x34 0x12).returnReady = true ∧
    ({ user .w16 with su := 0x3FFB, mem := [(0x3FFD, 0x01), (0x3FFF, 0x50)] } : State).returnReady = true ∧
    ({ user .w16 with su := 0x01FD, umc := 0x10 } : State).returnReady = true := by decide

theorem witness_RtuReturns : (retState 0xC3 0x01 0x34 0x12).returnReady = true ∧
    ({ user .w64 with su := 0x3FFB, mem := [(0x3FFD, 0x03)] } : State).returnReady = true := by decide

/-- V-RET row 4 with ABORT_RA = pc and with ABORT_RA = next. -/
theorem witness_PrivrtiAborts : privState.mem.wf = true ∧ privState.copiesMapped = true ∧ privState.esr.h = false ∧
    (privState.pulled 2).getLsbD 3 = true ∧
    (privState.part.abortRa = .pc ∧ privState.entryReady (.abort privState.part.abortNoPrivrti) privState.pc = true) ∧
    ({ privState with part := { cfg .w16 with abortRa := .next } } : State).entryReady (.abort 0)
      (addW .w16 privState.pc (BitVec.ofNat 64 (encode (cfg .w16).encoding .rti).length)) = true := by decide

theorem witness_ReturnRefusals :
    ({ hyp .w16 with containers := ctUnit offSet offSet } : State).copiesMapped = false ∧
      ((retState 0x00 0x0B 0x00 0x00).copiesMapped = true ∧ (retState 0x00 0x0B 0x00 0x00).privilegeViolation = false ∧
        Width.w16.bits < 8 * (retState 0x00 0x0B 0x00 0x00).returnBytes) ∧
      (({ hyp .w16 with containers := ctUnit ⟨0xFF00, 0x2000, 0⟩ offSet, sh := 0x20FD } : State).copiesMapped = true ∧
        ({ hyp .w16 with containers := ctUnit ⟨0xFF00, 0x2000, 0⟩ offSet, sh := 0x20FD } : State).privilegeViolation =
          false ∧
        8 * ({ hyp .w16 with containers := ctUnit ⟨0xFF00, 0x2000, 0⟩ offSet, sh := 0x20FD } : State).returnBytes ≤ 16 ∧
        ({ hyp .w16 with containers := ctUnit ⟨0xFF00, 0x2000, 0⟩ offSet, sh := 0x20FD } : State).returnMapped = false) := by
  decide

theorem witness_RtiUndoesAnEntry : brkState.mem.wf = true ∧ fitsW .w16 brkState.sh = true ∧ brkState.entryBytes + 2 = 4 ∧
    (∀ i j, i < j → j < 4 →
      brkState.hypervisorAddr (brkState.frameSlot i) ≠ brkState.hypervisorAddr (brkState.frameSlot j)) ∧
    ∃ t, brkState.enter .brk 0x2002 = .ok t ∧ t.esr.h = true := by
  refine ⟨by decide, by decide, by decide, ?_, exists_of_okIs (p := fun t : State => t.esr.h) (by decide)⟩
  have places : ∀ j < 4, ∀ i < j, (brkState.hypervisorAddr (brkState.frameSlot i)).toOption ≠
      (brkState.hypervisorAddr (brkState.frameSlot j)).toOption := by decide
  exact fun i j hi hj h => places j hj i hi (congrArg Except.toOption h)

theorem witness_CleimInHypervisorMode : (hyp .w16).esr.h = true := by rfl

theorem witness_CleimInUserMode : (user .w16).esr.h = false ∧ (user .w16).part.cleimUser = .nop ∧
    (let s : State := { privState with part := { cfg .w16 with cleimUser := .abort 3 } }
     s.part.cleimUser = .abort 3 ∧ s.mem.wf = true ∧ s.part.abortRa = .pc ∧ s.entryReady (.abort 3) s.pc = true) ∧
    (let s : State := { privState with part := { cfg .w16 with cleimUser := .abort 3, abortRa := .next } }
     s.part.abortRa = .next ∧ s.entryReady (.abort 3) (s.pcAfter (s.len .cleim)) = true) := by decide

/-- After SEI in user mode with UIM = 6, IMR = EIM = 7: line 7 against UIM, line 5 below it (the example of 41 R151). -/
theorem witness_SeiSetsTheInterruptBit :
    (∃ t, exec .sei (hyp .w16) = .next t ∧ t.sr.i = true) ∧ (hyp .w16).esr.h = true ∧
      (acc (user .w16) false 6 7 7 []).esr.h = false ∧
      ∃ t, exec .sei (acc (user .w16) false 6 7 7 []) = .next t ∧
        (let u : State := { t with lines := linesOf [7] }; let v : State := { t with lines := linesOf [5] }
         decide (u.uim < u.isr) && decide (v.isr ≠ 0 ∧ v.isr < v.uim ∧ v.isr ≤ v.imr ∧ v.isr < v.eim)) = true :=
  ⟨exists_of_nextIs (p := fun t => t.sr.i) (by decide), by decide, by decide, exists_of_nextIs
    (p := fun t => let u : State := { t with lines := linesOf [7] }; let v : State := { t with lines := linesOf [5] }
      decide (u.uim < u.isr) && decide (v.isr ≠ 0 ∧ v.isr < v.uim ∧ v.isr ≤ v.imr ∧ v.isr < v.eim)) (by decide)⟩

theorem witness_IsrShowsTheSmallestActiveLevel : ({ hyp .w16 with lines := linesOf [1, 7] } : State).isr ≠ 0 ∧
    ({ hyp .w16 with lines := linesOf [1, 7] } : State).lineActive 7 = true ∧
    ({ hyp .w16 with lines := linesOf [7] } : State).lineActive 7 = true := by decide

theorem witness_ImrEnablesByLevel : (acc (hyp .w16) false 6 0 0 [1]).imr = 0 ∧ (1 : Level) ≠ 0 ∧
    (acc (hyp .w16) false 6 7 7 [7]).imr = 7 ∧ (acc (hyp .w16) false 6 3 3 [2]).maskableEntry = some 2 ∧
    (acc { user .w16 with part := { cfg .w16 with uimCombine := .replace } } true 6 3 3 [5]).maskableEntry = some 5 := by
  decide

/-- V-ACC rows 1, 2, 3, 7, and the gates of user mode. -/
theorem witness_LevelTestDecides : (acc (hyp .w16) false 6 3 3 []).isr = 0 ∧
    (acc (hyp .w16) false 6 3 3 [2]).maskableEntry = some 2 ∧
    (let s := acc (hyp .w16) false 6 3 3 [4]; s.isr ≠ 0 ∧ s.esr.h = true ∧ s.imr < s.isr) ∧
    (let s := acc (hyp .w16) false 6 3 2 [3]; s.isr ≠ 0 ∧ s.isr ≤ s.imr ∧ s.eim < s.isr) ∧
    (let s := acc (user .w16) true 6 7 7 [5]
     s.isr ≠ 0 ∧ s.isr ≤ s.imr ∧ s.isr < s.eim ∧ s.gateOpen s.isr = true ∧ s.part.uimCombine = .and) := by decide

/-- V-ACC row 4, under each value of the parameter. -/
theorem witness_LevelEqualToEim :
    (let s := acc (hyp .w16) false 6 3 3 [3]
     s.isr ≠ 0 ∧ s.gateOpen s.isr = true ∧ s.isr ≤ s.imr ∧ s.isr = s.eim ∧ s.part.acceptAtEqual = .either) ∧
      (let s := acc { hyp .w16 with part := { cfg .w16 with acceptAtEqual := .never } } false 6 7 7 [7]
       s.isr ≠ 0 ∧ s.gateOpen s.isr = true ∧ s.isr ≤ s.imr ∧ s.isr = s.eim ∧ s.part.acceptAtEqual = .never) ∧
      (let s := acc { hyp .w16 with part := { cfg .w16 with acceptAtEqual := .always } } false 6 1 1 [1]
       s.isr ≠ 0 ∧ s.gateOpen s.isr = true ∧ s.isr ≤ s.imr ∧ s.isr = s.eim ∧ s.part.acceptAtEqual = .always) := by decide

theorem witness_HypervisorInterruptBitHoldsBack : (acc (hyp .w16) true 6 3 3 [2]).esr.h = true ∧
    (acc (hyp .w16) true 6 3 3 [2]).sr.i = true := by decide

/-- V-UIM rows 1 to 6, one for each clause, and row 3 under each value of the two parameters. -/
theorem witness_UserModeInterruptMask :
    (let s := acc (user .w16) false 6 7 7 [6]; s.esr.h = false ∧ s.sr.i = false) ∧
      (let s := acc (user .w16) true 6 7 7 [7]; s.esr.h = false ∧ s.sr.i = true ∧ s.uim < s.isr) ∧
      (let s := acc (user .w16) true 6 7 7 [5]; s.isr ≠ 0 ∧ s.isr < s.uim ∧ s.isr ≤ s.imr ∧ s.isr < s.eim) ∧
      (let s := acc { user .w16 with part := { cfg .w16 with uimAtEqual := .masked } } true 6 7 7 [6]
       s.isr = s.uim ∧ s.part.uimAtEqual = .masked) ∧
      (let s := acc { user .w16 with part := { cfg .w16 with uimAtEqual := .passes } } true 6 7 7 [6]
       s.isr ≠ 0 ∧ s.isr = s.uim ∧ s.part.uimAtEqual = .passes ∧ s.isr ≤ s.imr ∧ s.isr < s.eim) ∧
      (let s := acc { user .w16 with part := { cfg .w16 with uimCombine := .replace } } true 6 3 3 [5]
       s.isr ≠ 0 ∧ s.isr < s.uim ∧ s.part.uimCombine = .replace) ∧
      (let s := acc (user .w16) true 6 7 7 [6]
       s.isr ≠ 0 ∧ s.isr = s.uim ∧ s.part.uimAtEqual = .either ∧ s.isr ≤ s.imr ∧ s.isr < s.eim) ∧
      (let s := acc { user .w16 with part := { cfg .w16 with uimCombine := .replace, uimAtEqual := .passes } } true 6 3 3 [6]
       s.isr ≠ 0 ∧ s.isr = s.uim ∧ s.part.uimCombine = .replace ∧ s.part.uimAtEqual = .passes ∧ s.imr < s.isr) ∧
      (let s := acc { user .w16 with part := { cfg .w16 with uimCombine := .replace } } true 6 3 3 [6]
       s.isr ≠ 0 ∧ s.isr = s.uim ∧ s.part.uimCombine = .replace ∧ s.part.uimAtEqual = .either) ∧
      (let s := acc (user .w16) true 6 3 3 [5]; s.part.uimCombine = .and ∧ s.imr < s.isr) := by decide

theorem witness_NmiEntryIsADraw : (hyp .w16).nmi = false ∧ ({ hyp .w16 with nmi := true } : State).nmi = true := by
  decide

/-- A step that enters an interrupt, and a step that executes RTI in hypervisor mode. -/
theorem witness_EimIsWrittenBy :
    (intState.boundaryInterrupt = some 2 ∧ ∃ t, step intState = .next t ∧ (t.eim == 2) = true) ∧
      (let s : State := { retState 0xC3 0x01 0x34 0x12 with pc := 0x01FE, mem := [(0x01FD, 0x01), (0x01FE, 0x40)] }
       s.boundaryInterrupt = none ∧ ∃ t, step s = .next t ∧ (t.eim == 3) = true) :=
  ⟨⟨by decide, exists_of_nextIs (p := fun t => t.eim == 2) (by decide)⟩,
    by decide, exists_of_nextIs (p := fun t => t.eim == 3) (by decide)⟩

theorem witness_NoStepWritesControlRegisters : ∃ t, step trapState = .next t ∧ (t.tmv == 2) = true :=
  exists_of_nextIs (p := fun t => t.tmv == 2) (by decide)

/-- TRAP from user mode, RTI to user mode. -/
theorem witness_ModeChangesOnlyByEntryAndReturn :
    (trapState.mem.wf = true ∧ trapState.esr.h = false ∧
      ∃ t, exec (.trap (.imm 1)) trapState = .next t ∧ t.esr.h = true) ∧
      ((retState 0xC3 0x01 0x34 0x12).mem.wf = true ∧ (retState 0xC3 0x01 0x34 0x12).esr.h = true ∧
        ∃ t, exec .rti (retState 0xC3 0x01 0x34 0x12) = .next t ∧ (!t.esr.h) = true) :=
  ⟨⟨by decide, by decide, exists_of_nextIs (p := fun t => t.esr.h) (by decide)⟩, by decide, by decide,
    exists_of_nextIs (p := fun t => !t.esr.h) (by decide)⟩

theorem witness_UserModeLeavesHypervisorStateAlone : (user .w16).esr.h = false ∧
    ∃ t, exec .sei (user .w16) = .next t ∧ (!t.esr.h) = true :=
  ⟨by decide, exists_of_nextIs (p := fun t => !t.esr.h) (by decide)⟩

theorem witness_OnlyFrameBytesChange : trapState.mem.wf = true ∧
    ∃ t, step trapState = .next t ∧ (t.mem.read 0x7FFF != trapState.mem.read 0x7FFF) = true :=
  ⟨by decide, exists_of_nextIs (p := fun t => t.mem.read 0x7FFF != trapState.mem.read 0x7FFF) (by decide)⟩

theorem witness_StoresAreRecorded : trapState.mem.wf = true ∧
    ∃ t, step trapState = .next t ∧
      (t.written.contains 0x7FFF && t.mem.read 0x7FFF != trapState.mem.read 0x7FFF) = true :=
  ⟨by decide, exists_of_nextIs
    (p := fun t => t.written.contains 0x7FFF && t.mem.read 0x7FFF != trapState.mem.read 0x7FFF) (by decide)⟩

/-- A TRAP with an immediate in hypervisor mode, and a step that fetches none; a number that is in no user mode
register. -/
theorem witness_HypervisorModeIgnoresUserModeRegisters :
    (let s : State := { trapState with esr := ⟨true, 0b01⟩ }
     s.esr.h = true ∧ okIs s.afterBoundary.fetch (· == .trap (.imm 1)) = true ∧
       ({ s.afterBoundary with umm := 7, umc := 0x10, uim := 3 } : State).trapNumber (.imm 1) =
         s.afterBoundary.trapNumber (.imm 1)) ∧
      (seiState.esr.h = true ∧ okIs seiState.afterBoundary.fetch (· == .sei) = true) ∧
      (∀ raw, TrapOperand.reg .x ≠ .free raw) ∧ TrapOperand.reg .x ≠ .reg .umm ∧ TrapOperand.reg .x ≠ .reg .umc ∧
      TrapOperand.reg .x ≠ .reg .uim := by
  refine ⟨by decide, by decide, ?_, by decide, by decide, by decide⟩
  intro raw h; cases h

/-- The BRK example entered from two states that differ in every interrupt register; and a return. -/
theorem witness_InterruptRegistersAreNotInTheFrame :
    (∃ t, brkState.enter .brk 0x2002 = .ok t ∧ (t.sh == 0x01FB) = true) ∧
      (∃ u, ({ brkState with imr := 7, eim := 5, lines := linesOf [4], iv := 0x100, tv := 0x200, av := 0x300, tmv := 9 } :
        State).enter .brk 0x2002 = .ok u ∧ (u.sh == 0x01FB) = true) ∧
      ∃ t, exec .rti (retState 0xC3 0x01 0x34 0x12) = .next t ∧ (t.imr == 3) = true :=
  ⟨exists_of_okIs (p := fun t : State => t.sh == 0x01FB) (by decide), exists_of_okIs (p := fun t : State => t.sh == 0x01FB) (by decide),
    exists_of_nextIs (p := fun t => t.imr == 3) (by decide)⟩

end Sys2Proof.Tests
end

/-! The state: what every step keeps (the registers no step writes, EIM but for its writers, the invariant), each said
first of an entry, a return and an instruction, then of the step; what a frame does not hold; and the status bytes. -/

namespace Sys2Proof.Machine

/-! ## The registers no step writes (10 R66, 60 R175) -/

theorem ControlUnchanged.trans {s t u : State} (h : ControlUnchanged s t) (h' : ControlUnchanged t u) :
    ControlUnchanged s u :=
  ⟨h'.a.trans h.a, h'.x.trans h.x, h'.y.trans h.y, h'.e.trans h.e, h'.b.trans h.b, h'.imr.trans h.imr, h'.iv.trans h.iv,
    h'.tv.trans h.tv, h'.av.trans h.av, h'.tmv.trans h.tmv, h'.umm.trans h.umm, h'.hmm.trans h.hmm, h'.umc.trans h.umc,
    h'.uim.trans h.uim, h'.containers.trans h.containers, h'.part.trans h.part⟩

theorem State.afterBoundary_control (s : State) : ControlUnchanged s s.afterBoundary := by constructor <;> simp

theorem State.returned_control (s : State) (mn : ReturnKind) : ControlUnchanged s (s.returned mn) := by
  constructor <;> simp [State.returned]

theorem EntryShape.control {s t : State} {c : Cause} (h : EntryShape s c t) : ControlUnchanged s t := by
  rw [h.shape]; constructor <;> rfl

theorem Executed.control {s t : State} {i : Instr} (h : Executed s i t) : ControlUnchanged s t := by
  cases h with
  | entry _ ht => exact (State.enter_shape ht).control
  | rti => exact s.returned_control .rti
  | rtu => exact s.returned_control .rtu
  | cleim => constructor <;> rfl
  | cleimNop => constructor <;> rfl
  | sei => constructor <;> rfl

/-- A step is the boundary, and then an entry or an instruction: what both of these keep, the step keeps. -/
theorem step_cases {s t : State} (h : step s = .next t) :
    (∃ c ra, s.afterBoundary.enter c ra = .ok t) ∨ ∃ i, Executed s.afterBoundary i t := by
  rcases step_next h with ⟨level, _, ht⟩ | ⟨_, ⟨i, _, hi⟩ | ⟨_, _, n, _, ht⟩⟩
  · exact .inl ⟨.interrupt level, _, ht⟩
  · exact .inr ⟨i, executed_of_next hi⟩
  · exact .inl ⟨.abort n, _, ht⟩

/-- Settles O50: the boundary, every entry and every instruction leave these registers alone. -/
theorem noStepWritesControlRegisters : Obligations.NoStepWritesControlRegisters := by
  intro s t h
  refine s.afterBoundary_control.trans ?_
  rcases step_cases h with ⟨c, ra, ht⟩ | ⟨i, hi⟩
  · exact (State.enter_shape ht).control
  · exact hi.control

/-! ## The inputs (10 R64) -/

theorem State.returned_inputs (s : State) (mn : ReturnKind) : InputsUnchanged s (s.returned mn) := by
  constructor <;> simp [State.returned]

theorem EntryShape.inputs {s t : State} {c : Cause} (h : EntryShape s c t) : InputsUnchanged s t := by
  rw [h.shape]; constructor <;> rfl

theorem Executed.inputs {s t : State} {i : Instr} (h : Executed s i t) : InputsUnchanged s t := by
  cases h with
  | entry _ ht => exact (State.enter_shape ht).inputs
  | rti => exact s.returned_inputs .rti
  | rtu => exact s.returned_inputs .rtu
  | cleim => constructor <;> rfl
  | cleimNop => constructor <;> rfl
  | sei => constructor <;> rfl

/-- ISR follows from the lines alone (60 R162). -/
theorem InputsUnchanged.isr {s t : State} (h : InputsUnchanged s t) : t.isr = s.isr := by
  simp only [State.isr, h.lines]

/-- Settles O9, by the cases of the environment's schedule. -/
theorem boundarySamplesTheInputs : Obligations.BoundarySamplesTheInputs := by
  intro s
  constructor
  · intro h
    simp only [State.afterBoundary, State.sampleInputs, h, State.countDraw]
  · intro now later h
    simp only [State.afterBoundary, State.sampleInputs, h, State.countDraw]

/-! ## EIM (10 R46, 60 R169, R170) -/

theorem EntryShape.eim {s t : State} {c : Cause} (h : EntryShape s c t) : t.eim = s.entryEim c := by rw [h.shape]

theorem State.privilegeViolation_user {s : State} (h : s.privilegeViolation = true) : s.esr.h = false := by
  simp only [State.privilegeViolation, Bool.and_eq_true, Bool.not_eq_true'] at h
  exact h.1

/-- RTI and CLEIM cause an entry in user mode alone: the PRIVRTI abort, and the abort of CLEIM_USER. -/
theorem EntryOf.user_of_rti_or_cleim {s : State} {i : Instr} {c : Cause} {ra : Word} (h : EntryOf s i c ra)
    (hi : i = .rti ∨ i = .cleim) : s.esr.h = false := by
  cases h with
  | rti _ hp => exact State.privilegeViolation_user hp
  | cleim n hu _ => exact hu
  | brk => simp at hi
  | trap => simp at hi
  | rtu => simp at hi

/-- An instruction sets EIM to IMR if it is RTI or CLEIM in hypervisor mode, and else leaves it. -/
theorem Executed.eim {s t : State} {i : Instr} (h : Executed s i t) :
    t.eim = if s.esr.h = true ∧ (i = .rti ∨ i = .cleim) then s.imr else s.eim := by
  cases h with
  | entry he ht =>
    have hn : ¬(s.esr.h = true ∧ (i = .rti ∨ i = .cleim)) := fun ⟨hh, hi⟩ => by
      rw [he.user_of_rti_or_cleim hi] at hh; cases hh
    rw [if_neg hn, (State.enter_shape ht).eim, he.eim]
  | rti => simp [State.returned, State.returnEim]
  | rtu => simp [State.returned, State.returnEim]
  | cleim hh => simp [hh]
  | cleimNop hu => simp [hu]
  | sei => simp

/-- Settles O49, by the three things a step can be: an interrupt's entry, an instruction, the abort of a fetch. -/
theorem eimIsWrittenBy : Obligations.EimIsWrittenBy := by
  intro s t h
  rcases step_next h with ⟨level, hl, ht⟩ | ⟨hn, ⟨i, hf, hi⟩ | ⟨why, got, n, hf, ht⟩⟩
  · have : t.eim = level := (State.enter_shape ht).eim
    simp [hl, this]
  · have := (executed_of_next hi).eim
    simp only [State.afterBoundary_esr, State.afterBoundary_imr, State.afterBoundary_eim] at this
    simp [hn, hf, this]
  · have : t.eim = s.afterBoundary.eim := (State.enter_shape ht).eim
    simp [hn, hf, this]

/-! ## The invariant -/

theorem EntryShape.inv {s t : State} {c : Cause} (h : EntryShape s c t) (hi : s.inv = true) : t.inv = true := by
  obtain ⟨_, hsu, _⟩ := State.inv_fits hi
  refine h.control.inv_parts hi h.pcFits ?_ ?_ (h.memory (State.inv_memoryCanonical hi))
    (h.written (State.inv_writtenCanonical hi))
  · rw [h.shape]; exact hsu
  · rw [h.shape]; exact fitsW_subW ..

/-- A state that differs from one with the invariant in PC, the stack pointers and the status alone has it if these
registers fit. -/
theorem ControlUnchanged.inv_of_mem {s t : State} (hc : ControlUnchanged s t) (hi : s.inv = true) (hm : t.mem = s.mem)
    (hw : t.written = s.written) (hpc : fitsW s.part.width t.pc = true) (hsu : fitsW s.part.width t.su = true)
    (hsh : fitsW s.part.width t.sh = true) : t.inv = true :=
  hc.inv_parts hi hpc hsu hsh ((State.memoryCanonical_congr hc.part hm).trans (State.inv_memoryCanonical hi))
    ((State.writtenCanonical_congr hc.part hw).trans (State.inv_writtenCanonical hi))

theorem State.returned_inv {s : State} (mn : ReturnKind) (hi : s.inv = true) : (s.returned mn).inv = true := by
  obtain ⟨_, hsu, hsh⟩ := State.inv_fits hi
  refine (s.returned_control mn).inv_of_mem hi (by simp [State.returned]) (by simp [State.returned]) (fitsW_trunc ..) ?_ ?_
  · cases hh : s.esr.h <;> simp [State.returned, hh, hsu, State.pullSlot_fits]
  · cases hh : s.esr.h <;> simp [State.returned, hh, hsh, State.pullSlot_fits]

theorem State.pcAfter_fits (s : State) (len : Nat) : fitsW s.part.width (s.pcAfter len) = true := fitsW_addW ..

theorem Executed.inv {s t : State} {i : Instr} (h : Executed s i t) (hi : s.inv = true) : t.inv = true := by
  obtain ⟨_, hsu, hsh⟩ := State.inv_fits hi
  have hc := h.control
  cases h with
  | entry _ ht => exact (State.enter_shape ht).inv hi
  | rti => exact State.returned_inv .rti hi
  | rtu => exact State.returned_inv .rtu hi
  | cleim => exact hc.inv_of_mem hi rfl rfl (s.pcAfter_fits _) hsu hsh
  | cleimNop => exact hc.inv_of_mem hi rfl rfl (s.pcAfter_fits _) hsu hsh
  | sei => exact hc.inv_of_mem hi rfl rfl (s.pcAfter_fits _) hsu hsh

theorem State.afterBoundary_inv {s : State} (hi : s.inv = true) : s.afterBoundary.inv = true := by
  obtain ⟨hpc, hsu, hsh⟩ := State.inv_fits hi
  exact s.afterBoundary_control.inv_of_mem hi (by simp) (by simp) (by simpa using hpc) (by simpa using hsu)
    (by simpa using hsh)

/-- Settles O4: the boundary keeps the invariant, and so do every entry and every instruction. -/
theorem stepKeepsTheInvariant : Obligations.StepKeepsTheInvariant := by
  intro s t hi h
  have hb := State.afterBoundary_inv hi
  rcases step_cases h with ⟨c, ra, ht⟩ | ⟨i, he⟩
  · exact (State.enter_shape ht).inv hb
  · exact he.inv hb

theorem fitsW_zero (w : Width) : fitsW w 0#64 = true := by cases w <;> rfl

theorem State.blank_inv {p : Part} (hp : p.wf = true) : (State.blank p).inv = true := by
  simp [State.inv, State.registersFit, State.containersFit, State.memoryCanonical, State.writtenCanonical, State.blank,
    ContainerUnit.sets, Memory.wf, rising, fitsW_zero, hp]

/-- A reset of a running machine keeps the invariant. -/
theorem State.applyReset_inv {s : State} (hi : s.inv = true) : s.applyReset.inv = true := by
  simp only [State.inv, State.registersFit, State.containersFit, State.memoryCanonical, State.writtenCanonical,
    State.applyReset, List.all_cons, Bool.and_eq_true] at hi ⊢
  obtain ⟨⟨⟨⟨⟨_, hregs⟩, hcont⟩, hmem⟩, hwritten⟩, hpart⟩ := hi
  exact ⟨⟨⟨⟨⟨fitsW_trunc .., hregs⟩, hcont⟩, hmem⟩, hwritten⟩, hpart⟩

theorem resetPart_wf : Config.resetPart.wf = true := by decide

/-- Settles O3: the blank state has the invariant on every part that can exist, and a reset keeps it. -/
theorem resetMeetsTheInvariant : Obligations.ResetMeetsTheInvariant :=
  State.applyReset_inv (State.blank_inv resetPart_wf)

/-! ## The interrupt registers take no part in the frame (10 R48) -/

/-- `s` with other interrupt registers, and other lines, which are what ISR shows. -/
def State.withInterruptRegs (s : State) (imr eim : Level) (lines : Lines) (iv tv av tmv : Word) : State :=
  { s with imr := imr, eim := eim, lines := lines, iv := iv, tv := tv, av := av, tmv := tmv }

section
variable (s : State) (imr eim : Level) (lines : Lines) (iv tv av tmv : Word)

theorem State.withInterruptRegs_pushed (p : Nat) (v : Byte) :
    (s.withInterruptRegs imr eim lines iv tv av tmv).pushed p v =
      (s.pushed p v).withInterruptRegs imr eim lines iv tv av tmv := by
  change (if s.esr.h then _ else _) = State.withInterruptRegs (if s.esr.h then _ else _) imr eim lines iv tv av tmv
  cases s.esr.h <;> rfl

/-- A push writes the same byte at the same place. -/
theorem State.withInterruptRegs_push8 {t : State} {v : Byte} (h : s.push8 v = .ok t) :
    (s.withInterruptRegs imr eim lines iv tv av tmv).push8 v = .ok (t.withInterruptRegs imr eim lines iv tv av tmv) := by
  obtain ⟨p, hp, rfl⟩ := State.push8_ok.1 h
  exact State.push8_ok.2 ⟨p, hp, (s.withInterruptRegs_pushed imr eim lines iv tv av tmv p v).symm⟩

theorem State.withInterruptRegs_pushBytes {t : State} {bs : List Byte} (h : s.pushBytes bs = .ok t) :
    (s.withInterruptRegs imr eim lines iv tv av tmv).pushBytes bs =
      .ok (t.withInterruptRegs imr eim lines iv tv av tmv) := by
  induction bs generalizing s with
  | nil => cases h; rfl
  | cons b bs ih =>
    simp only [State.pushBytes] at h ⊢
    cases hb : s.push8 b with
    | error why => rw [hb] at h; cases h
    | ok u =>
      rw [hb] at h
      rw [State.withInterruptRegs_push8 s imr eim lines iv tv av tmv hb]
      exact ih u h

end

/-- The memory after an entry is what the pushes of its frame leave: the vector is only read. -/
theorem State.enter_mem {s t : State} {c : Cause} {ra : Word} (h : s.enter c ra = .ok t) :
    ∃ u, s.enterMode.pushBytes (s.frameBytes c ra) = .ok u ∧ t.mem = u.mem := by
  obtain ⟨_, _, u, target, hu, _, rfl⟩ := State.enter_ok.1 h
  exact ⟨u, hu, rfl⟩

/-- Settles O37: the frame's pushes go through under a change of the interrupt registers; a return keeps all of these
but EIM. -/
theorem interruptRegistersAreNotInTheFrame : Obligations.InterruptRegistersAreNotInTheFrame := by
  constructor
  · intro s t u c ra imr eim lines iv tv av tmv ht hu
    obtain ⟨t', ht', htm⟩ := State.enter_mem ht
    obtain ⟨u', hu', hum⟩ := State.enter_mem hu
    have hpush := s.enterMode.withInterruptRegs_pushBytes imr eim lines iv tv av tmv ht'
    have : u' = t'.withInterruptRegs imr eim lines iv tv av tmv := Except.ok.inj (hu'.symm.trans hpush)
    rw [hum, htm, this]
    rfl
  · intro s t i _ h
    have he := executed_of_next h
    have hc := he.control
    refine ⟨hc.imr, he.inputs.isr, hc.iv, hc.tv, hc.av, hc.tmv, ?_⟩
    rw [he.eim]
    split
    · exact .inr rfl
    · exact .inl rfl

/-! ## The status bytes, bit by bit (10 R30 to R42) -/

theorem getLsbD_bitAt (n : Nat) (v : Bool) (k : Nat) :
    (bitAt n v).getLsbD k = (decide (k < 8) && decide (k = n) && v) := by
  cases v with
  | false => simp [bitAt]
  | true =>
    have hbit : bitAt n true = BitVec.ofNat 8 (1 <<< n) := rfl
    rw [hbit, BitVec.getLsbD_ofNat, Nat.one_shiftLeft, Nat.testBit_two_pow, Bool.and_true, decide_eq_decide.2 eq_comm]

theorem StatusReg.getLsbD_toByte (r : StatusReg) (b : Bool) (k : Nat) :
    (r.toByte b).getLsbD k =
      (decide (k < 8) && (decide (k = 7) && r.n || decide (k = 6) && r.v || decide (k = 4) && b || decide (k = 3) && r.d ||
        decide (k = 2) && r.i || decide (k = 1) && r.z || decide (k = 0) && r.c)) := by
  simp only [StatusReg.toByte, BitVec.getLsbD_or, getLsbD_bitAt, Bool.and_assoc, Bool.and_or_distrib_left]

theorem ExtStatusReg.getLsbD_toByte (r : ExtStatusReg) (k : Nat) :
    r.toByte.getLsbD k = (decide (k < 8) && (decide (k = 3) && r.h || r.sf.getLsbD k)) := by
  simp only [ExtStatusReg.toByte, BitVec.getLsbD_or, getLsbD_bitAt, BitVec.getLsbD_setWidth, Bool.and_assoc,
    Bool.and_or_distrib_left]

/-- Settles O14: the bits of a packed byte, read at each place of its layout. -/
theorem statusByteLayouts : Obligations.StatusByteLayouts := by
  refine ⟨fun r b => ?_, fun r => ?_⟩
  · simp only [StatusReg.getLsbD_toByte]; simp
  · simp only [ExtStatusReg.getLsbD_toByte]; simp

theorem StatusReg.ofByte_toByte (r : StatusReg) (b : Bool) : StatusReg.ofByte (r.toByte b) = r := by
  simp only [StatusReg.ofByte, StatusReg.getLsbD_toByte]; simp

theorem ExtStatusReg.ofByte_toByte (r : ExtStatusReg) : ExtStatusReg.ofByte r.toByte = r := by
  have hsf : r.toByte.setWidth 2 = r.sf := by
    apply BitVec.eq_of_getLsbD_eq
    intro k hk
    rw [BitVec.getLsbD_setWidth, ExtStatusReg.getLsbD_toByte]
    have h3 : k ≠ 3 := by omega
    have h8 : k < 8 := by omega
    simp [hk, h3, h8]
  simp only [ExtStatusReg.ofByte, ExtStatusReg.getLsbD_toByte, hsf]; simp

/-- Only bits 7, 6 and 3 to 0 of a stacked SR count (10 R33, R34). -/
theorem StatusReg.ofByte_masked (v : Byte) : StatusReg.ofByte (v &&& 0xCF) = StatusReg.ofByte v := by
  simp [StatusReg.ofByte]

/-- Only bits 3, 1 and 0 of a stacked ESR count (10 R42). -/
theorem ExtStatusReg.ofByte_masked (v : Byte) : ExtStatusReg.ofByte (v &&& 0x0B) = ExtStatusReg.ofByte v := by
  have hsf : (v &&& 0x0B).setWidth 2 = v.setWidth 2 := by
    rw [BitVec.setWidth_and]
    exact BitVec.and_allOnes
  simp only [ExtStatusReg.ofByte, hsf, BitVec.getLsbD_and]; simp

/-- Settles O15: packing and taking back undo each other, and a mask over the bits that count changes nothing. -/
theorem statusBytesAreTakenBack : Obligations.StatusBytesAreTakenBack :=
  ⟨StatusReg.ofByte_toByte, ExtStatusReg.ofByte_toByte,
    fun v => ⟨(StatusReg.ofByte_masked v).symm, (ExtStatusReg.ofByte_masked v).symm⟩⟩

end Sys2Proof.Machine

/-! Memory: the container sets, the accesses of one and of several bytes, the stack, the bytes a step changes, and a fetch
that cannot go on. -/

namespace Sys2Proof.Machine

/-! ## When a container set hits (20 R92, R93) -/

theorem ContainerSet.active_iff (c : ContainerSet) (mc : Byte) :
    c.active mc = true ↔ ∀ k, k < 8 → (mc.getLsbD k && c.cmask.getLsbD k) = c.ccmp.getLsbD k := by
  have bit (k : Nat) (hk : k < 8) :
      (mc &&& c.cmask.setWidth 8).getLsbD k = (c.ccmp.setWidth 8).getLsbD k ↔
        (mc.getLsbD k && c.cmask.getLsbD k) = c.ccmp.getLsbD k := by
    simp [hk]
  rw [ContainerSet.active, beq_iff_eq]
  exact ⟨fun h k hk => (bit k hk).1 (by rw [h]), fun h => BitVec.eq_of_getLsbD_eq fun k hk => (bit k hk).2 (h k hk)⟩

theorem ContainerSet.matchesAddr_iff (w : Width) (c : ContainerSet) (addr : Word) :
    c.matchesAddr w addr = true ↔
      ∀ k, 8 ≤ k → k < w.bits → (addr.getLsbD k && c.cmask.getLsbD k) = c.ccmp.getLsbD k := by
  rw [ContainerSet.matchesAddr, beq_iff_eq]
  constructor
  · intro h k h8 hk
    have := congrArg (·.getLsbD k) h
    simpa [getLsbD_highBits, h8, hk] using this
  · intro h
    apply BitVec.eq_of_getLsbD_eq
    intro k _
    simp only [getLsbD_highBits, BitVec.getLsbD_and]
    by_cases hk : 8 ≤ k ∧ k < w.bits
    · rw [h k hk.1 hk.2]
    · rw [← Bool.decide_and, decide_eq_false hk, Bool.false_and, Bool.false_and]

/-- Settles O17: both compares bit by bit, and at a bit where the mask is clear. -/
theorem activeAndMatchingSets : Obligations.ActiveAndMatchingSets := by
  intro w c mc addr
  have clash {x : Bool} {k : Nat} (hc : c.ccmp.getLsbD k = true) (hm : c.cmask.getLsbD k = false) :
      (x && c.cmask.getLsbD k) ≠ c.ccmp.getLsbD k := by simp [hc, hm]
  have agree {x : Bool} {k : Nat} (h : c.cmask.getLsbD k = false ∧ c.ccmp.getLsbD k = false) :
      (x && c.cmask.getLsbD k) = c.ccmp.getLsbD k := by simp [h]
  refine ⟨c.active_iff mc, c.matchesAddr_iff w addr, fun k hk hc hm => ?_, fun h => ?_, fun k h8 hk hc hm => ?_, fun h => ?_⟩
  · exact Bool.eq_false_iff.2 fun ha => clash hc hm ((c.active_iff mc).1 ha k hk)
  · exact (c.active_iff mc).2 fun k hk => agree (h k hk)
  · exact Bool.eq_false_iff.2 fun ha => clash hc hm ((c.matchesAddr_iff w addr).1 ha k h8 hk)
  · exact (c.matchesAddr_iff w addr).2 fun k h8 hk => agree (h k h8 hk)

/-- The test a set that hits passes. -/
def ContainerSet.isHit (w : Width) (mc : Byte) (addr : Word) (c : ContainerSet) : Bool :=
  c.active mc && c.matchesAddr w addr

theorem ContainerUnit.hits_eq (w : Width) (u : ContainerUnit) (mc : Byte) (addr : Word) :
    u.hits w mc addr = u.sets.filter (ContainerSet.isHit w mc addr) := rfl

theorem ContainerSet.isHit_iff {w : Width} {c : ContainerSet} {mc : Byte} {addr : Word} :
    c.isHit w mc addr = true ↔ c.Hit w mc addr := by
  rw [ContainerSet.isHit, Bool.and_eq_true, c.active_iff, c.matchesAddr_iff]; rfl

theorem filter_isHit_eq_nil {w : Width} {mc : Byte} {addr : Word} {cs : List ContainerSet}
    (h : ∀ c ∈ cs, ¬c.Hit w mc addr) : cs.filter (ContainerSet.isHit w mc addr) = [] := by
  rw [List.filter_eq_nil_iff]
  exact fun c hc ha => h c hc (ContainerSet.isHit_iff.1 ha)

@[simp] theorem ContainerSet.matchesAddr_trunc (w : Width) (c : ContainerSet) (addr : Word) :
    c.matchesAddr w (trunc w addr) = c.matchesAddr w addr := by
  rw [Bool.eq_iff_iff, c.matchesAddr_iff, c.matchesAddr_iff]
  refine forall₃_congr fun k _ hk => ?_
  rw [getLsbD_trunc, decide_eq_true hk, Bool.true_and]

@[simp] theorem ContainerSet.physical_trunc (w : Width) (c : ContainerSet) (addr : Word) :
    c.physical w (trunc w addr) = c.physical w addr := by
  have hw : 8 < w.bits := by cases w <;> decide
  apply BitVec.eq_of_getLsbD_eq
  intro k _
  rw [c.physical_bit, c.physical_bit, getLsbD_trunc]
  by_cases hk : k < w.bits
  · simp [hk]
  · have : ¬k < 8 := by omega
    simp [hk, this]

/-! ## Translation by the sets that hit (20 R94 to R96) -/

@[simp] theorem ContainerUnit.hits_trunc (w : Width) (u : ContainerUnit) (mc : Byte) (addr : Word) :
    u.hits w mc (trunc w addr) = u.hits w mc addr := by simp [ContainerUnit.hits]

theorem ContainerUnit.nsets_eq_zero_iff (u : ContainerUnit) : u.nsets = 0 ↔ u = .absent := by
  cases u <;> simp [ContainerUnit.nsets, ContainerUnit.sets]

theorem translateAddr_of_no_hit {w : Width} {u : ContainerUnit} {mc : Byte} {addr : Word} (hn : u.nsets ≠ 0)
    (h : u.hits w mc addr = []) : translateAddr w u mc addr = .error .noHit := by
  cases u with
  | absent => exact absurd rfl hn
  | present => simp only [translateAddr, ContainerUnit.hits_trunc, h]

theorem translateAddr_of_one_hit {w : Width} {u : ContainerUnit} {mc : Byte} {addr : Word} {c : ContainerSet}
    (h : u.hits w mc addr = [c]) : translateAddr w u mc addr = .ok (c.physical w addr) := by
  cases u with
  | absent => cases h
  | present => simp only [translateAddr, ContainerUnit.hits_trunc, h, ContainerSet.physical_trunc]

theorem translateAddr_of_several_hits {w : Width} {u : ContainerUnit} {mc : Byte} {addr : Word}
    (h : 2 ≤ (u.hits w mc addr).length) : translateAddr w u mc addr = .error .multiHit := by
  match hl : u.hits w mc addr, h with
  | c :: d :: more, _ =>
    cases u with
    | absent => cases hl
    | present => simp only [translateAddr, ContainerUnit.hits_trunc, hl]

/-- A translation that answers is the address as it stands, or that of one of the sets. -/
theorem translateAddr_ok {w : Width} {u : ContainerUnit} {mc : Byte} {addr pa : Word} (h : translateAddr w u mc addr = .ok pa) :
    pa = trunc w addr ∨ ∃ c : ContainerSet, pa = c.physical w addr := by
  by_cases hn : u.nsets = 0
  · rw [u.nsets_eq_zero_iff.1 hn] at h
    exact .inl (Except.ok.inj h).symm
  · match hl : u.hits w mc addr with
    | [] => rw [translateAddr_of_no_hit hn hl] at h; cases h
    | [c] => rw [translateAddr_of_one_hit hl] at h; exact .inr ⟨c, (Except.ok.inj h).symm⟩
    | c :: d :: more => rw [translateAddr_of_several_hits (by simp [hl])] at h; cases h

theorem ContainerSet.physical_congr {w : Width} {c d : ContainerSet} {addr other : Word}
    (hlow : ∀ k, k < 8 → addr.getLsbD k = other.getLsbD k)
    (hhigh : ∀ k, 8 ≤ k → (addr.getLsbD k && !c.cmask.getLsbD k || c.cofs.getLsbD k) =
      (other.getLsbD k && !d.cmask.getLsbD k || d.cofs.getLsbD k)) : c.physical w addr = d.physical w other := by
  apply BitVec.eq_of_getLsbD_eq
  intro k _
  rw [c.physical_bit, d.physical_bit]
  by_cases hk : k < 8
  · rw [if_pos hk, if_pos hk, hlow k hk]
  · rw [if_neg hk, if_neg hk, hhigh k (by omega)]

/-- Settles O18: the sets that hit are the one set, whose translation is known bit by bit; and an OR hides the address bits
below the bits it sets. -/
theorem theMatchingSetTranslates : Obligations.TheMatchingSetTranslates := by
  constructor
  · intro w u mc addr before after c hu hc hother
    simp only [List.forall_mem_append] at hother
    have hits : u.hits w mc addr = [c] := by
      rw [ContainerUnit.hits_eq, hu, List.filter_append, List.filter_cons_of_pos (ContainerSet.isHit_iff.2 hc),
        filter_isHit_eq_nil hother.1, filter_isHit_eq_nil hother.2, List.nil_append]
    exact ⟨_, translateAddr_of_one_hit hits, c.physical_bit w addr⟩
  · intro w c addr other h
    refine ContainerSet.physical_congr (fun k hk => ?_) (fun k _ => ?_)
    · by_contra hne
      have := (h k hne).1
      omega
    · by_cases hne : addr.getLsbD k = other.getLsbD k
      · rw [hne]
      · simp [(h k hne).2.2]

/-- Settles O19, by the number of sets that hit. -/
theorem noHitAndSeveralHitsMiss : Obligations.NoHitAndSeveralHitsMiss := by
  intro w u mc addr
  refine ⟨fun hn => ?_, fun hn h => translateAddr_of_no_hit hn (filter_isHit_eq_nil h), ?_, ?_⟩
  · rw [u.nsets_eq_zero_iff.1 hn]
    exact ⟨_, rfl, trunc_toNat w addr⟩
  · intro before between after c d hu hc hd
    apply translateAddr_of_several_hits
    rw [ContainerUnit.hits_eq, hu, List.filter_append, List.filter_append,
      List.filter_cons_of_pos (ContainerSet.isHit_iff.2 hc), List.filter_cons_of_pos (ContainerSet.isHit_iff.2 hd)]
    simp only [List.length_append, List.length_cons]
    omega
  · cases u with
    | absent => exact .inl rfl
    | present => exact .inr (by simp [ContainerUnit.nsets, ContainerUnit.sets])

/-! ## What takes no part in a translation (20 R97, R98) -/

theorem mod_256_of_low_bits {u v : Word} (h : ∀ k, k < 8 → u.getLsbD k = v.getLsbD k) : u.toNat % 256 = v.toNat % 256 := by
  have : u.setWidth 8 = v.setWidth 8 := by
    apply BitVec.eq_of_getLsbD_eq
    intro k hk
    rw [BitVec.getLsbD_setWidth, BitVec.getLsbD_setWidth, h k hk]
  simpa using congrArg BitVec.toNat this

/-- The sets differ in the container control byte at most, bits 7 to 0 of COFS. -/
def ContainerSet.SameButControl (c d : ContainerSet) : Prop :=
  c.cmask = d.cmask ∧ c.ccmp = d.ccmp ∧ c.cofs >>> 8 = d.cofs >>> 8

theorem ContainerSet.SameButControl.physical {c d : ContainerSet} (h : c.SameButControl d) (w : Width) (addr : Word) :
    c.physical w addr = d.physical w addr := by
  obtain ⟨hmask, _, hofs⟩ := h
  refine ContainerSet.physical_congr (fun _ _ => rfl) (fun k hk => ?_)
  have : (c.cofs >>> 8).getLsbD (k - 8) = (d.cofs >>> 8).getLsbD (k - 8) := by rw [hofs]
  rw [BitVec.getLsbD_ushiftRight, BitVec.getLsbD_ushiftRight, Nat.add_sub_cancel' hk] at this
  rw [hmask, this]

theorem ContainerUnit.hits_sameButControl {u v : ContainerUnit}
    (h : List.Forall₂ ContainerSet.SameButControl u.sets v.sets) (w : Width) (mc : Byte) (addr : Word) :
    List.Forall₂ ContainerSet.SameButControl (u.hits w mc addr) (v.hits w mc addr) := by
  refine List.rel_filter (fun c d hcd => ?_) h
  obtain ⟨hmask, hcmp, _⟩ := hcd
  simp only [ContainerSet.active, ContainerSet.matchesAddr, hmask, hcmp]

/-- Settles O20: the sets that hit are as many in both units, and they translate alike. -/
theorem pageOffsetPassesAndControlIsIgnored : Obligations.PageOffsetPassesAndControlIsIgnored := by
  constructor
  · intro w u mc addr pa h
    apply mod_256_of_low_bits
    intro k hk
    rcases translateAddr_ok h with rfl | ⟨c, rfl⟩
    · have : 8 ≤ w.bits := by cases w <;> decide
      rw [getLsbD_trunc, decide_eq_true (Nat.lt_of_lt_of_le hk this), Bool.true_and]
    · rw [c.physical_bit, if_pos hk]
  · intro w u v mc addr (h : List.Forall₂ ContainerSet.SameButControl u.sets v.sets)
    have hlen : u.nsets = v.nsets := h.length_eq
    by_cases hn : u.nsets = 0
    · rw [u.nsets_eq_zero_iff.1 hn, v.nsets_eq_zero_iff.1 (hlen ▸ hn)]
    · have hits := ContainerUnit.hits_sameButControl h w mc addr
      match hu : u.hits w mc addr, hv : v.hits w mc addr, hits with
      | [], [], _ => rw [translateAddr_of_no_hit hn hu, translateAddr_of_no_hit (hlen ▸ hn) hv]
      | [c], [d], .cons hcd _ =>
        rw [translateAddr_of_one_hit hu, translateAddr_of_one_hit hv, hcd.physical]
      | c :: c' :: cs, d :: d' :: ds, _ =>
        rw [translateAddr_of_several_hits (by simp [hu]), translateAddr_of_several_hits (by simp [hv])]

/-! ## Accesses of one byte (20 R99) -/

@[simp] theorem State.readByte_trunc (s : State) (addr : Word) :
    s.readByte (trunc s.part.width addr) = s.readByte addr := by simp [State.readByte]

/-- Settles O21: the write stores at one physical address, and a read looks at its own. -/
theorem byteReadAfterWrite : Obligations.ByteReadAfterWrite := by
  intro s t addr v hm h
  obtain ⟨p, hp, rfl⟩ := State.writeByte_ok.1 h
  refine ⟨State.storeByte_wf hm p v, fun other => ?_⟩
  simp only [State.readByte, State.storeByte_physicalAddr, hp]
  cases s.physicalAddr other with
  | error why => simp [bind, Except.bind]
  | ok q =>
    simp only [bind, Except.bind, State.storeByte_read hm, Except.ok.injEq]
    split <;> rfl

/-! ## Accesses of several bytes (20 R83, R84) -/

/-- The physical address of the byte number `k` of an access at `addr`. -/
def State.placeAt (s : State) (addr : Word) (k : Nat) : Except TranslationMiss Nat :=
  s.physicalAddr (addW s.part.width addr (BitVec.ofNat 64 k))

theorem addW_zero (w : Width) (addr : Word) : addW w addr (BitVec.ofNat 64 0) = trunc w addr := by simp [addW]

theorem addW_one_addW (w : Width) (addr : Word) (k : Nat) :
    addW w (addW w addr 1) (BitVec.ofNat 64 k) = addW w addr (BitVec.ofNat 64 (k + 1)) := by
  rw [addW_addW, Nat.add_comm, BitVec.ofNat_add]; rfl

theorem State.placeAt_zero (s : State) (addr : Word) : s.placeAt addr 0 = s.physicalAddr addr := by
  rw [State.placeAt, addW_zero, State.physicalAddr_trunc]

theorem State.placeAt_succ (s : State) (addr : Word) (k : Nat) :
    s.placeAt (addW s.part.width addr 1) k = s.placeAt addr (k + 1) := by
  rw [State.placeAt, addW_one_addW]; rfl

/-- The bytes read are as many as asked for, each the one a byte access gives. -/
theorem State.readBytes_ok {s : State} {addr : Word} {n : Nat} {vs : List Byte} (h : s.readBytes addr n = .ok vs) :
    vs.length = n ∧ ∀ k v, vs[k]? = some v → s.readByte (addW s.part.width addr (BitVec.ofNat 64 k)) = .ok v := by
  induction n generalizing addr vs with
  | zero => cases h; simp
  | succ n ih =>
    simp only [State.readBytes] at h
    cases hr : s.readByte addr with
    | error why => rw [hr] at h; cases h
    | ok b =>
      cases hn : s.readBytes (addW s.part.width addr 1) n with
      | error why => rw [hr, hn] at h; cases h
      | ok us =>
        rw [hr, hn] at h
        cases h
        obtain ⟨hlen, hget⟩ := ih hn
        refine ⟨by rw [List.length_cons, hlen], fun k v hk => ?_⟩
        cases k with
        | zero => rw [addW_zero, State.readByte_trunc, hr, Option.some.inj hk]
        | succ k => rw [← addW_one_addW]; exact hget k v hk

/-- Settles O22: the value of the bytes read, taken apart again. -/
theorem memReadIsLittleEndian : Obligations.MemReadIsLittleEndian := by
  intro s addr n v hn h
  unfold State.memRead at h
  cases hb : s.readBytes addr n with
  | error why => rw [hb] at h; cases h
  | ok bs =>
    rw [hb] at h
    cases h
    obtain ⟨rfl, hget⟩ := State.readBytes_ok hb
    refine ⟨fromBytes_lt bs, fun k hk => hget k _ ?_⟩
    have : (fromBytes bs >>> (8 * k)).setWidth 8 = bs[k]?.getD 0 := leValue_byte bs k (by omega)
    rw [this, List.getElem?_eq_getElem hk]
    rfl

/-- Everything a sequence of stores at consecutive addresses does. -/
structure WriteEffect (s : State) (addr : Word) (bs : List Byte) (t : State) : Prop where
  /-- Only memory and the record of stores change. -/
  rest : t = { s with mem := t.mem, written := t.written }
  /-- A byte is in its place, unless a later one was translated to the same place. -/
  byte : ∀ k p v, bs[k]? = some v → s.placeAt addr k = .ok p →
    (∀ i, k < i → i < bs.length → s.placeAt addr i ≠ .ok p) → t.mem.read p = v
  other : ∀ p, (∀ k, k < bs.length → s.placeAt addr k ≠ .ok p) → t.mem.read p = s.mem.read p
  marks : ∀ p, p ∈ t.written ↔ p ∈ s.written ∨ ∃ k, k < bs.length ∧ s.placeAt addr k = .ok p

/-- A store, and the stores at the next addresses after it. -/
theorem WriteEffect.cons {s t : State} {addr : Word} {b : Byte} {bs : List Byte} {q : Nat} (hm : s.mem.wf = true)
    (hq : s.placeAt addr 0 = .ok q) (e : WriteEffect (s.storeByte q b) (addW s.part.width addr 1) bs t) :
    WriteEffect s addr (b :: bs) t := by
  have hplace (k : Nat) : (s.storeByte q b).placeAt (addW s.part.width addr 1) k = s.placeAt addr (k + 1) :=
    s.placeAt_succ addr k
  obtain ⟨rest, byte, other, marks⟩ := e
  simp only [hplace] at byte other marks
  refine ⟨rest, fun k p v hk hp hlast => ?_, fun p hp => ?_, fun p => ?_⟩
  · cases k with
    | zero =>
      obtain rfl : q = p := Except.ok.inj (hq.symm.trans hp)
      rw [other q fun i hi => hlast (i + 1) (by omega) (by simpa using hi), State.storeByte_read hm, if_pos rfl]
      exact Option.some.inj hk
    | succ k => exact byte k p v hk hp fun i hki hi => hlast (i + 1) (by omega) (by simpa using hi)
  · have hpq : p ≠ q := by
      rintro rfl
      exact hp 0 (by simp) hq
    rw [other p fun k hk => hp (k + 1) (by simpa using hk), State.storeByte_read hm, if_neg hpq]
  · rw [marks, State.storeByte_written, mem_markAddress]
    constructor
    · rintro ((rfl | hp) | ⟨k, hk, hp⟩)
      · exact .inr ⟨0, by simp, hq⟩
      · exact .inl hp
      · exact .inr ⟨k + 1, by simpa using hk, hp⟩
    · rintro (hp | ⟨k, hk, hp⟩)
      · exact .inl (.inr hp)
      · cases k with
        | zero => exact .inl (.inl (Except.ok.inj (hp.symm.trans hq)))
        | succ k => exact .inr ⟨k, by simpa using hk, hp⟩

theorem State.writeBytes_effect {s t : State} {addr : Word} {bs : List Byte} (hm : s.mem.wf = true)
    (h : s.writeBytes addr bs = .ok t) : WriteEffect s addr bs t := by
  induction bs generalizing s addr with
  | nil => cases h; exact ⟨rfl, fun k p v hk => by simp at hk, fun _ _ => rfl, fun p => by simp⟩
  | cons b bs ih =>
    simp only [State.writeBytes] at h
    cases hb : s.writeByte addr b with
    | error why => rw [hb] at h; cases h
    | ok u =>
      rw [hb] at h
      obtain ⟨q, hq, rfl⟩ := State.writeByte_ok.1 hb
      exact .cons hm (by rw [s.placeAt_zero, hq]) (ih (State.storeByte_wf hm q b) h)

/-- Settles O23: the stores of the value's bytes, the least significant first. -/
theorem memWriteIsLittleEndian : Obligations.MemWriteIsLittleEndian := by
  intro s t addr n v hm h
  obtain ⟨rest, byte, other, marks⟩ := State.writeBytes_effect hm h
  rw [toBytes_length] at byte other marks
  exact ⟨fun k p hk hp hlast => byte k p _ (leBytes_get n v k hk) hp hlast, other, marks, rest⟩

/-! ## The stack of each mode (20 R88 to R90) -/

theorem State.sp_of_hypervisor {s : State} (h : s.esr.h = true) : s.sp = s.sh := by simp [State.sp, h]

theorem State.sp_of_user {s : State} (h : s.esr.h = false) : s.sp = s.su := by simp [State.sp, h]

theorem State.restricted_of_hypervisor {s : State} (h : s.esr.h = true) : s.restricted = false := by
  simp [State.restricted, h]

theorem State.restricted_of_user {s : State} (h : s.esr.h = false) : s.restricted = s.umc.getLsbD 4 := by
  simp [State.restricted, State.rss, h]

theorem subW_one_toNat (w : Width) (u : Word) : (subW w u 1#64).toNat = (u.toNat + 2 ^ w.bits - 1) % 2 ^ w.bits := by
  have := u.isLt
  rw [subW, trunc_toNat, BitVec.toNat_sub, show (1#64).toNat = 1 from rfl]
  cases w <;> simp only [Width.bits] <;> omega

theorem addW_one_toNat (w : Width) (u : Word) : (addW w u 1#64).toNat = (u.toNat + 1) % 2 ^ w.bits := addW_toNat w u 1#64

theorem inPageOne_sub_one_toNat (u : Word) : (inPageOne (u - 1#64)).toNat = 0x100 + (u.toNat + 255) % 256 := by
  rw [inPageOne_toNat, BitVec.toNat_sub, show (1#64).toNat = 1 from rfl]
  omega

theorem inPageOne_add_one_toNat (u : Word) : (inPageOne (u + 1#64)).toNat = 0x100 + (u.toNat + 1) % 256 := by
  rw [inPageOne_toNat, BitVec.toNat_add, show (1#64).toNat = 1 from rfl]
  omega

theorem State.stackAddr_toNat (s : State) :
    (s.stackAddr s.sp).toNat =
      if s.esr.h then s.sh.toNat else if s.umc.getLsbD 4 then 0x100 + s.su.toNat % 256 else s.su.toNat := by
  unfold State.stackAddr
  cases hh : s.esr.h with
  | true => simp [State.sp_of_hypervisor hh, State.restricted_of_hypervisor hh]
  | false =>
    rw [State.sp_of_user hh, State.restricted_of_user hh]
    cases s.umc.getLsbD 4 <;> simp [inPageOne_toNat]

theorem State.pushSlot_one_toNat (s : State) :
    (s.pushSlot 1).toNat =
      if s.esr.h then (s.sh.toNat + 2 ^ s.part.width.bits - 1) % 2 ^ s.part.width.bits
      else if s.umc.getLsbD 4 then 0x100 + (s.su.toNat + 255) % 256
      else (s.su.toNat + 2 ^ s.part.width.bits - 1) % 2 ^ s.part.width.bits := by
  unfold State.pushSlot
  cases hh : s.esr.h with
  | true => simp [State.sp_of_hypervisor hh, State.restricted_of_hypervisor hh, subW_one_toNat]
  | false =>
    rw [State.sp_of_user hh, State.restricted_of_user hh]
    cases s.umc.getLsbD 4 <;> simp [inPageOne_sub_one_toNat, subW_one_toNat]

theorem State.pullSlot_one_toNat (s : State) :
    (s.pullSlot 1).toNat =
      if s.esr.h then (s.sh.toNat + 1) % 2 ^ s.part.width.bits
      else if s.umc.getLsbD 4 then 0x100 + (s.su.toNat + 1) % 256
      else (s.su.toNat + 1) % 2 ^ s.part.width.bits := by
  rw [State.pullSlot_eq]
  cases hh : s.esr.h with
  | true => simp [State.sp_of_hypervisor hh, State.restricted_of_hypervisor hh, addW_one_toNat]
  | false =>
    rw [State.sp_of_user hh, State.restricted_of_user hh]
    cases s.umc.getLsbD 4 <;> simp [inPageOne_add_one_toNat, addW_one_toNat]

theorem State.pushed_read {s : State} (hm : s.mem.wf = true) (p q : Nat) (v : Byte) :
    (s.pushed p v).mem.read q = if q = p then v else s.mem.read q := by
  rw [State.pushed, State.setSp_mem, State.storeByte_read hm]

theorem State.pushed_rest (s : State) (p : Nat) (v : Byte) :
    s.pushed p v = { s with
      su := (s.pushed p v).su, sh := (s.pushed p v).sh, mem := (s.pushed p v).mem, written := (s.pushed p v).written } := by
  unfold State.pushed State.setSp
  split <;> rfl

/-- Settles O24: one store at the slot the pointer names, and the pointer one slot on. -/
theorem pushStoresAndSteps : Obligations.PushStoresAndSteps := by
  intro s v p hm hp
  rw [State.physicalAddr_stackAddr] at hp
  refine ⟨s.stackAddr_toNat, s.pushed p v, State.push8_ok.2 ⟨p, hp, rfl⟩, fun q => State.pushed_read hm p q v,
    fun q => s.mem_pushed_written p q v, s.pushed_rest p v, ?_⟩
  have hslot := s.pushSlot_one_toNat
  cases hh : s.esr.h with
  | true => simp [State.pushed, hh, hslot]
  | false => simp [State.pushed, hh, hslot]

/-- Settles O25: one read of the next slot, and the pointer on it. -/
theorem pullReadsAndSteps : Obligations.PullReadsAndSteps := by
  intro s v h
  refine ⟨s.pullSlot_one_toNat, ?_⟩
  rw [State.pull8_eq, h]
  rfl

/-! ## A pull after a push (20 R89) -/

section
variable {s t : State} {bs : List Byte} (e : PushEffect s bs t)
include e

theorem PushEffect.part : t.part = s.part := by rw [e.rest]; exact s.setSp_part _

theorem PushEffect.restricted : t.restricted = s.restricted := by rw [e.rest]; exact s.setSp_restricted _

theorem PushEffect.physicalAddr (addr : Word) : t.physicalAddr addr = s.physicalAddr addr := by
  rw [e.rest]; exact s.setSp_physicalAddr _ addr

theorem PushEffect.sp_eq (h : s.pushSlot 0 = s.sp) : t.sp = s.pushSlot bs.length := by
  have hsp : t.sp = if bs = [] then s.sp else s.pushSlot bs.length := by rw [e.rest]; exact s.setSp_sp _
  rw [hsp]
  split
  · rename_i hnil
    rw [hnil, List.length_nil, h]
  · rfl

end

theorem sub_ofNat_add_ofNat (x : Word) {n j : Nat} (h : j ≤ n) :
    x - BitVec.ofNat 64 n + BitVec.ofNat 64 j = x - BitVec.ofNat 64 (n - j) := by
  obtain ⟨m, rfl⟩ := Nat.exists_eq_add_of_le h
  rw [BitVec.ofNat_add, Nat.add_sub_cancel_left]
  ring

/-- The slot of a pull is that of the push it undoes. -/
theorem State.pullSlot_of_sp {s t : State} {n j : Nat} (hp : t.part = s.part) (hr : t.restricted = s.restricted)
    (hsp : t.sp = s.pushSlot n) (hj : j ≤ n) : t.pullSlot j = s.pushSlot (n - j) := by
  rw [State.pullSlot_eq, hp, hr, hsp]
  unfold State.pushSlot
  split
  · rw [inPageOne_add, sub_ofNat_add_ofNat _ hj]
  · rw [addW_subW, sub_ofNat_add_ofNat _ hj]; rfl

/-- Where S is an address the stack can name, it is the first slot. -/
theorem State.pushSlot_zero {s : State} (hf : fitsW s.part.width s.sp = true)
    (hr : s.restricted = true → s.sp.toNat / 256 = 1) : s.pushSlot 0 = s.sp := by
  unfold State.pushSlot
  by_cases h : s.restricted = true
  · have := hr h
    rw [if_pos h]
    apply BitVec.eq_of_toNat_eq
    rw [inPageOne_toNat, BitVec.sub_zero]
    omega
  · rw [if_neg h, subW]
    simpa using (fitsW_iff _ _).1 hf

theorem leBytes_eq_map (n : Nat) (v : Word) : leBytes n v = (List.range n).map fun j => (v >>> (8 * j)).setWidth 8 := by
  apply List.ext_getElem?
  intro j
  by_cases hj : j < n
  · rw [leBytes_get n v j hj]; simp [hj]
  · rw [List.getElem?_eq_none (by simpa using hj), List.getElem?_eq_none (by simpa using hj)]

theorem leValue_leBytes_toNat (n : Nat) (v : Word) : (leValue (leBytes n v)).toNat = v.toNat % 2 ^ (8 * n) := by
  apply Nat.eq_of_testBit_eq
  intro b
  rw [BitVec.testBit_toNat, Nat.testBit_mod_two_pow, BitVec.testBit_toNat, leValue_bit]
  by_cases hn : b / 8 < n
  · rw [leBytes_get n v _ hn]
    have h1 : b % 8 < 8 := by omega
    have h2 : b < 8 * n := by omega
    have h3 : v.getLsbD b = true → b < 64 := BitVec.lt_of_getLsbD
    simpa [h1, h2, Nat.div_add_mod] using h3
  · rw [List.getElem?_eq_none (by simpa using hn)]
    have : ¬b < 8 * n := by omega
    simp [this]

/-- After pushes to distinct places the slots are read back from the last one on. -/
theorem PushEffect.readByte_pullSlot {s t : State} {bs : List Byte} (e : PushEffect s bs t) (hm : s.mem.wf = true)
    (hsp : t.sp = s.pushSlot bs.length) (hmapped : ∀ j, j < bs.length → ∃ p, s.physicalAddr (s.pushSlot j) = .ok p)
    (hdistinct : ∀ i j, i < j → j < bs.length → s.physicalAddr (s.pushSlot i) ≠ s.physicalAddr (s.pushSlot j))
    {j : Nat} {v : Byte} (hj : j < bs.length) (hv : bs[bs.length - (j + 1)]? = some v) :
    t.readByte (t.pullSlot (j + 1)) = .ok v := by
  obtain ⟨p, hp⟩ := hmapped (bs.length - (j + 1)) (by omega)
  rw [State.readByte_ok, State.pullSlot_of_sp e.part e.restricted hsp (by omega), e.physicalAddr]
  refine ⟨p, hp, e.byte hm _ p v hv hp fun i hji hi => ?_⟩
  rw [← hp]
  exact (hdistinct _ i hji hi).symm

/-- Settles O26: each pull reads the slot of the push it undoes. -/
theorem pullAfterPushReturnsTheValue : Obligations.PullAfterPushReturnsTheValue := by
  intro s t v n _ hm hf hr hdistinct h
  have h0 := State.pushSlot_zero hf hr
  rw [State.pushN_eq] at h
  have e := State.pushBytes_effect h
  have hmapped := State.pushBytes_ok_iff.1 ⟨t, h⟩
  have hsp : t.sp = s.pushSlot n := by rw [e.sp_eq h0, beBytes_length]
  have hslot (j : Nat) (hj : j ≤ n) := State.pullSlot_of_sp e.part e.restricted hsp hj
  have hread (j : Nat) (hj : j < n) : t.readByte (t.pullSlot (j + 1)) = .ok ((v >>> (8 * j)).setWidth 8) := by
    refine e.readByte_pullSlot hm (by simpa using hsp) hmapped (by simpa using hdistinct) (by simpa using hj) ?_
    rw [beBytes_length, beBytes_get v n _ (by omega)]
    congr 3; omega
  have hpulled (j : Nat) (hj : j < n) : t.pulled (0 + 1 + j) = (v >>> (8 * j)).setWidth 8 := by
    rw [Nat.zero_add, Nat.add_comm, State.pulled, hread j hj]
  have hpull := State.pullN_of_ok (s := t) 0 n fun j hj => by
    rw [Nat.zero_add, Nat.add_comm, hread j hj]; rfl
  rw [hslot 0 (Nat.zero_le n), Nat.sub_zero, ← hsp, State.setSp_self, Nat.zero_add, hslot n (Nat.le_refl n), Nat.sub_self,
    h0] at hpull
  refine ⟨_, _, hpull, ?_, rfl⟩
  rw [State.pulledValue_eq, ← leValue_leBytes_toNat, leBytes_eq_map]
  congr 2
  exact List.map_congr_left fun j hj => hpulled j (List.mem_range.1 hj)

/-! ## The bytes a step changes (20 R82, R101) -/

/-- An instruction stores nothing unless it enters an exception. -/
theorem Executed.enter_or_stores_nothing {s t : State} {i : Instr} (h : Executed s i t) :
    (∃ c ra, s.enter c ra = .ok t) ∨ t.mem = s.mem ∧ t.written = s.written := by
  cases h with
  | entry _ ht => exact .inl ⟨_, _, ht⟩
  | rti => exact .inr (by simp [State.returned])
  | rtu => exact .inr (by simp [State.returned])
  | cleim => exact .inr ⟨rfl, rfl⟩
  | cleimNop => exact .inr ⟨rfl, rfl⟩
  | sei => exact .inr ⟨rfl, rfl⟩

/-- A step is an entry from the state after the boundary, or stores nothing. -/
theorem step_stores {s t : State} (hm : s.mem.wf = true) (h : step s = .next t) :
    (∃ c ra, EntryEffect s.afterBoundary c ra t) ∨ t.mem = s.mem ∧ t.written = s.written := by
  have effect {c : Cause} {ra : Word} (ht : s.afterBoundary.enter c ra = .ok t) : EntryEffect s.afterBoundary c ra t :=
    State.enter_effect ht (by rwa [State.afterBoundary_mem])
  rcases step_cases h with ⟨c, ra, ht⟩ | ⟨i, hi⟩
  · exact .inl ⟨c, ra, effect ht⟩
  · rcases hi.enter_or_stores_nothing with ⟨c, ra, ht⟩ | hsame
    · exact .inl ⟨c, ra, effect ht⟩
    · exact .inr (by simpa using hsame)

/-- A byte an entry changes lies in the frame. -/
theorem EntryEffect.place_of_changed {s t : State} {c : Cause} {ra : Word} (e : EntryEffect s c ra t) {p : Nat}
    (h : t.mem.read p ≠ s.mem.read p) : ∃ j, j < s.entryBytes + 2 ∧ s.hypervisorAddr (s.frameSlot j) = .ok p := by
  by_contra hno
  exact h (e.memory p fun j hj hp => hno ⟨j, hj, hp⟩)

@[simp] theorem State.afterBoundary_entryBytes (s : State) : s.afterBoundary.entryBytes = s.entryBytes := by
  simp [State.entryBytes]

@[simp] theorem State.afterBoundary_frameSlot (s : State) (j : Nat) : s.afterBoundary.frameSlot j = s.frameSlot j := by
  simp [State.frameSlot]

@[simp] theorem State.afterBoundary_hypervisorAddr (s : State) (addr : Word) :
    s.afterBoundary.hypervisorAddr addr = s.hypervisorAddr addr := by simp [State.hypervisorAddr]

/-- Settles O53: what stores is an entry, and an entry stores its frame. -/
theorem onlyFrameBytesChange : Obligations.OnlyFrameBytesChange := by
  intro s t p hm h hp
  rcases step_stores hm h with ⟨c, ra, e⟩ | ⟨hmem, _⟩
  · exact ⟨by rw [e.esr], by simpa using e.place_of_changed (by simpa using hp)⟩
  · exact absurd (by rw [hmem]) hp

/-- Settles O56: an entry adds the places of its frame to the record, and nothing else touches memory or the record. -/
theorem storesAreRecorded : Obligations.StoresAreRecorded := by
  intro s t hm h
  rcases step_stores hm h with ⟨c, ra, e⟩ | ⟨hmem, hwritten⟩
  · refine ⟨fun p hp => (e.written p).2 (.inl (by simpa using hp)), fun p hp => (e.written p).2 (.inr ?_)⟩
    exact e.place_of_changed (by simpa using hp)
  · exact ⟨fun p hp => by rwa [hwritten], fun p hp => absurd (by rw [hmem]) hp⟩

/-! ## A fetch that cannot go on (20 R95, R101) -/

/-- The empty byte string begins every instruction. -/
theorem decode_nil {w : Width} {e : Encoding} (h : e.wf w = true) : decode e [] = .incomplete := by
  have hbrk : ((e.brk, Scan.found .brk) : Candidate) ∈ e.candidates := by simp [Encoding.candidates]
  rw [decode_eq]
  exact scanAll_take (Encoding.wf_prefixFree h) hbrk (n := 0) (Laws.Length.opcode_nonempty h (by simp [Encoding.opcodes]))

theorem State.fetchByte_of_miss {s : State} {got : List Byte} {why : TranslationMiss}
    (h : s.physicalAddr (s.pcAfter got.length) = .error why) : s.fetchByte got = .error (.miss why got) := by
  simp only [State.fetchByte, h]

theorem State.fetchByte_of_written {s : State} {got : List Byte} {p : Nat}
    (h : s.physicalAddr (s.pcAfter got.length) = .ok p) (hf : s.part.ifetch = .refuseWritten) (hp : p ∈ s.written) :
    s.fetchByte got = .error .written := by
  simp [State.fetchByte, State.mayFetch, h, hf, hp]

theorem State.afterFetchStop_of_refuse {s : State} {why : TranslationMiss} (h : s.onMiss why = .refuse) (got : List Byte) :
    s.afterFetchStop (.miss why got) = .error (missRefusal why) := by
  simp only [State.afterFetchStop, h]

theorem State.afterFetchStop_of_abort {s : State} {why : TranslationMiss} {n : Word} (h : s.onMiss why = .abort n)
    (got : List Byte) : s.afterFetchStop (.miss why got) = s.raiseAbort n (Config.freeUnfetchedLength got) := by
  simp only [State.afterFetchStop, h]

@[simp] theorem State.afterBoundary_pcAfter (s : State) (len : Nat) : s.afterBoundary.pcAfter len = s.pcAfter len := by
  simp [State.pcAfter]

section
variable {s : State} {got : List Byte} (hn : s.boundaryInterrupt = none) (hwf : s.part.encoding.wf s.part.width = true)
  (hb : s.afterBoundary.bytesAtPc got)
  (hi : ∀ n, 0 < n → n ≤ got.length → decode s.part.encoding (got.take n) = .incomplete)
include hn hwf hb hi

/-- A step whose fetch is stopped by the byte after `got`. -/
theorem step_of_fetchByte_error {stop : FetchStop} (hstop : s.afterBoundary.fetchByte got = .error stop) :
    step s = toOutcome (s.afterBoundary.afterFetchStop stop) := by
  have hinit (n : Nat) (hle : n ≤ got.length) : decode s.afterBoundary.part.encoding (got.take n) = .incomplete := by
    rw [State.afterBoundary_part]
    rcases Nat.eq_zero_or_pos n with rfl | hpos
    · exact decode_nil hwf
    · exact hi n hpos hle
  simp only [step, hn, State.fetch_stop hb hinit hstop]

theorem step_of_miss {why : TranslationMiss} (h : s.afterBoundary.physicalAddr (s.pcAfter got.length) = .error why) :
    step s = toOutcome (s.afterBoundary.afterFetchStop (.miss why got)) :=
  step_of_fetchByte_error hn hwf hb hi (State.fetchByte_of_miss (by rwa [State.afterBoundary_pcAfter]))

theorem step_of_refused_miss {why : TranslationMiss} (h : s.afterBoundary.physicalAddr (s.pcAfter got.length) = .error why)
    (hr : s.afterBoundary.onMiss why = .refuse) : step s = .refused (missRefusal why) := by
  rw [step_of_miss hn hwf hb hi h, State.afterFetchStop_of_refuse hr]; rfl

end

/-- Settles O12: the next byte stops the fetch, and what stops it is refused. -/
theorem stepRefusesUnfetchableBytes : Obligations.StepRefusesUnfetchableBytes := by
  intro s got hn hwf hb hi
  refine ⟨fun h hr => ?_, fun h hr => ?_, fun p hp hf hw => ?_⟩
  · exact step_of_refused_miss hn hwf hb hi h (by simpa [State.onMiss] using hr)
  · exact step_of_refused_miss hn hwf hb hi h (by simpa [State.onMiss] using hr)
  · have hstop : s.afterBoundary.fetchByte got = .error .written :=
      State.fetchByte_of_written (by rwa [State.afterBoundary_pcAfter]) (by rwa [State.afterBoundary_part])
        (by rwa [State.afterBoundary_written])
    rw [step_of_fetchByte_error hn hwf hb hi hstop]; rfl

/-- The return address of an abort, from what ABORT_RA says (60 R181). -/
theorem State.abortReturn_eq {s : State} {len : Nat} {ra : Word} (hpc : s.part.abortRa = .pc → ra = s.pc)
    (hnext : s.part.abortRa = .next → ra = s.pcAfter len) : s.abortReturn len = ra := by
  unfold State.abortReturn
  cases h : s.part.abortRa with
  | pc => exact (hpc h).symm
  | next => exact (hnext h).symm

/-- Settles O55: the miss stops the fetch, and the abort given for it is entered. -/
theorem stepTakesTheAbortOfAMiss : Obligations.StepTakesTheAbortOfAMiss := by
  intro s got why n ra hn hwf hm hb hi hmiss hno hmulti hpc hnext hready
  have habort : s.afterBoundary.onMiss why = .abort n := by
    cases why with
    | noHit => simpa [State.onMiss] using hno rfl
    | multiHit => simpa [State.onMiss] using hmulti rfl
  have hra : s.afterBoundary.abortReturn (Config.freeUnfetchedLength got) = ra :=
    State.abortReturn_eq (by simpa using hpc) (by simpa using hnext)
  obtain ⟨t, ht⟩ := State.enter_isOk.2 hready
  have e := State.enter_effect ht (by rwa [State.afterBoundary_mem])
  refine ⟨t, ?_, e, e.eim.trans s.afterBoundary_eim⟩
  rw [step_of_miss hn hwf hb hi hmiss, State.afterFetchStop_of_abort habort, State.raiseAbort, hra, ht]
  rfl

end Sys2Proof.Machine

/-! The encodings: an encoded instruction is the opcode of one of the decoder's candidates followed by its operand bytes,
and what a candidate finds is encoded so; and the fetch of bytes that are none of the six encodings. -/

namespace Sys2Proof

/-! ## The candidate of an instruction (30 R111, R114) -/

/-- The operand bytes after a candidate's opcode give the instruction where they are whole, and not before. -/
structure Candidate.Gives (c : Candidate) (i : Instr) (operand : List Byte) : Prop where
  whole : ∀ rest, c.2 (operand ++ rest) = .found i rest
  segment : ∀ n, n < operand.length → c.2 (operand.take n) = .incomplete

theorem Candidate.gives_of_found (opcode : List Byte) (i : Instr) : Candidate.Gives (opcode, .found i) i [] :=
  ⟨fun _ => rfl, fun n h => absurd h n.not_lt_zero⟩

theorem Candidate.gives_of_scanOperand (opcode : List Byte) (f : List Byte → Instr) {n : Nat} {operand : List Byte}
    (h : operand.length = n) : Candidate.Gives (opcode, scanOperand n f) (f operand) operand where
  whole _ := scanOperand_append h
  segment m hm := scanOperand_short (by rw [List.length_take]; omega)

/-- A well-formed operand has the one form its TRAP encoding gives it. -/
theorem encodeTrap_candidate {w : Width} {t : TrapEncoding} {operand : TrapOperand} (h : operand.wf w t = true) :
    ∃ c ∈ t.candidates, ∃ bytes, encodeTrap t operand = c.1 ++ bytes ∧ Candidate.Gives c (.trap operand) bytes := by
  match t, operand, h with
  | .immediate opcode n, .imm v, h =>
    simp only [TrapOperand.wf, Bool.and_eq_true, decide_eq_true_eq] at h
    have hv : fromBytes (toBytes n v) = v := fromBytes_toBytes n v (by rw [Nat.pow_mul]; exact h.2)
    have gives := Candidate.gives_of_scanOperand opcode (fun bytes => .trap (.imm (fromBytes bytes))) (toBytes_length n v)
    rw [hv] at gives
    exact ⟨_, List.mem_singleton.2 rfl, _, rfl, gives⟩
  | .register opcode r, .reg r', h =>
    obtain rfl : r' = r := by simpa [TrapOperand.wf] using h
    exact ⟨_, List.mem_singleton.2 rfl, [], (List.append_nil _).symm, Candidate.gives_of_found ..⟩
  | .inOpcode rows, .imm v, h =>
    have hv : v ∈ rows.map Prod.snd := by simpa [TrapOperand.wf] using h
    exact ⟨_, List.mem_map_of_mem (trapRowOpcode_mem hv), [], (List.append_nil _).symm, Candidate.gives_of_found ..⟩
  | .free opcode n, .free raw, h =>
    have hraw : raw.length = n := by simpa [TrapOperand.wf] using h
    exact ⟨_, List.mem_singleton.2 rfl, raw, rfl, Candidate.gives_of_scanOperand opcode (fun bytes => .trap (.free bytes)) hraw⟩

/-- The encoding of a well-formed instruction is the opcode of a candidate and the operand bytes that give it. -/
theorem encode_candidate {w : Width} {e : Encoding} {i : Instr} (h : i.wf w e = true) :
    ∃ c ∈ e.candidates, ∃ operand, encode e i = c.1 ++ operand ∧ Candidate.Gives c i operand := by
  have fixed (j : Instr) (hc : (encode e j, Scan.found j) ∈ e.candidates) :
      ∃ c ∈ e.candidates, ∃ operand, encode e j = c.1 ++ operand ∧ Candidate.Gives c j operand :=
    ⟨_, hc, [], (List.append_nil _).symm, Candidate.gives_of_found ..⟩
  cases i with
  | trap operand =>
    obtain ⟨c, hc, bytes, hbytes, gives⟩ := encodeTrap_candidate h
    exact ⟨c, by simp [Encoding.candidates, hc], bytes, hbytes, gives⟩
  | brk => exact fixed _ (by simp [Encoding.candidates, encode])
  | rti => exact fixed _ (by simp [Encoding.candidates, encode])
  | rtu => exact fixed _ (by simp [Encoding.candidates, encode])
  | cleim => exact fixed _ (by simp [Encoding.candidates, encode])
  | sei => exact fixed _ (by simp [Encoding.candidates, encode])

/-- Settles O5: the candidate of the instruction decides, and it gives the instruction. -/
theorem decodeInvertsEncode : Obligations.DecodeInvertsEncode := by
  intro w e i rest he hi
  obtain ⟨c, hc, operand, hencode, gives⟩ := encode_candidate hi
  rw [decode_eq, hencode, List.append_assoc, scanAll_mem (Encoding.wf_prefixFree he) hc, gives.whole]

/-- Settles O7: the segment ends inside the opcode of the instruction's candidate, or inside the operand after it. -/
theorem properSegmentsAreIncomplete : Obligations.ProperSegmentsAreIncomplete := by
  intro w e i n he hi hn
  obtain ⟨c, hc, operand, hencode, gives⟩ := encode_candidate hi
  have hfree := Encoding.wf_prefixFree he
  rw [hencode, List.length_append] at hn
  rw [decode_eq, hencode]
  rcases Nat.lt_or_ge n c.1.length with hopcode | hoperand
  · rw [List.take_append_of_le_length hopcode.le, scanAll_take hfree hc hopcode]
  · rw [List.take_append, List.take_of_length_le hoperand, scanAll_mem hfree hc, gives.segment _ (by omega)]

/-! ## What a candidate finds -/

/-- The value of an operand is one of its bytes, and of `W` bits where `W` has as many. -/
theorem fromBytes_imm_wf {w : Width} {opcode operand : List Byte} (h : operand.length ≤ w.bytes) :
    (TrapOperand.imm (fromBytes operand)).wf w (.immediate opcode operand.length) = true := by
  have hlt := fromBytes_lt operand
  have hbits : 2 ^ (8 * operand.length) ≤ 2 ^ w.bits :=
    Nat.pow_le_pow_right (by decide) (by rw [w.bits_eq]; omega)
  simp only [TrapOperand.wf, Bool.and_eq_true, decide_eq_true_eq]
  exact ⟨fitsW_of_lt (Nat.lt_of_lt_of_le hlt hbits), by rwa [Nat.pow_mul] at hlt⟩

theorem scanOperand_split {n : Nat} {f : List Byte → Instr} {bytes rest : List Byte} {i : Instr}
    (h : scanOperand n f bytes = .found i rest) : ∃ operand, operand.length = n ∧ bytes = operand ++ rest ∧ i = f operand := by
  obtain ⟨hn, rfl, rfl⟩ := scanOperand_found h
  exact ⟨bytes.take n, List.length_take_of_le hn, (List.take_append_drop n bytes).symm, rfl⟩

/-- A candidate of TRAP finds a TRAP whose operand its encoding admits. -/
theorem TrapEncoding.candidate_found {w : Width} {t : TrapEncoding} (ht : t.wf w = true) {c : Candidate}
    (hc : c ∈ t.candidates) {r rest : List Byte} {i : Instr} (h : c.2 r = .found i rest) :
    ∃ operand, i = .trap operand ∧ operand.wf w t = true ∧ c.1 ++ r = encodeTrap t operand ++ rest := by
  cases t with
  | immediate opcode n =>
    obtain rfl := List.mem_singleton.1 hc
    dsimp only at h
    obtain ⟨operand, rfl, rfl, rfl⟩ := scanOperand_split h
    have hw : operand.length ≤ w.bytes := by simpa [TrapEncoding.wf] using ht
    have h8 : operand.length ≤ 8 := by have := w.bits_le; have := w.bits_eq; omega
    exact ⟨_, rfl, fromBytes_imm_wf hw, by rw [encodeTrap, toBytes_fromBytes operand h8, List.append_assoc]⟩
  | register opcode reg =>
    obtain rfl := List.mem_singleton.1 hc
    cases h
    exact ⟨.reg reg, rfl, by simp [TrapOperand.wf], rfl⟩
  | inOpcode rows =>
    obtain ⟨row, hrow, rfl⟩ := List.mem_map.1 hc
    cases h
    have hnodup : (rows.map Prod.snd).Nodup := by
      simp only [TrapEncoding.wf, Bool.and_eq_true, decide_eq_true_eq] at ht; exact ht.2
    exact ⟨.imm row.2, rfl, List.any_eq_true.2 ⟨row, hrow, beq_self_eq_true _⟩, by
      rw [encodeTrap, trapRowOpcode_eq hrow hnodup]⟩
  | free opcode n =>
    obtain rfl := List.mem_singleton.1 hc
    dsimp only at h
    obtain ⟨operand, rfl, rfl, rfl⟩ := scanOperand_split h
    exact ⟨.free operand, rfl, by simp [TrapOperand.wf], by rw [encodeTrap, List.append_assoc]⟩

/-- What a candidate of the six encodings finds is well formed, and its opcode and the bytes after it are the encoding. -/
theorem Encoding.candidate_found {w : Width} {e : Encoding} (he : e.wf w = true) {c : Candidate} (hc : c ∈ e.candidates)
    {r rest : List Byte} {i : Instr} (h : c.2 r = .found i rest) : c.1 ++ r = encode e i ++ rest ∧ i.wf w e = true := by
  have hmem : c ∈ e.trap.candidates ∨ c = (e.brk, .found .brk) ∨ c = (e.rti, .found .rti) ∨ c = (e.rtu, .found .rtu) ∨
      c = (e.cleim, .found .cleim) ∨ c = (e.sei, .found .sei) := by
    simpa [Encoding.candidates, or_left_comm] using hc
  rcases hmem with htrap | rfl | rfl | rfl | rfl | rfl
  · simp only [Encoding.wf, Bool.and_eq_true] at he
    obtain ⟨operand, rfl, hwf, hbytes⟩ := TrapEncoding.candidate_found he.2 htrap h
    exact ⟨hbytes, hwf⟩
  all_goals
    cases h
    exact ⟨rfl, rfl⟩

/-- Settles O6: what the decoder finds is found by a candidate, after its opcode. -/
theorem encodeInvertsDecode : Obligations.EncodeInvertsDecode := by
  intro w e i bytes rest he h
  rw [decode_eq] at h
  obtain ⟨c, hc, r, rfl, hr⟩ := scanAll_found h
  exact Encoding.candidate_found he hc hr

/-- Settles O8, a closed fact about the bytes of State.reset's part. -/
theorem tableWordsDecode : Obligations.TableWordsDecode := by
  unfold Obligations.TableWordsDecode
  decide

end Sys2Proof

namespace Sys2Proof.Machine

/-! ## The fetch of bytes the decoder answers (30 R113, R114) -/

/-- Bytes that go on being the beginning of an encoding up to the last are no more than the longest instruction has. -/
theorem length_le_maxLength {e : Encoding} {bytes : List Byte}
    (h : ∀ n, n < bytes.length → decode e (bytes.take n) = .incomplete) : bytes.length ≤ e.maxLength := by
  rcases Nat.eq_zero_or_pos bytes.length with hnil | hpos
  · omega
  · have hlast := decode_incomplete (h (bytes.length - 1) (by omega))
    rw [List.length_take] at hlast
    omega

/-- The fetch at PC answers what the decoder says of the first bytes it has an answer to. -/
theorem State.fetch_of {s : State} {bytes : List Byte} (hb : s.bytesAtPc bytes)
    (hi : ∀ n, n < bytes.length → decode s.part.encoding (bytes.take n) = .incomplete)
    (hd : decode s.part.encoding bytes ≠ .incomplete) : s.fetch = scanAnswer (decode s.part.encoding bytes) :=
  State.fetchFrom_of hb hi hd 0 _ (Nat.zero_le _) (Nat.lt_succ_of_le (length_le_maxLength hi))

/-- Settles O11: the fetch stops because the bytes are in no encoding, and that stop is refused under its name. -/
theorem stepRefusesBytesNotInSpec : Obligations.StepRefusesBytesNotInSpec := by
  intro s bytes hn hb hi hd
  have hd' : decode s.afterBoundary.part.encoding bytes = .notInSpec := by rwa [State.afterBoundary_part]
  have hfetch : s.afterBoundary.fetch = .error .notInSpec := by
    rw [State.fetch_of hb (by rwa [State.afterBoundary_part]) (by rw [hd']; simp), hd']
    rfl
  simp only [step, hn, hfetch]
  rfl

end Sys2Proof.Machine

/-! Exceptions and returns (spec 40): BRK and TRAP enter where the entry is ready; RTI and RTU are one operation, which
returns, takes the PRIVRTI abort or is refused; and TRAP's number in each form of its operand. -/

namespace Sys2Proof.Machine

/-! ## BRK, TRAP (40 R130, R131) -/

/-- An entry that is ready is taken, and has its effect. -/
theorem State.enter_of_ready {s : State} {c : Cause} {ra : Word} (hr : s.entryReady c ra = true) (hm : s.mem.wf = true) :
    ∃ t, toOutcome (s.enter c ra) = .next t ∧ EntryEffect s c ra t := by
  obtain ⟨t, ht⟩ := State.enter_isOk.2 hr
  exact ⟨t, toOutcome_next.2 ht, State.enter_effect ht hm⟩

/-- Settles O29: BRK is its entry, and no entry but an interrupt's writes EIM. -/
theorem brkEnters : Obligations.BrkEnters := by
  intro s hm hr
  obtain ⟨t, ht, e⟩ := State.enter_of_ready hr hm
  exact ⟨t, ht, e, e.eim⟩

theorem State.trapAllowed_iff (s : State) (n : Word) : s.trapAllowed n = true ↔ n < s.tmv := by
  rw [State.trapAllowed, BitVec.ult_iff_lt]

theorem exec_trap_of_allowed {s : State} {operand : TrapOperand} (h : s.trapNumber operand < s.tmv) :
    exec (.trap operand) s =
      toOutcome (s.enter (.trap (s.trapNumber operand)) (s.pcAfter (s.len (.trap operand)))) :=
  if_pos ((s.trapAllowed_iff _).2 h)

theorem State.pcAfter_toNat (s : State) (len : Nat) :
    (s.pcAfter len).toNat = (s.pc.toNat + len) % 2 ^ s.part.width.bits := by
  rw [State.pcAfter, addW_toNat, BitVec.toNat_ofNat, Nat.add_mod, Nat.mod_mod_of_dvd _ s.part.width.two_pow_dvd,
    ← Nat.add_mod]

/-- Settles O30: a TRAP with an allowed number is its entry. -/
theorem trapEnters : Obligations.TrapEnters := by
  intro s operand hm hn hr
  obtain ⟨t, ht, e⟩ := State.enter_of_ready hr hm
  exact ⟨t, (exec_trap_of_allowed hn).trans ht, e, s.pcAfter_toNat _⟩

/-! ## RTI, RTU (40 R132 to R134) -/

theorem State.returnReady_size {s : State} (h : s.returnReady = true) : 8 * s.returnBytes ≤ s.part.width.bits := by
  simp only [State.returnReady, Bool.and_eq_true, decide_eq_true_eq] at h
  exact h.1.2

/-- A return that is ready completes, and has its effect. -/
theorem State.return_of_ready {s : State} (mn : ReturnKind) (len : Nat) (h : s.returnReady = true) :
    toOutcome (s.returnFromFrame mn len) = .next (s.returned mn) ∧ ReturnEffect s (s.returned mn) :=
  ⟨toOutcome_next.2 (State.returnFromFrame_ready mn len h), State.returned_effect mn (State.returnReady_size h)⟩

/-- Settles O33: the return completes, and RTI's EIM is IMR in hypervisor mode alone. -/
theorem rtiReturns : Obligations.RtiReturns := by
  intro s hr
  obtain ⟨ht, e⟩ := State.return_of_ready .rti (s.len .rti) hr
  exact ⟨s.returned .rti, ht, e, rfl⟩

/-- Settles O34: the return completes, and RTU's EIM is the one before. -/
theorem rtuReturns : Obligations.RtuReturns := by
  intro s hr
  obtain ⟨ht, e⟩ := State.return_of_ready .rtu (s.len .rtu) hr
  exact ⟨s.returned .rtu, ht, e, rfl⟩

/-- RTI and RTU are one operation, which differs in what it does to EIM. -/
theorem exec_return {i : Instr} (h : i = .rti ∨ i = .rtu) (s : State) :
    ∃ mn, exec i s = toOutcome (s.returnFromFrame mn (s.len i)) := by
  rcases h with rfl | rfl
  · exact ⟨.rti, rfl⟩
  · exact ⟨.rtu, rfl⟩

/-- Settles O35: the return takes the abort, and the abort's entry is ready. -/
theorem privrtiAborts : Obligations.PrivrtiAborts := by
  intro s i ra hi hm hc hu hh hpc hnext hr
  obtain ⟨mn, hexec⟩ := exec_return hi s
  obtain ⟨t, ht, e⟩ := State.enter_of_ready hr hm
  have hp : s.privilegeViolation = true := by rw [State.privilegeViolation, hu, hh]; rfl
  have hra : s.abortReturn (s.len i) = ra := State.abortReturn_eq hpc hnext
  refine ⟨t, ?_, e⟩
  rw [hexec, State.returnFromFrame_privrti mn _ hc hp, State.raiseAbort, hra, ht]

theorem State.returnFromFrame_too_wide {s : State} (mn : ReturnKind) (len : Nat) (hc : s.copiesMapped = true)
    (hp : s.privilegeViolation = false) (hw : s.part.width.bits < 8 * s.returnBytes) :
    s.returnFromFrame mn len = .error .frameWiderThanW := by
  rw [State.returnFromFrame_eq mn len hc, hp, if_neg Bool.false_ne_true, if_pos hw]

theorem State.pullN_of_unmapped {s : State} (h : s.returnMapped = false) :
    ((s.setSp (s.pullSlot 2)).pullN s.returnBytes).isOk = false := by
  rw [Bool.eq_false_iff]
  intro hok
  have hslots := (s.pullN_isOk 2 _).1 hok
  have hmapped : s.returnMapped = true := by
    simp only [State.returnMapped, List.all_eq_true, List.mem_range]
    intro j hj
    rw [show j + 3 = 2 + 1 + j by omega]
    exact hslots j hj
  rw [h] at hmapped
  cases hmapped

theorem State.returnFromFrame_address_unmapped {s : State} (mn : ReturnKind) (len : Nat) (hc : s.copiesMapped = true)
    (hp : s.privilegeViolation = false) (hk : 8 * s.returnBytes ≤ s.part.width.bits) (h : s.returnMapped = false) :
    ∃ why, s.returnFromFrame mn len = .error (.faultDuringEntry why) := by
  obtain ⟨why, hwhy⟩ := duringEntry_error (State.pullN_of_unmapped h)
  refine ⟨why, ?_⟩
  rw [State.returnFromFrame_eq mn len hc, hp, if_neg Bool.false_ne_true, if_neg (Nat.not_lt.2 hk), hwhy]
  rfl

/-- Settles O36: the three places where the one operation of both returns stops. -/
theorem returnRefusals : Obligations.ReturnRefusals := by
  intro s i hi
  obtain ⟨mn, hexec⟩ := exec_return hi s
  rw [hexec]
  refine ⟨fun hc => ?_, fun hc hp hw => ?_, fun hc hp hk h => ?_⟩
  · obtain ⟨why, hwhy⟩ := State.returnFromFrame_unmapped mn (s.len i) hc
    exact ⟨why, by rw [hwhy]; rfl⟩
  · rw [State.returnFromFrame_too_wide mn _ hc hp hw]; rfl
  · obtain ⟨why, hwhy⟩ := State.returnFromFrame_address_unmapped mn (s.len i) hc hp hk h
    exact ⟨why, by rw [hwhy]; rfl⟩

/-! ## TRAP's number (40 R131; log 11) -/

/-- A three bit register is read zero-extended. -/
theorem trunc_levelByte (w : Width) (l : Level) : (trunc w ((levelByte l).setWidth 64)).toNat = l.toNat := by
  rw [trunc_byte, levelByte_toNat]

/-- The free form looks at the part, the container sets and the registers, and at nothing else. -/
theorem State.trapNumber_free_congr {s t : State} (hp : t.part = s.part) (hc : t.containers = s.containers)
    (hr : ∀ r, t.register r = s.register r) (raw : List Byte) : t.trapNumber (.free raw) = s.trapNumber (.free raw) := by
  have hregs : t.registers = s.registers := by simp only [State.registers, hc, hr]
  simp only [State.trapNumber, hp, hregs]

/-- Settles O32: a number is a truncation, which a value of no more than `W` bits comes through whole. -/
theorem trapNumberIsTheOperand : Obligations.TrapNumberIsTheOperand := by
  intro s
  have hbyte := trunc_byte s.part.width
  have hlevel := trunc_levelByte s.part.width
  refine ⟨fun n => trunc_toNat s.part.width n, fun h => ?_, ?_, fun h i c hc => ?_, s.trapNumber_lt, ?_⟩
  · simp only [State.registersFit, List.all_cons, List.all_nil, Bool.and_eq_true, and_true, fitsW_iff] at h
    obtain ⟨hpc, ha, hx, hy, he, hb, hsu, hsh, hiv, htv, hav, htmv⟩ := h
    have hsp : trunc s.part.width s.sp = if s.esr.h then s.sh else s.su := by
      rw [State.sp_eq]; split <;> assumption
    exact ⟨hpc, ha, hx, hy, he, hb, hsp, hsu, hsh, hiv, htv, hav, htmv⟩
  · exact ⟨hbyte _, hbyte _, hlevel _, hlevel _, hlevel _, hbyte _, hbyte _, hbyte _, hlevel _⟩
  · obtain ⟨hmask, hcmp, hofs⟩ := State.containersFit_get h hc
    have hreg (r : Reg) (f : ContainerSet → Word) (hf : fitsW s.part.width (f c) = true) :
        trunc s.part.width (s.containerReg r i f) = f c := by rw [State.containerReg_of hc, (fitsW_iff _ _).1 hf]
    exact ⟨hreg _ _ hmask, hreg _ _ hcmp, hreg _ _ hofs⟩
  · intro raw mem written lines nmi inputs draws hisr
    refine State.trapNumber_free_congr ?_ ?_ (fun r => ?_) raw
    · rfl
    · rfl
    · cases r with
      | isr => exact congrArg (fun l => (levelByte l).setWidth 64) hisr
      | _ => rfl

end Sys2Proof.Machine

/-! Mask control (spec 41): CLEIM in each mode, SEI, and what the boundary after SEI initiates. -/

namespace Sys2Proof.Machine

/-! ## Acceptance of the level ISR shows (60 R162 to R167) -/

theorem State.maskableEntry_of_initiates {s : State} (h0 : s.isr ≠ 0) (h : s.initiates s.isr = true) :
    s.maskableEntry = some s.isr := by
  rw [State.maskableEntry, if_neg h0, if_pos h]

theorem State.maskableEntry_of_held {s : State} (h : s.initiates s.isr = false) : s.maskableEntry = none := by
  rw [State.maskableEntry, h, if_neg Bool.false_ne_true, ite_self]

theorem State.initiates_hypervisor_masked {s : State} (hi : s.sr.i = true) (hh : s.esr.h = true) (level : Level) :
    s.initiates level = false := by
  rw [State.initiates, hi, hh]

theorem State.initiates_user_masked {s : State} (hi : s.sr.i = true) (hu : s.esr.h = false) (level : Level) :
    s.initiates level = s.userMaskedTest level := by
  rw [State.initiates, hi, hu]

theorem State.levelTest_of_lt {s : State} {level : Level} (himr : level ≤ s.imr) (heim : level < s.eim) :
    s.levelTest level = true := by
  rw [State.levelTest, State.imrEnables, BitVec.ule_iff_le.2 himr, BitVec.ult_iff_lt.2 heim]
  rfl

theorem State.uimPasses_of_lt {s : State} {level : Level} (h : level < s.uim) : s.uimPasses level = true := by
  rw [State.uimPasses, BitVec.ult_iff_lt.2 h, Bool.true_or]

theorem State.uimPasses_of_gt {s : State} {level : Level} (h : s.uim < level) : s.uimPasses level = false := by
  have hlt : level.ult s.uim = false := Bool.eq_false_iff.2 fun hl => BitVec.lt_asymm h (BitVec.ult_iff_lt.1 hl)
  have hne : (level == s.uim) = false := beq_false_of_ne (BitVec.ne_of_lt h).symm
  rw [State.uimPasses, hlt, hne, Bool.false_and, Bool.or_false]

/-- UIM has the last word in holding a level back, whatever UIM_COMBINE is (60 R166). -/
theorem State.userMaskedTest_of_not_uimPasses {s : State} {level : Level} (h : s.uimPasses level = false) :
    s.userMaskedTest level = false := by
  unfold State.userMaskedTest
  cases s.part.uimCombine with
  | and => exact Bool.and_eq_false_imp.2 fun hp => absurd hp (Bool.eq_false_iff.1 h)
  | replace => exact h

/-- A level that UIM, IMR and EIM all let through is let through, whatever UIM_COMBINE is (60 R166). -/
theorem State.userMaskedTest_of_passes {s : State} {level : Level} (hu : s.uimPasses level = true)
    (hl : s.levelTest level = true) : s.userMaskedTest level = true := by
  unfold State.userMaskedTest
  cases s.part.uimCombine with
  | and => exact Bool.and_eq_true_iff.2 ⟨hu, hl⟩
  | replace => exact hu

/-! With I set, hypervisor mode initiates no maskable interrupt, and user mode as UIM lets it (60 R164 to R166). -/

theorem State.maskableEntry_hypervisor_masked {s : State} (hi : s.sr.i = true) (hh : s.esr.h = true) :
    s.maskableEntry = none :=
  State.maskableEntry_of_held (State.initiates_hypervisor_masked hi hh _)

theorem State.maskableEntry_above_uim {s : State} (hi : s.sr.i = true) (hu : s.esr.h = false) (h : s.uim < s.isr) :
    s.maskableEntry = none := by
  apply State.maskableEntry_of_held
  rw [State.initiates_user_masked hi hu]
  exact State.userMaskedTest_of_not_uimPasses (State.uimPasses_of_gt h)

theorem State.maskableEntry_below_uim {s : State} (hi : s.sr.i = true) (hu : s.esr.h = false) (h0 : s.isr ≠ 0)
    (huim : s.isr < s.uim) (himr : s.isr ≤ s.imr) (heim : s.isr < s.eim) : s.maskableEntry = some s.isr := by
  apply State.maskableEntry_of_initiates h0
  rw [State.initiates_user_masked hi hu]
  exact State.userMaskedTest_of_passes (State.uimPasses_of_lt huim) (State.levelTest_of_lt himr heim)

/-! ## SEI (41 R151) -/

theorem exec_sei (s : State) :
    exec .sei s = .next { s with sr := { s.sr with i := true }, pc := s.pcAfter (s.len .sei) } := rfl

/-- Settles O41: SEI leaves the mode, the masks and the draw alone and sets I, so the rules for I set apply. -/
theorem seiSetsTheInterruptBit : Obligations.SeiSetsTheInterruptBit := by
  intro s
  refine ⟨exec_sei s, s.pcAfter_toNat _, ?_⟩
  intro t ht lines nmi u hu
  cases ht
  have hi : u.sr.i = true := by rw [hu]; rfl
  have hmode : u.esr.h = s.esr.h := by rw [hu]; rfl
  refine ⟨fun hh => ?_, fun hh => ?_, fun hh => ?_, ?_⟩
  · exact State.maskableEntry_hypervisor_masked hi (hmode.trans hh)
  · exact State.maskableEntry_above_uim hi (hmode.trans hh)
  · exact State.maskableEntry_below_uim hi (hmode.trans hh)
  · rw [hu]; rfl

/-! ## CLEIM (41 R150) -/

theorem exec_cleim_hypervisor {s : State} (h : s.esr.h = true) :
    exec .cleim s = .next { s with eim := s.imr, pc := s.pcAfter (s.len .cleim) } :=
  if_pos h

theorem exec_cleim_user_nop {s : State} (hu : s.esr.h = false) (hn : s.part.cleimUser = .nop) :
    exec .cleim s = .next { s with pc := s.pcAfter (s.len .cleim) } := by
  simp only [exec, execCleim, hu, hn, Bool.false_eq_true, if_false]
  rfl

theorem exec_cleim_user_abort {s : State} {n : Word} (hu : s.esr.h = false) (hn : s.part.cleimUser = .abort n) :
    exec .cleim s = toOutcome (s.raiseAbort n (s.len .cleim)) := by
  simp only [exec, execCleim, hu, hn, Bool.false_eq_true, if_false]

/-- Settles O40: under `abort` CLEIM is the entry of an abort, which does not write EIM. -/
theorem cleimInUserMode : Obligations.CleimInUserMode := by
  intro s hu
  refine ⟨exec_cleim_user_nop hu, fun n ra hn hm hpc hnext hr => ?_⟩
  obtain ⟨t, ht, e⟩ := State.enter_of_ready hr hm
  have hra : s.abortReturn (s.len .cleim) = ra := State.abortReturn_eq hpc hnext
  refine ⟨t, ?_, e, e.eim⟩
  rw [exec_cleim_user_abort hu hn, State.raiseAbort, hra, ht]

/-- Settles O39, from what CLEIM does in hypervisor mode and the sum that PC becomes. -/
theorem cleimInHypervisorMode : Obligations.CleimInHypervisorMode :=
  fun s h => ⟨exec_cleim_hypervisor h, s.pcAfter_toNat _⟩

end Sys2Proof.Machine

/-! Interrupt status, masks and acceptance (60 sections 2 and 3): what ISR shows, the level test, the mode gate, UIM, and
NMI's draw. -/

namespace Sys2Proof.Machine

/-! ## The level ISR shows (60 R162) -/

/-- The levels a line can have, in rising order (60 R161). -/
def maskableLevels : List Level := [1, 2, 3, 4, 5, 6, 7]

theorem mem_maskableLevels {level : Level} (h : level ≠ 0) : level ∈ maskableLevels := by
  revert level; decide

theorem maskableLevels_ne_zero {level : Level} (h : level ∈ maskableLevels) : level ≠ 0 := by
  revert level; decide

theorem maskableLevels_rising : maskableLevels.Pairwise (· < ·) := by decide

/-- The active levels are those whose line is active, in rising order. -/
theorem Lines.levels_eq (s : State) : s.lines.levels = maskableLevels.filter s.lineActive := by
  have hpairs : [(1, s.lines.line1), (2, s.lines.line2), (3, s.lines.line3), (4, s.lines.line4), (5, s.lines.line5),
      (6, s.lines.line6), (7, s.lines.line7)] = maskableLevels.map fun level => (level, s.lineActive level) := by
    simp [maskableLevels, State.lineActive]
  have hguard : (fun level => if s.lineActive level then some level else none) = Option.guard s.lineActive := by
    funext level; simp [Option.guard]
  rw [Lines.levels, hpairs, List.filterMap_map, ← List.filterMap_eq_filter, ← hguard]
  rfl

theorem State.lineActive_zero (s : State) : s.lineActive 0 = false := rfl

/-- ISR is 0 with no line active, or the first of the active levels. -/
theorem State.isr_cases (s : State) :
    (s.isr = 0 ∧ ∀ level, s.lineActive level = false) ∨
      (s.isr ≠ 0 ∧ s.lineActive s.isr = true ∧ ∀ level, s.lineActive level = true → s.isr ≤ level) := by
  have hne {level : Level} (h : s.lineActive level = true) : level ≠ 0 := by
    rintro rfl
    rw [s.lineActive_zero] at h
    cases h
  have hmem (level : Level) : level ∈ maskableLevels.filter s.lineActive ↔ s.lineActive level = true := by
    rw [List.mem_filter]
    exact ⟨And.right, fun h => ⟨mem_maskableLevels (hne h), h⟩⟩
  have hisr : s.isr = (maskableLevels.filter s.lineActive).head?.getD 0 := by rw [← Lines.levels_eq]; rfl
  have hrising := maskableLevels_rising.filter s.lineActive
  cases hl : maskableLevels.filter s.lineActive with
  | nil =>
    rw [hl] at hisr hmem
    refine .inl ⟨hisr, fun level => ?_⟩
    simpa using hmem level
  | cons first later =>
    rw [hl] at hisr hmem hrising
    obtain rfl : s.isr = first := hisr
    have hactive : s.lineActive s.isr = true := (hmem _).1 List.mem_cons_self
    refine .inr ⟨hne hactive, hactive, fun level h => ?_⟩
    rcases List.mem_cons.1 ((hmem level).2 h) with rfl | hlater
    · exact BitVec.le_refl _
    · exact BitVec.le_of_lt ((List.pairwise_cons.1 hrising).1 level hlater)

/-- Settles O42: ISR is the first of the active levels, which rise. -/
theorem isrShowsTheSmallestActiveLevel : Obligations.IsrShowsTheSmallestActiveLevel := by
  intro s
  refine ⟨⟨fun h0 => ?_, fun hnone => ?_⟩, fun h0 => ?_, fun level hlevel => ?_, fun _ _ _ _ _ => rfl⟩
  · rcases s.isr_cases with ⟨_, hnone⟩ | ⟨hne, _⟩
    · exact hnone
    · exact absurd h0 hne
  · rcases s.isr_cases with ⟨h0, _⟩ | ⟨_, hactive, _⟩
    · exact h0
    · rw [hnone] at hactive; cases hactive
  · rcases s.isr_cases with ⟨h, _⟩ | ⟨_, hactive, _⟩
    · exact absurd h h0
    · exact hactive
  · rcases s.isr_cases with ⟨_, hnone⟩ | ⟨_, _, hleast⟩
    · rw [hnone] at hlevel; cases hlevel
    · exact hleast level hlevel

/-! ## The level test and the mode gate (60 R163 to R168) -/

theorem State.imrEnables_iff (s : State) (level : Level) : s.imrEnables level = true ↔ level ≤ s.imr := BitVec.ule_iff_le

theorem State.levelTest_of_imr_lt {s : State} {level : Level} (h : s.imr < level) : s.levelTest level = false := by
  have hoff : s.imrEnables level = false := Bool.eq_false_iff.2 fun hon =>
    BitVec.not_le.2 h ((s.imrEnables_iff level).1 hon)
  rw [State.levelTest, hoff, Bool.false_and]

theorem State.imrEnables_of_levelTest {s : State} {level : Level} (h : s.levelTest level = true) :
    s.imrEnables level = true := (Bool.and_eq_true_iff.1 h).1

theorem State.levelTest_of_eim_lt {s : State} {level : Level} (h : s.eim < level) : s.levelTest level = false := by
  have hlt : level.ult s.eim = false := Bool.eq_false_iff.2 fun hl => BitVec.lt_asymm h (BitVec.ult_iff_lt.1 hl)
  have hne : (level == s.eim) = false := beq_false_of_ne (BitVec.ne_of_lt h).symm
  rw [State.levelTest, hlt, hne, Bool.false_and, Bool.or_false, Bool.and_false]

/-- At EIM the level test is what ACCEPT_AT_EQUAL says (60 R168). -/
theorem State.levelTest_at_eim {s : State} {level : Level} (himr : level ≤ s.imr) (heim : level = s.eim) :
    s.levelTest level = s.acceptsAtEqual := by
  have hlt : level.ult s.eim = false := by
    rw [heim]
    exact Bool.eq_false_iff.2 fun hl => BitVec.lt_irrefl _ (BitVec.ult_iff_lt.1 hl)
  have heq : (level == s.eim) = true := beq_iff_eq.2 heim
  rw [State.levelTest, (s.imrEnables_iff level).2 himr, hlt, heq, Bool.true_and, Bool.false_or, Bool.true_and]

theorem State.initiates_clear {s : State} (hi : s.sr.i = false) (level : Level) : s.initiates level = s.levelTest level := by
  rw [State.initiates, hi]

/-- What passes an open gate is left to the level test. -/
theorem State.initiates_of_gateOpen {s : State} {level : Level} (h : s.gateOpen level = true) :
    s.initiates level = s.levelTest level := by
  cases hi : s.sr.i with
  | false => exact State.initiates_clear hi level
  | true =>
    simp only [State.gateOpen, hi, Bool.not_true, Bool.false_or, Bool.and_eq_true, Bool.not_eq_true', decide_eq_true_eq] at h
    obtain ⟨⟨hu, hand⟩, hpass⟩ := h
    rw [State.initiates_user_masked hi hu, State.userMaskedTest, hand, hpass, Bool.true_and]

/-- A level that is initiated has passed the level test, save where UIM takes its place (60 R166, log 22). -/
theorem State.levelTest_of_initiates {s : State} {level : Level} (h : s.initiates level = true) :
    s.levelTest level = true ∨ (s.esr.h = false ∧ s.sr.i = true ∧ s.part.uimCombine = .replace) := by
  cases hi : s.sr.i with
  | false => rw [State.initiates_clear hi] at h; exact .inl h
  | true =>
    cases hh : s.esr.h with
    | true => rw [State.initiates_hypervisor_masked hi hh] at h; cases h
    | false =>
      cases hc : s.part.uimCombine with
      | replace => exact .inr ⟨rfl, rfl, rfl⟩
      | and =>
        rw [State.initiates_user_masked hi hh, State.userMaskedTest, hc] at h
        exact .inl (Bool.and_eq_true_iff.1 h).2

/-- Where UIM does not take its place, what the level test holds back is not initiated. -/
theorem State.maskableEntry_of_not_levelTest {s : State}
    (hmode : s.esr.h = true ∨ s.sr.i = false ∨ s.part.uimCombine = .and) (h : s.levelTest s.isr = false) :
    s.maskableEntry = none := by
  apply State.maskableEntry_of_held
  refine Bool.eq_false_iff.2 fun hinit => ?_
  rcases State.levelTest_of_initiates hinit with hl | ⟨hu, hi, hreplace⟩
  · rw [h] at hl; cases hl
  · rw [hu, hi, hreplace] at hmode
    simp at hmode

/-- Only the level ISR shows is ever initiated, and never level 0 (60 R162). -/
theorem State.maskableEntry_eq_some {s : State} {level : Level} (h : s.maskableEntry = some level) :
    level = s.isr ∧ level ≠ 0 ∧ s.initiates level = true := by
  unfold State.maskableEntry at h
  split at h
  · cases h
  · rename_i h0
    split at h
    · rename_i hinit
      cases h
      exact ⟨rfl, h0, hinit⟩
    · cases h

/-- Settles O43: the comparison with IMR, which the level test makes and NMI's draw does not. -/
theorem imrEnablesByLevel : Obligations.ImrEnablesByLevel := by
  intro s
  refine ⟨s.imrEnables_iff, fun h0 level hne => ?_, fun h7 level => ?_, fun level h => ?_, fun _ => rfl⟩
  · refine Bool.eq_false_iff.2 fun hon => hne ?_
    rw [s.imrEnables_iff, h0] at hon
    exact BitVec.le_zero_iff.1 hon
  · rw [s.imrEnables_iff, h7]
    revert level; decide
  · obtain ⟨_, _, hinit⟩ := State.maskableEntry_eq_some h
    exact (State.levelTest_of_initiates hinit).imp_left State.imrEnables_of_levelTest

/-- Settles O44: what the level test holds back and what it lets through, on the level ISR shows. -/
theorem levelTestDecides : Obligations.LevelTestDecides := by
  intro s
  refine ⟨fun h0 => if_pos h0, fun level h => (State.maskableEntry_eq_some h).1,
    fun _ hmode => ⟨fun himr => ?_, fun _ heim => ?_⟩, fun h0 himr heim hgate => ?_⟩
  · exact State.maskableEntry_of_not_levelTest hmode (State.levelTest_of_imr_lt himr)
  · exact State.maskableEntry_of_not_levelTest hmode (State.levelTest_of_eim_lt heim)
  · exact State.maskableEntry_of_initiates h0 ((State.initiates_of_gateOpen hgate).trans (State.levelTest_of_lt himr heim))

theorem State.maskableEntry_eq {s : State} (h0 : s.isr ≠ 0) :
    s.maskableEntry = if s.initiates s.isr then some s.isr else none := by
  rw [State.maskableEntry, if_neg h0]

/-- Settles O45: behind an open gate a level equal to EIM is left to ACCEPT_AT_EQUAL. -/
theorem levelEqualToEim : Obligations.LevelEqualToEim := by
  intro s h0 hgate himr heim
  have hentry : s.maskableEntry = if s.acceptsAtEqual then some s.isr else none := by
    rw [State.maskableEntry_eq h0, State.initiates_of_gateOpen hgate, State.levelTest_at_eim himr heim]
  refine ⟨fun hp => ?_, fun hp => ?_, fun hp => ?_⟩
  · simp [hentry, State.acceptsAtEqual, hp]
  · simp [hentry, State.acceptsAtEqual, hp]
  · simp only [hentry, State.acceptsAtEqual, hp]

/-- Settles O46: the mode gate is shut to the maskable interrupts, and NMI does not pass through it. -/
theorem hypervisorInterruptBitHoldsBack : Obligations.HypervisorInterruptBitHoldsBack := by
  intro s hh hi
  have hnone := State.maskableEntry_hypervisor_masked hi hh
  exact ⟨hnone, by rw [State.interruptEntry, hnone]⟩

/-! ## UIM in user mode (60 R165, R166) -/

/-- At UIM the level is let through as UIM_AT_EQUAL says (60 R166). -/
theorem State.uimPasses_at_uim {s : State} {level : Level} (h : level = s.uim) : s.uimPasses level = s.uimPassesAtEqual := by
  have hlt : level.ult s.uim = false := by
    rw [h]
    exact Bool.eq_false_iff.2 fun hl => BitVec.lt_irrefl _ (BitVec.ult_iff_lt.1 hl)
  have heq : (level == s.uim) = true := beq_iff_eq.2 h
  rw [State.uimPasses, hlt, heq, Bool.false_or, Bool.true_and]

section
variable {s : State} (hu : s.esr.h = false) (hi : s.sr.i = true)
include hu hi

/-- A level that the level test lets through, or that is not asked for it, is left to UIM. -/
theorem State.maskableEntry_by_uim (h0 : s.isr ≠ 0) (h : s.levelTest s.isr = true ∨ s.part.uimCombine = .replace) :
    s.maskableEntry = if s.uimPasses s.isr then some s.isr else none := by
  have htest : s.userMaskedTest s.isr = s.uimPasses s.isr := by
    unfold State.userMaskedTest
    rcases h with h | h
    · cases s.part.uimCombine with
      | and => simp only [h, Bool.and_true]
      | replace => rfl
    · rw [h]
  rw [State.maskableEntry_eq h0, State.initiates_user_masked hi hu, htest]

theorem State.maskableEntry_not_uimPasses (h : s.uimPasses s.isr = false) : s.maskableEntry = none := by
  apply State.maskableEntry_of_held
  rw [State.initiates_user_masked hi hu, State.userMaskedTest_of_not_uimPasses h]

/-- A level equal to UIM that is left to UIM, under each value of UIM_AT_EQUAL. -/
theorem State.maskableEntry_at_uim (h0 : s.isr ≠ 0) (heq : s.isr = s.uim)
    (h : s.levelTest s.isr = true ∨ s.part.uimCombine = .replace) :
    (s.part.uimAtEqual = .passes → s.maskableEntry = some s.isr) ∧
      (s.part.uimAtEqual = .either →
        s.maskableEntry = if Config.freeUimAtEqual s.draws then some s.isr else none) := by
  rw [State.maskableEntry_by_uim hu hi h0 h, State.uimPasses_at_uim heq]
  refine ⟨fun hp => ?_, fun hp => ?_⟩
  · simp [State.uimPassesAtEqual, hp]
  · simp only [State.uimPassesAtEqual, hp]

end

/-- With I clear the level test alone decides (60 R165). -/
theorem State.maskableEntry_clear {s : State} (hi : s.sr.i = false) :
    s.maskableEntry = if s.isr = 0 then none else if s.levelTest s.isr then some s.isr else none := by
  rw [State.maskableEntry, State.initiates_clear hi]

/-- Settles O47: with I clear the level test decides; with I set UIM does, beside the level test or in its place. -/
theorem userModeInterruptMask : Obligations.UserModeInterruptMask := by
  intro s hu
  refine ⟨fun hi uim => ?_, fun hi => ⟨State.maskableEntry_above_uim hi hu, State.maskableEntry_below_uim hi hu,
    fun heq hp => ?_, fun h0 heq hp himr heim => ?_, fun h0 heq hp himr heim => ?_, fun h0 hlt hp => ?_,
    fun h0 heq hp => State.maskableEntry_at_uim hu hi h0 heq (.inr hp), fun hand hheld => ?_⟩⟩
  · have hclear : ({ s with uim := uim } : State).sr.i = false := hi
    exact (State.maskableEntry_clear hclear).trans (State.maskableEntry_clear hi).symm
  · apply State.maskableEntry_not_uimPasses hu hi
    rw [State.uimPasses_at_uim heq, State.uimPassesAtEqual, hp]
  · exact (State.maskableEntry_at_uim hu hi h0 heq (.inl (State.levelTest_of_lt himr heim))).1 hp
  · exact (State.maskableEntry_at_uim hu hi h0 heq (.inl (State.levelTest_of_lt himr heim))).2 hp
  · rw [State.maskableEntry_by_uim hu hi h0 (.inr hp), State.uimPasses_of_lt hlt, if_pos rfl]
  · apply State.maskableEntry_of_not_levelTest (.inr (.inr hand))
    exact hheld.elim State.levelTest_of_imr_lt State.levelTest_of_eim_lt

/-! ## NMI (60 R172) -/

/-- Level 0 is entered where NMI is: the maskable interrupt has no such level. -/
theorem State.interruptEntry_eq_zero_iff (s : State) : s.interruptEntry = some 0 ↔ s.nmiEntry = true := by
  unfold State.interruptEntry
  split
  · rename_i h; simp [h]
  · rename_i h
    refine ⟨fun h0 => ?_, fun hn => absurd hn h⟩
    obtain ⟨_, hne, _⟩ := State.maskableEntry_eq_some h0
    exact absurd rfl hne

/-- Settles O48: NMI's entry is its line and its draw, which come before the maskable level. -/
theorem nmiEntryIsADraw : Obligations.NmiEntryIsADraw := by
  intro s
  refine ⟨fun hn => ?_, fun hn => ⟨?_, fun imr eim uim sr => ?_⟩, fun h0 => ?_⟩
  · simp [State.interruptEntry, State.nmiEntry, hn]
  · simp only [State.interruptEntry, State.nmiEntry, hn, Bool.true_and]
  · rw [State.interruptEntry_eq_zero_iff]
    simp [State.nmiEntry, hn]
  · exact (State.maskableEntry_eq_some h0).2.1 rfl

end Sys2Proof.Machine

/-! Exceptions (60 sections 4 and 5): the size of a return address, where an entry and a TRAP are refused, the step that
enters, the return that undoes an entry, and what changes the mode. -/

namespace Sys2Proof.Machine

/-- Settles O16, by the widths and the codes. -/
theorem returnAddressSizes : Obligations.ReturnAddressSizes := by
  intro w
  cases w <;> decide

/-- Settles O31: a number that is not below TMV is not allowed, and none is below 0. -/
theorem trapNumberNotAllowedIsRefused : Obligations.TrapNumberNotAllowedIsRefused := by
  intro s operand
  have hrefused (h : s.tmv ≤ s.trapNumber operand) : exec (.trap operand) s = .refused .trapNumberNotAllowed :=
    if_neg fun ha => BitVec.not_lt.2 h ((s.trapAllowed_iff _).1 ha)
  exact ⟨hrefused, fun h0 => hrefused (by rw [h0]; exact BitVec.le_def.2 (Nat.zero_le _))⟩

/-! ## Where an entry is refused (60 R174, R179, R184) -/

/-- The state an entry leaves but for PC, where its pushes have left `t`. -/
def State.framed (s : State) (c : Cause) (t : State) : State := (t.setSr s.entrySr).setEim (s.entryEim c)

section
variable {s : State} {c : Cause} {ra : Word}

theorem State.enter_of_too_wide (h : s.part.width.bits < 8 * s.entryBytes) : s.enter c ra = .error .frameWiderThanW :=
  if_pos h

theorem State.enter_of_not_raFits (hk : 8 * s.entryBytes ≤ s.part.width.bits)
    (hra : raFits s.part.width s.entryBytes ra = false) : s.enter c ra = .error .returnAddressDoesNotFit := by
  have hwide : raTooWide s.part.width s.entryBytes ra = true := by rw [raTooWide_eq _ _ _ hk, hra]; rfl
  exact (if_neg (Nat.not_lt.2 hk)).trans (if_pos hwide)

/-- A frame that fits is pushed, and then the vector is taken. -/
theorem State.enter_eq (hk : 8 * s.entryBytes ≤ s.part.width.bits) (hra : raFits s.part.width s.entryBytes ra = true) :
    s.enter c ra = duringEntry (s.enterMode.pushBytes (s.frameBytes c ra)) >>= fun t =>
      (s.framed c t).vecTarget (c.kind s.part) (c.number s.part) >>= fun target => .ok ((s.framed c t).setPc target) := by
  have hfits : ¬raTooWide s.part.width s.entryBytes ra = true := by rw [raTooWide_eq _ _ _ hk, hra]; decide
  have hpush := s.enterMode.pushFrame_eq s.entryBytes ra s.esr.toByte (s.sr.toByte c.bBit)
  refine (if_neg (Nat.not_lt.2 hk)).trans ((if_neg hfits).trans ?_)
  exact congrArg (fun pushed => duringEntry pushed >>= _) hpush

theorem State.pushBytes_frame_isOk :
    (s.enterMode.pushBytes (s.frameBytes c ra)).isOk = true ↔ s.frameMapped = true := by
  rw [isOk_iff, State.pushBytes_ok_iff]
  simp only [State.frameBytes_length, State.enterMode_pushSlot, State.enterMode_physicalAddr, State.frameMapped,
    List.all_eq_true, List.mem_range, isOk_iff]

theorem State.vecTarget_of_low_bits {kind : EventKind} {n : Word} (h : (s.vectorBase kind).toNat % 256 ≠ 0) :
    s.vecTarget kind n = .error .vectorBaseLowBitsNonzero :=
  if_pos fun h0 => h ((vectorBase_low _).1 h0)

/-- A vector whose base is right is taken, or a byte of it has missed. -/
theorem State.vecTarget_of_base {kind : EventKind} {n : Word} (h : (s.vectorBase kind).toNat % 256 = 0) :
    (∃ target, s.vecTarget kind n = .ok target) ∨ ∃ why, s.vecTarget kind n = .error (.faultDuringEntry why) := by
  unfold State.vecTarget
  rw [if_neg (not_not.2 ((vectorBase_low _).2 h))]
  cases s.part.vecFormat with
  | table stride bytes =>
    simp only
    cases s.memRead (vectorPlace s.part.width (s.vectorBase kind) n stride) bytes with
    | ok v => exact .inl ⟨_, rfl⟩
    | error why => exact .inr ⟨why, rfl⟩
  | code stride => exact .inl ⟨_, rfl⟩
  | free bytes =>
    simp only
    cases s.readEach ((List.range bytes).map (Config.freeVecPlace kind n (s.vectorBase kind))) with
    | ok vs => exact .inl ⟨_, rfl⟩
    | error why => exact .inr ⟨why, rfl⟩

theorem State.framed_vectorBase {t : State} (h : s.enterMode.pushBytes (s.frameBytes c ra) = .ok t) (kind : EventKind) :
    (s.framed c t).vectorBase kind = s.vectorBase kind := by
  rw [State.pushBytes_frame_shape h]
  cases kind <;> rfl

end

/-- Settles O27: the checks of an entry, in the order of its steps. -/
theorem entryRefusals : Obligations.EntryRefusals := by
  intro s c ra
  have hframed (hm : s.frameMapped = true) : ∃ t, s.enterMode.pushBytes (s.frameBytes c ra) = .ok t :=
    isOk_iff.1 (State.pushBytes_frame_isOk.2 hm)
  refine ⟨State.enter_of_too_wide, State.enter_of_not_raFits, fun hk hra hm => ?_, fun hk hra hm hb => ?_,
    fun hk hra hm hb hv => ?_⟩
  · have hmiss : (s.enterMode.pushBytes (s.frameBytes c ra)).isOk = false := by
      rw [Bool.eq_false_iff, ne_eq, State.pushBytes_frame_isOk, hm]
      exact Bool.false_ne_true
    obtain ⟨why, hwhy⟩ := duringEntry_error hmiss
    exact ⟨why, by rw [State.enter_eq hk hra, hwhy]; rfl⟩
  · obtain ⟨t, ht⟩ := hframed hm
    have hvec := State.vecTarget_of_low_bits (s := s.framed c t) (n := c.number s.part)
      (by rwa [State.framed_vectorBase ht])
    rw [State.enter_eq hk hra, ht]
    simp only [duringEntry, bind, Except.bind, hvec]
  · obtain ⟨t, ht⟩ := hframed hm
    have henter := State.enter_eq (c := c) hk hra
    rw [ht] at henter
    simp only [duringEntry, bind, Except.bind] at henter
    rcases State.vecTarget_of_base (s := s.framed c t) (n := c.number s.part) (by rwa [State.framed_vectorBase ht])
      with ⟨target, htarget⟩ | ⟨why, hwhy⟩
    · rw [htarget] at henter
      have hready := State.enter_isOk.1 ⟨_, henter⟩
      simp only [State.entryReady, hv, Bool.and_false, Bool.false_eq_true] at hready
    · exact ⟨why, by rw [henter, hwhy]⟩

/-- Settles O28, from the shape of an entry. -/
theorem entryKeepsMemoryCanonical : Obligations.EntryKeepsMemoryCanonical :=
  fun _ _ _ _ hm ht => (State.enter_shape ht).memory hm

/-! ## The step (60 R169, R173, R175) -/

/-- Settles O13: the step is the entry of the level, which is ready. -/
theorem stepEntersTheInitiatedInterrupt : Obligations.StepEntersTheInitiatedInterrupt := by
  intro s level hl hm hr
  obtain ⟨t, ht, e⟩ := State.enter_of_ready hr (by rwa [State.afterBoundary_mem])
  refine ⟨t, ?_, e, e.eim⟩
  simp only [step, hl, State.afterBoundary_pc, ht]

/-- Settles O10: the fetch reads on until the whole encoding is there, and decodes it to the instruction. -/
theorem stepRunsTheDecodedInstruction : Obligations.StepRunsTheDecodedInstruction := by
  intro s i hn he hi hb
  have hwhole : decode s.afterBoundary.part.encoding (encode s.part.encoding i) = .found i [] := by
    simpa using decodeInvertsEncode _ _ i [] he hi
  have hsegments (n : Nat) (hlt : n < (encode s.part.encoding i).length) :
      decode s.afterBoundary.part.encoding ((encode s.part.encoding i).take n) = .incomplete := by
    rw [State.afterBoundary_part]
    exact properSegmentsAreIncomplete _ _ i n he hi hlt
  have hfetch : s.afterBoundary.fetch = .ok i := by
    rw [State.fetch_of hb hsegments (by rw [hwhole]; simp), hwhole]
    rfl
  simp only [step, hn, hfetch]

/-! ## What changes the mode (60 R190) -/

/-- A return in user mode stays there: a stacked H of 1 would have been the PRIVRTI abort (40 R134). -/
theorem State.returned_user {s : State} (hu : s.esr.h = false) (hr : s.returnReady = true) (mn : ReturnKind) :
    (s.returned mn).esr.h = false := by
  simp only [State.returnReady, State.privilegeViolation, hu, Bool.and_eq_true, Bool.not_false, Bool.true_and,
    Bool.not_eq_true'] at hr
  obtain ⟨⟨⟨_, hstacked⟩, _⟩, _⟩ := hr
  exact hstacked

theorem EntryShape.hypervisor {s t : State} {c : Cause} (h : EntryShape s c t) : t.esr.h = true := by rw [h.shape]

/-- Settles O51, by what the instruction has done: entries go to hypervisor mode, returns leave user mode alone, and
nothing else touches H. -/
theorem modeChangesOnlyByEntryAndReturn : Obligations.ModeChangesOnlyByEntryAndReturn := by
  intro s t i hm h
  have stays {u : State} (hu : u.esr.h = s.esr.h) :
      (s.esr.h = false → u.esr.h = true → ∃ c ra, EntryEffect s c ra u) ∧
        (s.esr.h = true → u.esr.h = false → i = .rti ∨ i = .rtu) := by
    rw [hu]
    have hno (h0 : s.esr.h = false) (h1 : s.esr.h = true) : False := Bool.false_ne_true (h0.symm.trans h1)
    exact ⟨fun h0 h1 => (hno h0 h1).elim, fun h1 h0 => (hno h0 h1).elim⟩
  cases executed_of_next h with
  | entry _ ht =>
    refine ⟨fun _ _ => ⟨_, _, State.enter_effect ht hm⟩, fun _ h0 => ?_⟩
    rw [(State.enter_shape ht).hypervisor] at h0
    cases h0
  | rti hr =>
    refine ⟨fun hu h1 => ?_, fun _ _ => .inl rfl⟩
    rw [State.returned_user hu hr] at h1
    cases h1
  | rtu hr =>
    refine ⟨fun hu h1 => ?_, fun _ _ => .inr rfl⟩
    rw [State.returned_user hu hr] at h1
    cases h1
  | cleim => exact stays rfl
  | cleimNop => exact stays rfl
  | sei => exact stays rfl

/-- A return in user mode moves S(U). -/
theorem State.returned_sh {s : State} (hu : s.esr.h = false) (mn : ReturnKind) : (s.returned mn).sh = s.sh := by
  simp [State.returned, hu]

/-- An instruction in user mode enters an exception or leaves S(H) alone. -/
theorem Executed.enter_or_keeps_sh {s t : State} {i : Instr} (h : Executed s i t) (hu : s.esr.h = false) :
    (∃ c ra, s.enter c ra = .ok t) ∨ t.sh = s.sh := by
  cases h with
  | entry _ ht => exact .inl ⟨_, _, ht⟩
  | rti => exact .inr (State.returned_sh hu .rti)
  | rtu => exact .inr (State.returned_sh hu .rtu)
  | cleim => exact .inr rfl
  | cleimNop => exact .inr rfl
  | sei => exact .inr rfl

/-- Settles O52: an instruction that stays in user mode is no entry, and what is no entry touches none of these. -/
theorem userModeLeavesHypervisorStateAlone : Obligations.UserModeLeavesHypervisorStateAlone := by
  intro s t i hu h ht
  have he := executed_of_next h
  have hno : ¬∃ c ra, s.enter c ra = .ok t := by
    rintro ⟨c, ra, henter⟩
    rw [(State.enter_shape henter).hypervisor] at ht
    cases ht
  have heim : t.eim = s.eim := by simpa [hu] using he.eim
  exact ⟨(he.enter_or_keeps_sh hu).resolve_left hno, heim, (he.enter_or_stores_nothing.resolve_left hno).1, he.control,
    he.inputs⟩

/-! ## RTI after an entry (60 R171, R176, 40 R134) -/

section
variable (s : State) (c : Cause) (ra : Word)

theorem State.frameByte_address {j : Nat} (h : j < s.entryBytes) :
    s.frameByte c ra (s.entryBytes - (j + 1)) = (ra >>> (8 * j)).setWidth 8 := by
  have hlt : s.entryBytes - (j + 1) < s.entryBytes := by omega
  rw [State.frameByte, if_pos hlt, show s.entryBytes - 1 - (s.entryBytes - (j + 1)) = j by omega]

theorem State.frameByte_esr : s.frameByte c ra s.entryBytes = s.esr.toByte := by simp [State.frameByte]

theorem State.frameByte_sr : s.frameByte c ra (s.entryBytes + 1) = s.sr.toByte (decide (c = .brk)) := by
  simp [State.frameByte]

end

/-- The value pulled is that of which the pulls give the bytes. -/
theorem State.pulledValue_toNat {s : State} {i n : Nat} {v : Word}
    (h : ∀ j, j < n → s.pulled (i + 1 + j) = (v >>> (8 * j)).setWidth 8) :
    (s.pulledValue i n).toNat = v.toNat % 2 ^ (8 * n) := by
  rw [State.pulledValue_eq, ← leValue_leBytes_toNat, leBytes_eq_map]
  congr 2
  exact List.map_congr_left fun j hj => h j (List.mem_range.1 hj)

/-- In hypervisor mode a return reads the stack through S(H), memory and the translation alone. -/
theorem State.pull_congr {u w : State} (hu : u.esr.h = true) (hw : w.esr.h = true) (hsh : u.sh = w.sh)
    (hmem : u.mem = w.mem) (hc : u.containers = w.containers) (hhmm : u.hmm = w.hmm) (hp : u.part = w.part) (j : Nat) :
    u.pullSlot j = w.pullSlot j ∧ u.readByte (u.pullSlot j) = w.readByte (w.pullSlot j) := by
  have hslot : u.pullSlot j = w.pullSlot j := by simp only [State.pullSlot, hu, hw, hsh, hp]; rfl
  have hcode : u.matchCode = w.matchCode := by simp only [State.matchCode, hu, hw, hhmm, if_true]
  refine ⟨hslot, ?_⟩
  rw [hslot]
  simp only [State.readByte, State.physicalAddr_congr hp hc hcode, hmem]

/-- In hypervisor mode, where the bytes from S(H) up are the frame of an entry from `s`. -/
structure FrameOnStack (s : State) (c : Cause) (ra : Word) (u : State) : Prop where
  mode : u.esr.h = true
  part : u.part = s.part
  sh : u.pullSlot (s.entryBytes + 2) = s.sh
  byte : ∀ j, j < s.entryBytes + 2 → u.readByte (u.pullSlot (j + 1)) = .ok (s.frameByte c ra (s.entryBytes + 1 - j))

namespace FrameOnStack

section
variable {s : State} {c : Cause} {ra : Word} {u : State} (h : FrameOnStack s c ra u)
include h

theorem pulled {j : Nat} (hj : j < s.entryBytes + 2) : u.pulled (j + 1) = s.frameByte c ra (s.entryBytes + 1 - j) := by
  rw [State.pulled, h.byte j hj]

theorem pulled_sr : StatusReg.ofByte (u.pulled 1) = s.sr := by
  rw [h.pulled (j := 0) (by omega), Nat.sub_zero, State.frameByte_sr, StatusReg.ofByte_toByte]

theorem pulled_esr : ExtStatusReg.ofByte (u.pulled 2) = s.esr := by
  rw [h.pulled (j := 1) (by omega), Nat.add_sub_cancel, State.frameByte_esr, ExtStatusReg.ofByte_toByte]

theorem returnBytes : u.returnBytes = s.entryBytes := by
  rw [State.returnBytes, State.entryBytes, ← State.stackedSf_eq, h.pulled_esr, h.part]

theorem returnReady (hk : 8 * s.entryBytes ≤ s.part.width.bits) : u.returnReady = true := by
  have hok {j : Nat} (hj : j < s.entryBytes + 2) : (u.readByte (u.pullSlot (j + 1))).isOk = true :=
    isOk_iff.2 ⟨_, h.byte j hj⟩
  have hcopies : u.copiesMapped = true := Bool.and_eq_true_iff.2 ⟨hok (j := 0) (by omega), hok (j := 1) (by omega)⟩
  have hallowed : u.privilegeViolation = false := by rw [State.privilegeViolation, h.mode]; rfl
  have haddress : u.returnMapped = true := by
    simp only [State.returnMapped, h.returnBytes, List.all_eq_true, List.mem_range]
    exact fun j hj => hok (j := j + 2) (by omega)
  simp only [State.returnReady, hcopies, hallowed, haddress, h.returnBytes, h.part, decide_eq_true hk]
  rfl

/-- The address pulled is the one pushed, cut to the frame's size. -/
theorem pulledValue : (u.pulledValue 2 s.entryBytes).toNat = ra.toNat % 2 ^ (8 * s.entryBytes) := by
  refine State.pulledValue_toNat fun j hj => ?_
  rw [show 2 + 1 + j = j + 2 + 1 by omega, h.pulled (by omega),
    show s.entryBytes + 1 - (j + 2) = s.entryBytes - (j + 1) by omega, State.frameByte_address s c ra hj]

end

/-- The stack after an entry whose frame bytes have distinct places. -/
theorem of_enter {s t : State} {c : Cause} {ra : Word} (hm : s.mem.wf = true) (hf : fitsW s.part.width s.sh = true)
    (hdistinct : ∀ i j, i < j → j < s.entryBytes + 2 → s.hypervisorAddr (s.frameSlot i) ≠ s.hypervisorAddr (s.frameSlot j))
    (ht : s.enter c ra = .ok t) : FrameOnStack s c ra t := by
  obtain ⟨_, _, w, target, hw, _, rfl⟩ := State.enter_ok.1 ht
  have e := State.pushBytes_effect hw
  have hshape := State.pushBytes_frame_shape hw
  have hzero : s.enterMode.pushSlot 0 = s.enterMode.sp :=
    State.pushSlot_zero (by simpa [State.sp] using hf) (by simp [State.enterMode_restricted])
  have hsp := e.sp_eq hzero
  have hlen := s.frameBytes_length c ra
  have hmode : w.esr.h = true := by rw [hshape]
  have hpull (j : Nat) := State.pull_congr (u := ((w.setSr s.entrySr).setEim (s.entryEim c)).setPc target) hmode hmode
    rfl rfl rfl rfl rfl j
  refine ⟨hmode, by rw [hshape]; rfl, ?_, fun j hj => ?_⟩
  · rw [(hpull _).1, State.pullSlot_of_sp e.part e.restricted hsp (by omega), hlen, Nat.sub_self, hzero]
    simp [State.sp]
  · rw [(hpull _).2]
    refine e.readByte_pullSlot (by simpa using hm) hsp (State.pushBytes_ok_iff.1 ⟨w, hw⟩) ?_ (by omega) ?_
    · simpa only [hlen, State.enterMode_pushSlot, State.enterMode_physicalAddr] using hdistinct
    · rw [hlen, show s.entryBytes + 2 - (j + 1) = s.entryBytes + 1 - j by omega]
      exact State.frameBytes_get s c ra _ (by omega)

/-- The frame stays where it is while S(H), memory and the translation do. -/
theorem congr {s t u : State} {c : Cause} {ra : Word} (h : FrameOnStack s c ra t) (hu : u.esr.h = true) (hsh : u.sh = t.sh)
    (hmem : u.mem = t.mem) (hc : u.containers = t.containers) (hhmm : u.hmm = t.hmm) (hp : u.part = t.part) :
    FrameOnStack s c ra u := by
  have hpull := State.pull_congr hu h.mode hsh hmem hc hhmm hp
  exact ⟨hu, hp.trans h.part, (hpull _).1.trans h.sh, fun j hj => (hpull _).2.trans (h.byte j hj)⟩

end FrameOnStack

/-- Settles O38: the frame the entry pushed is still on the stack, and RTI takes its bytes back. -/
theorem rtiUndoesAnEntry : Obligations.RtiUndoesAnEntry := by
  intro s t u c ra hm hf hdistinct ht hu hsh hmem hc hhmm hp
  obtain ⟨hk, hra, _⟩ := State.enter_ok.1 ht
  have hframe := (FrameOnStack.of_enter hm hf hdistinct ht).congr hu hsh hmem hc hhmm hp
  have hbytes := hframe.returnBytes
  have hsp : (u.returned .rti).sh = u.pullSlot (u.returnBytes + 2) := by simp [State.returned, hu]
  have hsu : (u.returned .rti).su = u.su := by simp [State.returned, hu]
  refine ⟨u.returned .rti, (State.return_of_ready .rti _ (hframe.returnReady hk)).1, hframe.pulled_sr,
    hframe.pulled_esr, ?_, hsu, ?_, if_pos hu, by simp [State.returned]⟩
  · rw [hsp, hbytes, hframe.sh]
  · have hfits : ra.toNat % 2 ^ s.part.width.bits < 2 ^ (8 * s.entryBytes) := of_decide_eq_true hra
    change (trunc u.part.width (u.pulledValue 2 u.returnBytes)).toNat = _
    rw [trunc_toNat, hbytes, hframe.part, hframe.pulledValue, ← Nat.mod_mod_of_dvd ra.toNat (Nat.pow_dvd_pow 2 hk),
      Nat.mod_eq_of_lt hfits, Nat.mod_mod]

end Sys2Proof.Machine

/-! Hypervisor mode and the user mode registers (60 R191): every operation of a step in hypervisor mode goes through under a
change of UMM, UMC and UIM. -/

namespace Sys2Proof.Machine

/-! ## A change of UMM, UMC and UIM -/

/-- What UMM, UMC and UIM hold. -/
structure UserRegs where
  umm : Byte
  umc : Byte
  uim : Level

/-- `s` with other user mode registers. -/
def State.withUserRegs (s : State) (r : UserRegs) : State := { s with umm := r.umm, umc := r.umc, uim := r.uim }

@[simp] theorem State.withUserRegs_esr (s : State) (r : UserRegs) : (s.withUserRegs r).esr = s.esr := rfl
@[simp] theorem State.withUserRegs_sr (s : State) (r : UserRegs) : (s.withUserRegs r).sr = s.sr := rfl
@[simp] theorem State.withUserRegs_imr (s : State) (r : UserRegs) : (s.withUserRegs r).imr = s.imr := rfl
@[simp] theorem State.withUserRegs_hmm (s : State) (r : UserRegs) : (s.withUserRegs r).hmm = s.hmm := rfl
@[simp] theorem State.withUserRegs_mem (s : State) (r : UserRegs) : (s.withUserRegs r).mem = s.mem := rfl
@[simp] theorem State.withUserRegs_inputs (s : State) (r : UserRegs) : (s.withUserRegs r).inputs = s.inputs := rfl
@[simp] theorem State.withUserRegs_part (s : State) (r : UserRegs) : (s.withUserRegs r).part = s.part := rfl

theorem State.push8_eq (s : State) (v : Byte) : s.push8 v = (s.physicalAddr (s.pushSlot 0)).map fun p => s.pushed p v := by
  cases h : s.physicalAddr (s.pushSlot 0) with
  | error why => exact State.push8_error.2 h
  | ok p => exact State.push8_ok.2 ⟨p, h, rfl⟩

theorem State.readEach_congr {s t : State} {addrs : List Word} (h : ∀ a, t.readByte a = s.readByte a) :
    t.readEach addrs = s.readEach addrs := by
  induction addrs with
  | nil => rfl
  | cons addr addrs ih => simp only [State.readEach, h, ih]

/-! ## The accesses of hypervisor mode -/

section
variable {s : State} (hh : s.esr.h = true) (r : UserRegs)
include hh

theorem State.withUserRegs_matchCode : (s.withUserRegs r).matchCode = s.matchCode := by simp [State.matchCode, hh]

theorem State.withUserRegs_physicalAddr (addr : Word) : (s.withUserRegs r).physicalAddr addr = s.physicalAddr addr :=
  State.physicalAddr_congr (s := s) (t := s.withUserRegs r) rfl rfl (State.withUserRegs_matchCode hh r) addr

theorem State.withUserRegs_readByte (addr : Word) : (s.withUserRegs r).readByte addr = s.readByte addr := by
  simp only [State.readByte, State.withUserRegs_physicalAddr hh, State.withUserRegs_mem]

theorem State.withUserRegs_setSp (v : Word) : (s.withUserRegs r).setSp v = (s.setSp v).withUserRegs r := by
  simp only [State.setSp, State.withUserRegs_esr, hh, if_true]
  rfl

/-! ### Pushes -/

theorem State.withUserRegs_pushSlot (j : Nat) : (s.withUserRegs r).pushSlot j = s.pushSlot j := by
  have h0 : (s.withUserRegs r).restricted = false := State.restricted_of_hypervisor hh
  rw [State.pushSlot, State.pushSlot, h0, State.restricted_of_hypervisor hh]
  rfl

theorem State.withUserRegs_pushed (p : Nat) (v : Byte) :
    (s.withUserRegs r).pushed p v = (s.pushed p v).withUserRegs r := by
  have hstored : (s.storeByte p v).esr.h = true := hh
  rw [State.pushed, State.withUserRegs_pushSlot hh]
  exact State.withUserRegs_setSp hstored r _

theorem State.withUserRegs_push8 (v : Byte) :
    (s.withUserRegs r).push8 v = (s.push8 v).map fun t => t.withUserRegs r := by
  rw [State.push8_eq, State.push8_eq, State.withUserRegs_pushSlot hh, State.withUserRegs_physicalAddr hh]
  cases s.physicalAddr (s.pushSlot 0) with
  | error why => rfl
  | ok p => exact congrArg Except.ok (State.withUserRegs_pushed hh r p v)

/-! ### Pulls -/

theorem State.withUserRegs_pullSlot (j : Nat) : (s.withUserRegs r).pullSlot j = s.pullSlot j := by
  simp only [State.pullSlot, State.withUserRegs_esr, hh]
  rfl

theorem State.withUserRegs_pull8 :
    (s.withUserRegs r).pull8 = s.pull8.map fun x => (x.1, x.2.withUserRegs r) := by
  rw [State.pull8_eq, State.pull8_eq, State.withUserRegs_pullSlot hh, State.withUserRegs_readByte hh,
    State.withUserRegs_setSp hh]
  cases s.readByte (s.pullSlot 1) <;> rfl

theorem State.pull8_hypervisor {v : Byte} {t : State} (h : s.pull8 = .ok (v, t)) : t.esr.h = true := by
  rw [State.pull8_eq] at h
  cases hr : s.readByte (s.pullSlot 1) with
  | error why => rw [hr] at h; cases h
  | ok b =>
    rw [hr] at h
    cases h
    simpa using hh

end

theorem State.withUserRegs_pushBytes {s : State} (hh : s.esr.h = true) (r : UserRegs) (bs : List Byte) :
    (s.withUserRegs r).pushBytes bs = (s.pushBytes bs).map fun t => t.withUserRegs r := by
  induction bs generalizing s with
  | nil => rfl
  | cons b bs ih =>
    simp only [State.pushBytes, State.withUserRegs_push8 hh]
    cases hb : s.push8 b with
    | error why => rfl
    | ok t =>
      obtain ⟨p, _, rfl⟩ := State.push8_ok.1 hb
      exact ih (by simpa [State.pushed] using hh)

theorem State.withUserRegs_pullN {s : State} (hh : s.esr.h = true) (r : UserRegs) (n : Nat) :
    (s.withUserRegs r).pullN n = (s.pullN n).map fun x => (x.1, x.2.withUserRegs r) := by
  induction n generalizing s with
  | zero => rfl
  | succ n ih =>
    simp only [State.pullN, State.withUserRegs_pull8 hh]
    cases hv : s.pull8 with
    | error why => rfl
    | ok x =>
      simp only [Except.map, bind, Except.bind, ih (State.pull8_hypervisor hh hv)]
      cases x.2.pullN n <;> rfl

/-! ## Entry and return -/

theorem State.withUserRegs_vectorBase (s : State) (r : UserRegs) (kind : EventKind) :
    (s.withUserRegs r).vectorBase kind = s.vectorBase kind := by cases kind <;> rfl

theorem State.withUserRegs_vecTarget {s : State} (hh : s.esr.h = true) (r : UserRegs) (kind : EventKind) (n : Word) :
    (s.withUserRegs r).vecTarget kind n = s.vecTarget kind n := by
  have hread (addr : Word) (k : Nat) : (s.withUserRegs r).memRead addr k = s.memRead addr k :=
    State.memRead_congr (s := s) (t := s.withUserRegs r) rfl rfl (State.withUserRegs_matchCode hh r) rfl addr k
  have heach (addrs : List Word) : (s.withUserRegs r).readEach addrs = s.readEach addrs :=
    State.readEach_congr (State.withUserRegs_readByte hh r)
  simp only [State.vecTarget, State.withUserRegs_vectorBase, State.withUserRegs_part, hread, heach]

/-- An entry, from either mode: it runs in hypervisor mode. -/
theorem State.withUserRegs_enter (s : State) (r : UserRegs) (c : Cause) (ra : Word) :
    (s.withUserRegs r).enter c ra = (s.enter c ra).map fun t => t.withUserRegs r := by
  by_cases hk : 8 * s.entryBytes ≤ s.part.width.bits
  · cases hra : raFits s.part.width s.entryBytes ra with
    | false => rw [State.enter_of_not_raFits hk hra, State.enter_of_not_raFits (s := s.withUserRegs r) hk hra]; rfl
    | true =>
      rw [State.enter_eq hk hra, State.enter_eq (s := s.withUserRegs r) hk hra]
      have hpush : (s.withUserRegs r).enterMode.pushBytes ((s.withUserRegs r).frameBytes c ra) =
          (s.enterMode.pushBytes (s.frameBytes c ra)).map fun t => t.withUserRegs r :=
        State.withUserRegs_pushBytes (s := s.enterMode) rfl r _
      rw [hpush]
      cases ht : s.enterMode.pushBytes (s.frameBytes c ra) with
      | error why => rfl
      | ok t =>
        have hmode : (s.framed c t).esr.h = true := by rw [State.pushBytes_frame_shape ht]; rfl
        have hvec := State.withUserRegs_vecTarget hmode r (c.kind s.part) (c.number s.part)
        change ((s.framed c t).withUserRegs r).vecTarget (c.kind s.part) (c.number s.part) >>= _ = _
        rw [hvec]
        simp only [duringEntry, bind, Except.bind]
        cases (s.framed c t).vecTarget (c.kind s.part) (c.number s.part) <;> rfl
  · have hwide := Nat.lt_of_not_le hk
    rw [State.enter_of_too_wide hwide, State.enter_of_too_wide (s := s.withUserRegs r) hwide]; rfl

theorem State.withUserRegs_raiseAbort (s : State) (r : UserRegs) (n : Word) (len : Nat) :
    (s.withUserRegs r).raiseAbort n len = (s.raiseAbort n len).map fun t => t.withUserRegs r :=
  s.withUserRegs_enter r (.abort n) (s.abortReturn len)

theorem State.withUserRegs_returnFromFrame {s : State} (hh : s.esr.h = true) (r : UserRegs) (mn : ReturnKind) (len : Nat) :
    (s.withUserRegs r).returnFromFrame mn len = (s.returnFromFrame mn len).map fun t => t.withUserRegs r := by
  have heim : (s.withUserRegs r).returnEim mn = s.returnEim mn := by cases mn <;> rfl
  simp only [State.returnFromFrame, State.withUserRegs_pull8 hh, State.withUserRegs_esr, State.withUserRegs_part, hh, heim,
    Bool.not_true, Bool.false_and, Bool.false_eq_true, if_false]
  cases h1 : s.pull8 with
  | error why => rfl
  | ok x =>
    have hx := State.pull8_hypervisor hh h1
    simp only [Except.map, duringEntry, bind, Except.bind, State.withUserRegs_pull8 hx]
    cases h2 : x.2.pull8 with
    | error why => rfl
    | ok y =>
      simp only [State.withUserRegs_pullN (State.pull8_hypervisor hx h2)]
      split
      · rfl
      · cases y.2.pullN (raBytes s.part.width (ExtStatusReg.ofByte y.1).sf) <;> rfl

/-! ## The instruction and its fetch -/

/-- The same outcome, with `f` of the next state. -/
def mapNext (f : State → State) : Host.Outcome State Fault Refusal → Host.Outcome State Fault Refusal
  | .next t => .next (f t)
  | .fault why => .fault why
  | .refused why => .refused why

theorem toOutcome_map (f : State → State) (x : Except Refusal State) : toOutcome (x.map f) = mapNext f (toOutcome x) := by
  cases x <;> rfl

theorem exec_withUserRegs {s : State} (hh : s.esr.h = true) (r : UserRegs) (i : Instr)
    (hn : ∀ operand, i = .trap operand → (s.withUserRegs r).trapNumber operand = s.trapNumber operand) :
    exec i (s.withUserRegs r) = mapNext (fun t => t.withUserRegs r) (exec i s) := by
  have henter (c : Cause) (ra : Word) : toOutcome ((s.withUserRegs r).enter c ra) =
      mapNext (fun t => t.withUserRegs r) (toOutcome (s.enter c ra)) := by
    rw [State.withUserRegs_enter, toOutcome_map]
  have hreturn (mn : ReturnKind) (len : Nat) : toOutcome ((s.withUserRegs r).returnFromFrame mn len) =
      mapNext (fun t => t.withUserRegs r) (toOutcome (s.returnFromFrame mn len)) := by
    rw [State.withUserRegs_returnFromFrame hh, toOutcome_map]
  cases i with
  | brk => exact henter .brk _
  | trap operand =>
    change (if (s.withUserRegs r).trapAllowed _ then _ else _) = mapNext _ (if s.trapAllowed _ then _ else _)
    rw [hn operand rfl]
    change (if s.trapAllowed _ then _ else _) = _
    split
    · exact henter _ _
    · rfl
  | rti => exact hreturn .rti _
  | rtu => exact hreturn .rtu _
  | cleim =>
    rw [exec_cleim_hypervisor hh, exec_cleim_hypervisor (s := s.withUserRegs r) hh]
    rfl
  | sei => rfl

theorem State.withUserRegs_afterFetchStop (s : State) (r : UserRegs) (stop : FetchStop) :
    (s.withUserRegs r).afterFetchStop stop = (s.afterFetchStop stop).map fun t => t.withUserRegs r := by
  cases stop with
  | notInSpec => rfl
  | written => rfl
  | miss why got =>
    have hmiss : (s.withUserRegs r).onMiss why = s.onMiss why := by cases why <;> rfl
    simp only [State.afterFetchStop, hmiss]
    cases s.onMiss why with
    | refuse => rfl
    | abort n => exact s.withUserRegs_raiseAbort r n _

theorem State.withUserRegs_fetch {s : State} (hh : s.esr.h = true) (r : UserRegs) : (s.withUserRegs r).fetch = s.fetch := by
  have hbyte (got : List Byte) : (s.withUserRegs r).fetchByte got = s.fetchByte got := by
    simp only [State.fetchByte, State.withUserRegs_physicalAddr hh]
    rfl
  have hfrom (fuel : Nat) (got : List Byte) : (s.withUserRegs r).fetchFrom fuel got = s.fetchFrom fuel got := by
    induction fuel generalizing got with
    | zero => rfl
    | succ fuel ih => simp only [State.fetchFrom, State.withUserRegs_part, hbyte, ih]
  exact hfrom _ []

/-! ## The boundary and the step -/

theorem State.withUserRegs_sampleInputs (s : State) (r : UserRegs) :
    (s.withUserRegs r).sampleInputs = s.sampleInputs.withUserRegs r := by
  simp only [State.sampleInputs, State.withUserRegs_inputs]
  cases s.inputs <;> rfl

theorem State.withUserRegs_afterBoundary (s : State) (r : UserRegs) :
    (s.withUserRegs r).afterBoundary = s.afterBoundary.withUserRegs r := by
  rw [State.afterBoundary, State.withUserRegs_sampleInputs]
  rfl

/-- UIM is asked for in user mode alone (60 R165). -/
theorem State.withUserRegs_initiates {s : State} (hh : s.esr.h = true) (r : UserRegs) (level : Level) :
    (s.withUserRegs r).initiates level = s.initiates level := by
  cases hi : s.sr.i with
  | false =>
    rw [State.initiates_clear hi, State.initiates_clear (s := s.withUserRegs r) hi]
    rfl
  | true =>
    rw [State.initiates_hypervisor_masked hi hh, State.initiates_hypervisor_masked (s := s.withUserRegs r) hi hh]

theorem State.withUserRegs_boundaryInterrupt {s : State} (hh : s.esr.h = true) (r : UserRegs) :
    (s.withUserRegs r).boundaryInterrupt = s.boundaryInterrupt := by
  have hinit := State.withUserRegs_initiates (s := s.sampleInputs) (by simpa using hh) r s.sampleInputs.isr
  rw [State.boundaryInterrupt, State.withUserRegs_sampleInputs]
  change (if s.sampleInputs.nmiEntry then _ else if s.sampleInputs.isr = 0 then _ else
    if (s.sampleInputs.withUserRegs r).initiates s.sampleInputs.isr then _ else _) = _
  rw [hinit]
  rfl

/-- A step in hypervisor mode goes through under a change of the user mode registers, where a TRAP's number does. -/
theorem step_withUserRegs {s : State} (hh : s.esr.h = true) (r : UserRegs)
    (hn : ∀ operand, s.afterBoundary.fetch = .ok (.trap operand) →
      (s.afterBoundary.withUserRegs r).trapNumber operand = s.afterBoundary.trapNumber operand) :
    step (s.withUserRegs r) = mapNext (fun t => t.withUserRegs r) (step s) := by
  have hb : s.afterBoundary.esr.h = true := by simpa using hh
  simp only [step, State.withUserRegs_boundaryInterrupt hh, State.withUserRegs_afterBoundary, State.withUserRegs_fetch hb]
  cases s.boundaryInterrupt with
  | some level =>
    have henter := s.afterBoundary.withUserRegs_enter r (.interrupt level) s.afterBoundary.pc
    exact (congrArg toOutcome henter).trans (toOutcome_map _ _)
  | none =>
    cases hf : s.afterBoundary.fetch with
    | error stop => simp only [State.withUserRegs_afterFetchStop, toOutcome_map]
    | ok i => exact exec_withUserRegs hb r i fun operand hi => hn operand (by rw [hf, hi])

/-- A number that is read from neither of the three registers, nor by the free form, is the same. -/
theorem State.withUserRegs_trapNumber (s : State) (r : UserRegs) {operand : TrapOperand} (hfree : ∀ raw, operand ≠ .free raw)
    (humm : operand ≠ .reg .umm) (humc : operand ≠ .reg .umc) (huim : operand ≠ .reg .uim) :
    (s.withUserRegs r).trapNumber operand = s.trapNumber operand := by
  cases operand with
  | imm n => rfl
  | free raw => exact absurd rfl (hfree raw)
  | reg named =>
    cases named with
    | umm => exact absurd rfl humm
    | umc => exact absurd rfl humc
    | uim => exact absurd rfl huim
    | _ => rfl

/-- Settles O54: the step with other user mode registers is the step, its next state with these registers. -/
theorem hypervisorModeIgnoresUserModeRegisters : Obligations.HypervisorModeIgnoresUserModeRegisters := by
  refine ⟨fun s umm umc uim hh hn => ?_, fun s umm umc uim _ => s.withUserRegs_trapNumber ⟨umm, umc, uim⟩⟩
  have hstep := step_withUserRegs hh ⟨umm, umc, uim⟩ hn
  cases h : step s with
  | next t => rw [h] at hstep; exact hstep
  | fault why => rw [h] at hstep; exact hstep
  | refused why => rw [h] at hstep; exact hstep

end Sys2Proof.Machine

/-! Reset (spec 70): what each register reads as after a reset, and what a reset leaves alone. -/

namespace Sys2Proof.Machine

/-! ## The registers a reset writes (70 R210 to R212, 10 R65) -/

@[simp] theorem State.applyReset_pc (s : State) : s.applyReset.pc = trunc s.part.width s.part.resetPc := rfl
@[simp] theorem State.applyReset_esr (s : State) : s.applyReset.esr = ⟨true, 0b01⟩ := rfl
@[simp] theorem State.applyReset_imr (s : State) : s.applyReset.imr = 0 := rfl
@[simp] theorem State.applyReset_eim (s : State) : s.applyReset.eim = 0 := rfl
@[simp] theorem State.applyReset_umc (s : State) : s.applyReset.umc = s.umc &&& 0xEC := rfl
@[simp] theorem State.applyReset_uim (s : State) : s.applyReset.uim = 0b110 := rfl

/-- A reset writes these six registers and nothing else. -/
theorem State.applyReset_frame (s : State) :
    s.applyReset =
      { s with
        pc := s.applyReset.pc, esr := s.applyReset.esr, imr := s.applyReset.imr, eim := s.applyReset.eim,
        umc := s.applyReset.umc, uim := s.applyReset.uim } := rfl

/-! ## The fields of UMC (10 R57, R58) -/

/-- The mask has 0 at bit 4, the place of RSS. -/
theorem State.applyReset_rss (s : State) : s.applyReset.rss = false := by
  rw [State.rss, State.applyReset_umc, BitVec.getLsbD_and]
  exact Bool.and_false _

/-- The mask has 0 at bits 1 and 0, the places of UMW. -/
theorem State.applyReset_umw (s : State) : s.applyReset.umw = 0b00 := by
  rw [State.umw, State.applyReset_umc, BitVec.setWidth_and]
  exact BitVec.and_zero

/-- The mask taken twice is the mask: it has 1 at every bit of UMC but those of RSS and UMW. -/
theorem State.applyReset_umc_masked (s : State) : s.applyReset.umc &&& 0xEC = s.umc &&& 0xEC := by
  rw [State.applyReset_umc, BitVec.and_assoc, BitVec.and_self]

/-! ## The constant zero bits (10 R33, R44) -/

theorem StatusReg.getLsbD_read_five (r : StatusReg) : r.read.getLsbD 5 = false := by
  rw [StatusReg.read, StatusReg.getLsbD_toByte]; simp

theorem getLsbD_levelByte_of_ge (l : Level) {k : Nat} (hk : 3 ≤ k) : (levelByte l).getLsbD k = false := by
  rw [levelByte, BitVec.getLsbD_setWidth, BitVec.getLsbD_of_ge l k hk, Bool.and_false]

/-! ## The obligations -/

/-- Settles O1: the registers a reset writes, and the bits that read as 0 whatever a register holds. -/
theorem resetSetsTheSourceValues : Obligations.ResetSetsTheSourceValues := by
  intro s
  have hesr : s.applyReset.esr.toByte = 0x09 := by rw [State.applyReset_esr]; decide
  have himr : levelByte s.applyReset.imr = 0x00 := by rw [State.applyReset_imr]; decide
  have huim : levelByte s.applyReset.uim = 0x06 := by rw [State.applyReset_uim]; decide
  exact ⟨rfl, rfl, s.applyReset_imr, s.applyReset_rss, s.applyReset_umw, s.applyReset_uim, hesr, himr, huim,
    s.applyReset.sr.getLsbD_read_five, fun _ hk => ⟨getLsbD_levelByte_of_ge _ hk, getLsbD_levelByte_of_ge _ hk⟩⟩

/-- Settles O2: the frame of a reset, and the blank state as the one whose reset is State.reset. -/
theorem resetLeavesTheRest : Obligations.ResetLeavesTheRest := by
  refine ⟨fun s => ⟨?_, s.applyReset_eim, s.applyReset_umc_masked, s.applyReset_frame⟩,
    State.blank Config.resetPart, rfl, rfl, rfl⟩
  rw [State.applyReset_pc, trunc_toNat]

end Sys2Proof.Machine
